-- ==== Sys2Proof/Word.lean ====
section
/-! DEFINITION. The word types of the block (spec/10_state.md R22, spec/00_scope.md R9). -/

namespace Sys2Proof

/-- A byte of a text buffer, or of the 16-byte interchange value (R11, R62). -/
abbrev Byte := BitVec 8

/-- A host-visible register (R22). -/
abbrev Word := BitVec 32

/-- `u64`: an operand pair OPA or OPB (R22). -/
abbrev DWord := BitVec 64

/-- `u128`: the registers X and Y, and the interchange word (R22, R100). -/
abbrev QWord := BitVec 128

end Sys2Proof
end

