-- ==== Sys2Proof/Config.lean ====
section
/-! DEFINITION. The parameters of spec/00_scope.md R5 and R8, the constants that follow from them, and the free
values: the two parameters the spec leaves OPEN and the two draws it calls "any value". -/

namespace Sys2Proof.Config

/-- `P`: the most significant decimal digits of a coefficient (R5). -/
abbrev maxDigits : Nat := 34

/-- `EMAX`: the largest unbiased exponent (R5). -/
abbrev eMax : Int := 6111

/-- `EMIN`: the smallest unbiased exponent (R5). -/
abbrev eMin : Int := -6176

/-- `BIAS`: biased exponent = unbiased exponent + BIAS (R5). -/
abbrev bias : Int := 6176

/-- `MAXCOEF`: the largest coefficient (R5). -/
abbrev maxCoef : Nat := 10 ^ 34 - 1

/-- `LENLIM`: an input of this length or more is rejected (R5). -/
abbrev lenLim : Nat := 7000

/-- `SPLIT`: the decimal digits in the low word of the two-word coefficient (R5). -/
abbrev split : Nat := 17

/-- The constant divisor of DIV1E9 (R6). -/
abbrev billion : Nat := 1000000000

/-- The size in bytes of the host's window onto the block (R60). -/
abbrev windowSize : Nat := 0x4000

/-- The offset of TXT_OUT (R23). -/
abbrev txtOutBase : Nat := 0x100

/-- `TXT_OUT_SIZE` (R8). -/
abbrev txtOutSize : Nat := 64

/-- The offset of TXT_IN (R23). -/
abbrev txtInBase : Nat := 0x2000

/-- `TXT_IN_SIZE` (R8). -/
abbrev txtInSize : Nat := 7000

/-- `CODEC_BASE`: where the platform puts the window (R8, R70, D3). OPEN: no value is known of it (log 8). -/
opaque codecBase : Nat

/-- `CODEC_LATENCY` (R8, R290, D24). OPEN: how many turns the host takes between the `draw`-th acceptance, of the command
word `cmd`, and its completion. It may differ between commands and between operands: `operands` are the operand registers
and `text` the input text FROMSTR would read (log 2). -/
opaque codecLatency (draw : Nat) (cmd : Word) (operands : List Word) (text : List (Option Byte)) : Nat

/-- The "any value" of R281: what a read at `offset` returns of a word that held `held` at acceptance, while the command
in progress, `cmd` with its operands, may be writing it (log 3). -/
opaque freeWord (draw offset : Nat) (held cmd : Word) (operands : List Word) (text : List (Option Byte)) : Word

/-- The "any value" of R272: what the host reads for the unwritten buffer byte at `offset` (log 3). -/
opaque freeByte (draw offset : Nat) : Byte

end Sys2Proof.Config
end

