-- ==== Sys2Proof/Syntax.lean ====
section
/-! DEFINITION. The command set of the block: one constructor for each row of spec/opcode_table.json
(spec/30_encoding.md R92, R93). -/

namespace Sys2Proof

/-- A command of the unit. No command carries an operand other than SGN (R94); the class CLS of ENCODE selects one of
three instructions (R93). -/
inductive Instr where
  /-- FROMSTR (spec/40_parse_normalize.md R120). -/
  | fromstr
  /-- MUL64 (spec/41_arith_primitives.md R170). -/
  | mul64
  /-- DIV1E9 (spec/41_arith_primitives.md R175). -/
  | div1e9
  /-- LTU64 (spec/41_arith_primitives.md R180). -/
  | ltu64
  /-- ENC.FIN, with the sign bit SGN of the command word (spec/42_encoder.md R190). -/
  | encFin (sgn : Bool)
  /-- ENC.INF, with the sign bit SGN of the command word (spec/42_encoder.md R196). -/
  | encInf (sgn : Bool)
  /-- ENC.NAN; SGN is accepted as 0 or 1 and has no effect (spec/42_encoder.md R197). -/
  | encNan (sgn : Bool)
  /-- DECODE (spec/43_decoder_stringifier.md R210). -/
  | decode
  /-- TOSTR (spec/43_decoder_stringifier.md R220). -/
  | tostr
  deriving DecidableEq, Repr

end Sys2Proof
end

