-- ==== Sys2Proof/Decode.lean ====
section
/-! DEFINITION. The command word of spec/30_encoding.md R90 to R93 and R110 to R113: its fields, the decoder, which is
total and rejects by name, and the encoder. -/

namespace Sys2Proof

/-- `OP`, bits 7..0 (R91). -/
def opField (w : Word) : BitVec 8 := w.extractLsb' 0 8

/-- `SGN`, bit 8 (R91). -/
def sgnField (w : Word) : Bool := w.getLsbD 8

/-- `CLS`, bits 10..9 (R91). -/
def clsField (w : Word) : BitVec 2 := w.extractLsb' 9 2

/-- `RES`, bits 31..11 (R91). -/
def resField (w : Word) : BitVec 21 := w.extractLsb' 11 21

/-- Why a command word is illegal: the four cases of R110. -/
inductive IllegalWord where
  /-- `w[7:0]` is 0x00 or 0x08..0xFF. -/
  | reservedOpcode
  /-- `w[31:11]` is not 0. -/
  | reservedBits
  /-- SGN or CLS is not 0 in a command other than ENCODE. -/
  | fieldOutsideEncode
  /-- ENCODE with CLS = 11. -/
  | reservedClass
  deriving DecidableEq, Repr

/-- The opcode map of R92, but for ENCODE (0x05), which CLS splits. -/
def plainCommand (op : BitVec 8) : Option Instr :=
  match op.toNat with
  | 0x01 => some .fromstr
  | 0x02 => some .mul64
  | 0x03 => some .div1e9
  | 0x04 => some .ltu64
  | 0x06 => some .decode
  | 0x07 => some .tostr
  | _ => none

/-- The three instructions of ENCODE (R93); CLS = 11 is reserved. -/
def encodeCommand (cls : BitVec 2) (sgn : Bool) : Except IllegalWord Instr :=
  match cls.toNat with
  | 0 => .ok (.encFin sgn)
  | 1 => .ok (.encInf sgn)
  | 2 => .ok (.encNan sgn)
  | _ => .error .reservedClass

/-- The decoder of R90 to R92. It accepts exactly the words R110 does not call illegal. Which of several cases of R110
is named has no effect: each completes with the same error (log 14). -/
def decode (w : Word) : Except IllegalWord Instr :=
  if resField w ≠ 0 then .error .reservedBits
  else if opField w = 0x05 then encodeCommand (clsField w) (sgnField w)
  else
    match plainCommand (opField w) with
    | none => .error .reservedOpcode
    | some i => if sgnField w = true ∨ clsField w ≠ 0 then .error .fieldOutsideEncode else .ok i

/-- A command word from its fields (R91), the reserved bits 0. -/
def commandWord (op : BitVec 8) (sgn : Bool) (cls : BitVec 2) : Word :=
  0#21 ++ cls ++ BitVec.ofBool sgn ++ op

/-- The encoder: the command word of an instruction (R92, R93). -/
def encode : Instr → Word
  | .fromstr => commandWord 0x01 false 0
  | .mul64 => commandWord 0x02 false 0
  | .div1e9 => commandWord 0x03 false 0
  | .ltu64 => commandWord 0x04 false 0
  | .encFin sgn => commandWord 0x05 sgn 0
  | .encInf sgn => commandWord 0x05 sgn 1
  | .encNan sgn => commandWord 0x05 sgn 2
  | .decode => commandWord 0x06 false 0
  | .tostr => commandWord 0x07 false 0

/-- The word an assembler emits for a mnemonic (R113): SGN = 0 for `ENC.NAN`. -/
def assembledWord : Instr → Word
  | .fromstr => encode .fromstr
  | .mul64 => encode .mul64
  | .div1e9 => encode .div1e9
  | .ltu64 => encode .ltu64
  | .encFin sgn => encode (.encFin sgn)
  | .encInf sgn => encode (.encInf sgn)
  | .encNan _ => encode (.encNan false)
  | .decode => encode .decode
  | .tostr => encode .tostr

/-- The 32-bit command word whose bits below `nbits` are those of `w`, the bits above being 0. -/
def tableWord (nbits w : Nat) : Word := BitVec.ofNat 32 (w % 2 ^ nbits)

/-- What the decoder reads from a row of the opcode table: a command is one 32-bit word (R90, R112). -/
def decodeTableWord (nbits w : Nat) : Option Instr :=
  match decode (tableWord nbits w) with
  | .ok i => some i
  | .error _ => none

end Sys2Proof
end

