-- ==== Sys2Proof/Machine/HostProgram.lean ====
section
/-! DEFINITION. The names of the register map (spec/10_state.md R23), the host program of spec/30_encoding.md R114 and
R115, and the expansion of its pseudo-instructions into bus accesses. -/

namespace Sys2Proof.Machine

/-- The 32-bit registers of R23. -/
inductive RegName where
  | cmd | status | opaLo | opaHi | opbLo | opbHi | expIn | txtLen
  | x0 | x1 | x2 | x3 | y0 | y1 | y2 | y3 | aux | decInfo | decExp | outLen
  deriving DecidableEq, Repr

/-- The offset of each register from CODEC_BASE (R23). -/
def RegName.offset : RegName → Nat
  | .cmd => 0x000 | .status => 0x004
  | .opaLo => 0x008 | .opaHi => 0x00C | .opbLo => 0x010 | .opbHi => 0x014
  | .expIn => 0x018 | .txtLen => 0x01C
  | .x0 => 0x020 | .x1 => 0x024 | .x2 => 0x028 | .x3 => 0x02C
  | .y0 => 0x030 | .y1 => 0x034 | .y2 => 0x038 | .y3 => 0x03C
  | .aux => 0x040 | .decInfo => 0x044 | .decExp => 0x048 | .outLen => 0x04C

/-- Whether the host may write the register: "RW" in R23. -/
def RegName.writable : RegName → Bool
  | .cmd | .opaLo | .opaHi | .opbLo | .opbHi | .expIn | .txtLen | .x0 | .x1 | .x2 | .x3 => true
  | .status | .y0 | .y1 | .y2 | .y3 | .aux | .decInfo | .decExp | .outLen => false

/-- Every register of R23, in the order of its offset. -/
def allRegs : List RegName :=
  [.cmd, .status, .opaLo, .opaHi, .opbLo, .opbHi, .expIn, .txtLen, .x0, .x1, .x2, .x3,
   .y0, .y1, .y2, .y3, .aux, .decInfo, .decExp, .outLen]

/-- A 32-bit word of the window: a register, or the buffer word whose first byte is byte `k` (R63, R64). -/
inductive Place where
  | reg (r : RegName)
  | txtOut (k : Nat)
  | txtIn (k : Nat)
  deriving DecidableEq, Repr

/-- The offset of a word of the window (R23, R63, R64). -/
def Place.offset : Place → Nat
  | .reg r => r.offset
  | .txtOut k => Config.txtOutBase + k
  | .txtIn k => Config.txtInBase + k

/-- A 64-bit operand pair, for `wr64` (R115). -/
inductive PairName where
  | opa | opb
  deriving DecidableEq, Repr

/-- A 128-bit register, for `rd128` (R115). -/
inductive QuadName where
  | x | y
  deriving DecidableEq, Repr

/-- The direction of a host access, as in the fault BusError (spec/60_exceptions.md R250). -/
inductive Dir where
  | read | write
  deriving DecidableEq, Repr

/-- A statement of a host program (R114, R115). The last two are the model's own: any access to the bus, legal or not
(spec/20_memory.md R65, log 8), and the platform's reset input (spec/70_reset_and_hazards.md R270, log 16). -/
inductive HostStmt where
  /-- `wr NAME, imm32` (R114). -/
  | wr (p : Place) (v : Word)
  /-- `rd NAME` (R114). -/
  | rd (p : Place)
  /-- `cmd M` (R115). -/
  | cmd (i : Instr)
  /-- `wait` (R115). -/
  | wait
  /-- `wr64 OPA, v` or `wr64 OPB, v` (R115). -/
  | wr64 (r : PairName) (v : DWord)
  /-- `wr128 X, v` (R115). -/
  | wr128 (v : QWord)
  /-- `rd128 X` or `rd128 Y` (R115). -/
  | rd128 (r : QuadName)
  /-- `wrtext "s"` (R115). -/
  | wrtext (text : List Byte)
  /-- `rdtext` (R115). -/
  | rdtext
  /-- `L:` (R115). -/
  | label (l : Nat)
  /-- `mov128 X, Y` (R115). -/
  | mov128
  /-- `bnz128 Y, L` (R115). -/
  | bnz128 (l : Nat)
  /-- One access at a bus address, of `width` bits; `v` is what a write carries. -/
  | bus (dir : Dir) (address width : Nat) (v : Word)
  /-- The platform resets the block here. -/
  | reset
  deriving DecidableEq, Repr

/-- One turn of the host: at most one bus access. -/
inductive HostOp where
  /-- A 32-bit write. -/
  | write (offset : Nat) (v : Word)
  /-- A 32-bit read whose value is observed (R114). -/
  | read (offset : Nat)
  /-- The read of OUT_LEN that begins `rdtext` (R115). -/
  | readLength
  /-- The read of STATUS that `wait` repeats until BUSY is 0 (R115). -/
  | poll
  /-- A 32-bit read whose value the host keeps and does not observe (R115, `mov128` and `bnz128`). -/
  | readPrivate (offset : Nat)
  /-- A 32-bit write of the oldest value kept (R115, `mov128`). -/
  | writePrivate (offset : Nat)
  /-- Continue at the label if a value kept is nonzero (R115, `bnz128`). -/
  | branchNonzero (l : Nat)
  /-- One access at a bus address (log 8). -/
  | bus (dir : Dir) (address width : Nat) (v : Word)
  /-- The reset input (log 16). -/
  | resetInput
  deriving DecidableEq, Repr

/-- The host agent (R20, R114): its program, the statements not yet begun, the turns left of the statement begun, the
values a pseudo-instruction keeps, and the observations (offset and value, oldest first). -/
structure HostAgent where
  program : List HostStmt
  rest : List HostStmt
  ops : List HostOp
  got : List Word
  obs : List (Nat × Word)
  deriving DecidableEq, Repr

/-- A host that starts its program. -/
def HostAgent.start (program : List HostStmt) : HostAgent :=
  { program := program, rest := program, ops := [], got := [], obs := [] }

/-- Word `j` of a 128-bit value: bits `32j+31 .. 32j` (R22). -/
def quadWord (v : QWord) (j : Nat) : Word := v.extractLsb' (32 * j) 32

/-- The registers of a 128-bit register, word 0 first (R22). -/
def QuadName.words : QuadName → List RegName
  | .x => [.x0, .x1, .x2, .x3]
  | .y => [.y0, .y1, .y2, .y3]

/-- The registers of an operand pair, LO first (R22). -/
def PairName.words : PairName → RegName × RegName
  | .opa => (.opaLo, .opaHi)
  | .opb => (.opbLo, .opbHi)

/-- The 32-bit word whose byte `j` is `b j`, little-endian (R61). -/
def packBytes (b : Nat → Byte) : Word := b 3 ++ b 2 ++ b 1 ++ b 0

/-- Byte `j` of a 32-bit word (R61). -/
def unpackByte (v : Word) (j : Nat) : Byte := v.extractLsb' (8 * j) 8

/-- The buffer words of `wrtext`: word `m` packs bytes `4m .. 4m+3`, bytes past the end taken as 0 (R115). -/
def textWord (text : List Byte) (m : Nat) : Word := packBytes (fun j => text.getD (4 * m + j) 0)

/-- The turns of a statement (R114, R115). The text reads of `rdtext` follow when OUT_LEN has been read. -/
def HostStmt.expand : HostStmt → List HostOp
  | .wr p v => [.write p.offset v]
  | .rd p => [.read p.offset]
  | .cmd i => [.write RegName.cmd.offset (assembledWord i)]
  | .wait => [.poll]
  | .wr64 r v => [.write r.words.1.offset (v.extractLsb' 0 32), .write r.words.2.offset (v.extractLsb' 32 32)]
  | .wr128 v =>
    [.write RegName.x0.offset (quadWord v 0), .write RegName.x1.offset (quadWord v 1),
     .write RegName.x2.offset (quadWord v 2), .write RegName.x3.offset (quadWord v 3)]
  | .rd128 r => r.words.map (fun n => .read n.offset)
  | .wrtext text =>
    (List.range ((text.length + 3) / 4)).map (fun m => .write (Config.txtInBase + 4 * m) (textWord text m)) ++
      [.write RegName.txtLen.offset (BitVec.ofNat 32 text.length)]
  | .rdtext => [.readLength]
  | .label _ => []
  | .mov128 =>
    QuadName.y.words.map (fun n => .readPrivate n.offset) ++ QuadName.x.words.map (fun n => .writePrivate n.offset)
  | .bnz128 l => QuadName.y.words.map (fun n => .readPrivate n.offset) ++ [.branchNonzero l]
  | .bus dir address width v => [.bus dir address width v]
  | .reset => [.resetInput]

/-- The reads of `rdtext` once OUT_LEN has been read as `len`: `ceil(len/4)` words of TXT_OUT (R115). -/
def textReads (len : Word) : List HostOp :=
  (List.range ((len.toNat + 3) / 4)).map (fun m => .read (Config.txtOutBase + 4 * m))

/-- The statements from label `l` on; none if the program has no such label, which a well-formed program rules out. -/
def fromLabel (l : Nat) : List HostStmt → List HostStmt
  | [] => []
  | .label k :: rest => if k = l then rest else fromLabel l rest
  | _ :: rest => fromLabel l rest

end Sys2Proof.Machine
end

