-- ==== Sys2Proof/Machine/State.lean ====
section
/-! DEFINITION. The state of the machine (spec/10_state.md R21 to R40), the reasons it stops, and reset. -/

namespace Sys2Proof.Machine

/-- The model faults of spec/60_exceptions.md R250: exactly these three. Each is safe: the model admits fewer completed
runs than a chip, never more. -/
inductive Fault where
  /-- A host access of a width other than 32 bits, at an offset not divisible by 4, or at an unmapped offset (R251).
  Raised by `hostRead` and `hostWrite`. Safe. -/
  | busError (offset width : Nat) (dir : Dir)
  /-- A host write while BUSY = 1 (spec/70_reset_and_hazards.md R280). Raised by `hostWrite`. Safe. -/
  | hostHazard (offset : Nat)
  /-- FROMSTR reached byte `k` of TXT_IN, which no host write has set since reset (R272). Raised by `execFromstr`.
  Safe. -/
  | unwrittenInput (k : Nat)
  deriving DecidableEq, Repr

/-- Why the machine would give an instruction no meaning. Nothing raises it: every command of the table has its
meaning. -/
inductive Refusal where
  /-- An instruction without a meaning yet. Raised by no arm of `exec`. Safe. -/
  | notModelled (mnemonic : String)
  deriving DecidableEq, Repr

/-- The bytes of TXT_IN and TXT_OUT that have been written since reset, by offset in the window, rising. An offset that
is not listed holds an unwritten byte: listing stands for the written bit of R272 (log 1). -/
abbrev Memory := List Host.Cell

/-- The whole state. The 32-bit registers are those of R23; X, Y, OPA and OPB are views of them (R22). `turns` and `draws`
are the model's own (log 2, log 3). -/
structure State where
  /-- CMD: the command word last accepted (R24). -/
  cmd : Word
  /-- STATUS: BUSY, DONE, ERR, ECODE, ESUB (R25). -/
  status : Word
  opaLo : Word
  opaHi : Word
  opbLo : Word
  opbHi : Word
  /-- EXP_IN (R31). -/
  expIn : Word
  /-- TXT_LEN (R32). -/
  txtLen : Word
  x0 : Word
  x1 : Word
  x2 : Word
  x3 : Word
  y0 : Word
  y1 : Word
  y2 : Word
  y3 : Word
  /-- AUX (R35). -/
  aux : Word
  /-- DEC_INFO (R36). -/
  decInfo : Word
  /-- DEC_EXP (R37). -/
  decExp : Word
  /-- OUT_LEN (R38). -/
  outLen : Word
  /-- TXT_IN and TXT_OUT with their written bits (R39, R40, R272). -/
  mem : Memory
  /-- The fault mark (spec/60_exceptions.md R250). -/
  fault : Option Fault
  /-- The host agent (R20). -/
  host : HostAgent
  /-- The host turns left before the command in progress completes (log 2). -/
  turns : Nat
  /-- How many draws have been made from the free values (log 3). -/
  draws : Nat
  deriving DecidableEq, Repr

/-- The machine right after reset (spec/70_reset_and_hazards.md R270): every register 0, both buffers unwritten, no fault
mark, no command in progress; the host agent has no program (log 9, log 11). -/
def State.reset : State :=
  { cmd := 0, status := 0, opaLo := 0, opaHi := 0, opbLo := 0, opbHi := 0, expIn := 0, txtLen := 0,
    x0 := 0, x1 := 0, x2 := 0, x3 := 0, y0 := 0, y1 := 0, y2 := 0, y3 := 0,
    aux := 0, decInfo := 0, decExp := 0, outLen := 0, mem := [], fault := none,
    host := HostAgent.start [], turns := 0, draws := 0 }

end Sys2Proof.Machine
end

