-- ==== Sys2Proof/Machine/Flags.lean ====
section
/-! DEFINITION. STATUS: its fields, its values at acceptance and completion (spec/10_state.md R25, R26), and the error codes
(spec/60_exceptions.md R240, R241). -/

namespace Sys2Proof.Machine

/-- BUSY, STATUS[0] (R25). -/
def busyBit (st : Word) : Bool := st.getLsbD 0

/-- DONE, STATUS[1] (R25). -/
def doneBit (st : Word) : Bool := st.getLsbD 1

/-- ERR, STATUS[2] (R25). -/
def errBit (st : Word) : Bool := st.getLsbD 2

/-- ECODE, STATUS[7:4] (R25). -/
def ecodeField (st : Word) : BitVec 4 := st.extractLsb' 4 4

/-- ESUB, STATUS[11:8] (R25). -/
def esubField (st : Word) : BitVec 4 := st.extractLsb' 8 4

/-- STATUS from its fields; the reserved bits 3 and 31..12 read 0 (R25). -/
def statusWord (busy done err : Bool) (ecode esub : BitVec 4) : Word :=
  0#20 ++ esub ++ ecode ++ 0#1 ++ BitVec.ofBool err ++ BitVec.ofBool done ++ BitVec.ofBool busy

/-- The error kinds of R240. -/
inductive ErrorCode where
  | illegalCmd | tooLong | malformed | overflow | range | noncanon
  deriving DecidableEq, Repr

/-- The value of ECODE for each kind (R240). -/
def errorNumber : ErrorCode → BitVec 4
  | .illegalCmd => 1
  | .tooLong => 2
  | .malformed => 3
  | .overflow => 4
  | .range => 5
  | .noncanon => 6

/-- The validation failures of R241, in the order of their codes. -/
inductive SubCode where
  | none | noDigits | multipleRadix | missingExpDigits | missingExpBase | trailingChars
  deriving DecidableEq, Repr

/-- The value of ESUB for each failure (R241). -/
def subNumber : SubCode → BitVec 4
  | .none => 0
  | .noDigits => 1
  | .multipleRadix => 2
  | .missingExpDigits => 3
  | .missingExpBase => 4
  | .trailingChars => 5

/-- STATUS after acceptance: BUSY 1, every other field 0 (R26). -/
def statusAccepted : Word := statusWord true false false 0 0

/-- STATUS after a successful completion: BUSY 0, DONE 1; ERR, ECODE and ESUB stay as acceptance left them (R26,
log 13). -/
def statusCompleted (st : Word) : Word := statusWord false true (errBit st) (ecodeField st) (esubField st)

/-- STATUS after a completion with an error (R26, R242). -/
def statusFailed (code : ErrorCode) (sub : SubCode) : Word :=
  statusWord false true true (errorNumber code) (subNumber sub)

end Sys2Proof.Machine
end

