-- ==== Sys2Proof/Machine/Operands.lean ====
section
/-! DEFINITION. The operand forms of spec/30_encoding.md R94, over the register views of spec/10_state.md R22. -/

namespace Sys2Proof.Machine

/-- OPA = R[OPA_HI] : R[OPA_LO], a u64 (R22, R94). -/
def State.opa (s : State) : DWord := s.opaHi ++ s.opaLo

/-- OPB = R[OPB_HI] : R[OPB_LO], a u64 (R22, R94). -/
def State.opb (s : State) : DWord := s.opbHi ++ s.opbLo

/-- X = X3 : X2 : X1 : X0, a u128 (R22, R33). -/
def State.x (s : State) : QWord := s.x3 ++ s.x2 ++ s.x1 ++ s.x0

/-- Y = Y3 : Y2 : Y1 : Y0, a u128 (R22, R34). -/
def State.y (s : State) : QWord := s.y3 ++ s.y2 ++ s.y1 ++ s.y0

/-- `e = sext(R[EXP_IN])`, an integer (R31, R94). -/
def State.exponent (s : State) : Int := s.expIn.toInt

/-- The length of the input text, zero-extended (R32, R94). -/
def State.textLength (s : State) : Nat := s.txtLen.toNat

end Sys2Proof.Machine
end

