-- ==== Sys2Proof/Machine/Ops.lean ====
section
/-! DEFINITION. The shared operations: the buffers' memory, the 128-bit result registers, how a command ends (R26,
R242), the address map, and the accesses of the host (spec/20_memory.md R60 to R76). -/

namespace Sys2Proof.Machine

/-! ## Memory -/

/-- The byte at an offset; `none` if it is unwritten (R272). -/
def Memory.read : Memory → Nat → Option Byte
  | [], _ => none
  | (a, b) :: rest, k => if a = k then some b else Memory.read rest k

/-- Writes one byte and so sets its written bit (R272), keeping the offsets strictly rising. -/
def Memory.write : Memory → Nat → Byte → Memory
  | [], k, v => [(k, v)]
  | (a, b) :: rest, k, v =>
    if k < a then (k, v) :: (a, b) :: rest
    else if k = a then (k, v) :: rest
    else (a, b) :: Memory.write rest k v

/-- Writes bytes at rising offsets from `base`. -/
def Memory.writeBytes (m : Memory) (base : Nat) : List Byte → Memory
  | [] => m
  | b :: bs => Memory.writeBytes (Memory.write m base b) (base + 1) bs

/-- The canonical form: the offsets listed are strictly rising. An unlisted offset reads as no value, so no entry can
equal it. -/
def Memory.wf : Memory → Bool
  | [] => true
  | [_] => true
  | (a, _) :: (b, v) :: rest => decide (a < b) && Memory.wf ((b, v) :: rest)

/-- Writes the four bytes of a 32-bit word, little-endian (R61, R63). -/
def Memory.writeWord (m : Memory) (base : Nat) (v : Word) : Memory :=
  Memory.writeBytes m base [unpackByte v 0, unpackByte v 1, unpackByte v 2, unpackByte v 3]

/-- Byte `k` of the input text, `IN[k]`; `none` if it is unwritten (R63). -/
def State.inputByte (s : State) (k : Nat) : Option Byte := s.mem.read (Config.txtInBase + k)

/-- Byte `k` of the output text, `OUT[k]`; `none` if it is unwritten (R64). -/
def State.outputByte (s : State) (k : Nat) : Option Byte := s.mem.read (Config.txtOutBase + k)

/-- `IN[k] ++ … ++ IN[k + n - 1]`, or the first of these bytes that is unwritten (R120, R272, log 6). -/
def gatherInput (s : State) : Nat → Nat → Except Nat (List Byte)
  | _, 0 => .ok []
  | k, n + 1 =>
    match s.inputByte k with
    | none => .error k
    | some b =>
      match gatherInput s (k + 1) n with
      | .error j => .error j
      | .ok bs => .ok (b :: bs)

/-! ## Result registers -/

/-- `R[X] <- v` (R22, R33). -/
def State.setX (s : State) (v : QWord) : State :=
  { s with x0 := quadWord v 0, x1 := quadWord v 1, x2 := quadWord v 2, x3 := quadWord v 3 }

/-- `R[Y] <- v` (R22, R34). -/
def State.setY (s : State) (v : QWord) : State :=
  { s with y0 := quadWord v 0, y1 := quadWord v 1, y2 := quadWord v 2, y3 := quadWord v 3 }

/-- `R[AUX] <- v` (R35). -/
def State.setAux (s : State) (v : Word) : State := { s with aux := v }

/-- `R[DEC_INFO] <- info`, `R[DEC_EXP] <- exp` (R36, R37). -/
def State.setDecoded (s : State) (info exp : Word) : State := { s with decInfo := info, decExp := exp }

/-- The 64 bytes of TXT_OUT for a text: its bytes, then 0x00 (R222). -/
def outputBytes (text : List Byte) : List Byte := (List.range Config.txtOutSize).map (fun k => text.getD k 0)

/-- `WriteOut(t)`: all 64 bytes of TXT_OUT, and OUT_LEN (R222). -/
def State.writeOut (s : State) (text : List Byte) : State :=
  { s with
    mem := s.mem.writeBytes Config.txtOutBase (outputBytes text)
    outLen := BitVec.ofNat 32 text.length }

/-! ## How a command ends -/

/-- `complete()`: the command ends without error (R26). -/
def complete (s : State) : State := { s with status := statusCompleted s.status }

/-- `raise Error(code, sub)`: the command ends with an error, and nothing but STATUS changes (R26, R242). This is the
block's whole error reporting: it takes no trap, so there is nothing to return from (R252). -/
def raiseError (s : State) (code : ErrorCode) (sub : SubCode) : State := { s with status := statusFailed code sub }

/-- The command word of the command in progress, decoded: CMD is the instruction register (R41, R90). -/
def fetchCommand (s : State) : Except IllegalWord Instr := decode s.cmd

/-- An illegal command word completes with ILLEGAL_CMD and has no other effect (R90, R110). -/
def completeIllegal (s : State) : State := raiseError s .illegalCmd .none

/-- The fault mark is set (spec/60_exceptions.md R250). -/
def State.mark (s : State) (f : Fault) : State := { s with fault := some f }

/-- An outcome in which a fault is a mark on the state it happened in (R250, log 4). -/
def markFault (s : State) (o : Host.Outcome State Fault Refusal) : Host.Outcome State Fault Refusal :=
  match o with
  | .next t => .next t
  | .fault f => .next (s.mark f)
  | .refused r => .refused r

/-! ## The address map -/

/-- The register at an offset (R23). -/
def regAt (offset : Nat) : Option RegName := allRegs.find? (fun r => r.offset == offset)

/-- The word at a mapped offset that is a multiple of 4; the other offsets are unmapped (R23, R66). -/
def placeAt (offset : Nat) : Option Place :=
  if Config.txtInBase ≤ offset ∧ offset < Config.txtInBase + Config.txtInSize then
    some (.txtIn (offset - Config.txtInBase))
  else if Config.txtOutBase ≤ offset ∧ offset < Config.txtOutBase + Config.txtOutSize then
    some (.txtOut (offset - Config.txtOutBase))
  else (regAt offset).map .reg

/-- The word a legal access reaches: 32 bits wide, at a mapped multiple of 4; `none` for an illegal access (R65). -/
def legalPlace (offset width : Nat) : Option Place :=
  if width = 32 ∧ offset % 4 = 0 then placeAt offset else none

/-- The offset in the window of a bus address; `none` if the address does not reach the block (R60, R70, log 8). -/
def windowOffset (address : Nat) : Option Nat :=
  if Config.codecBase ≤ address ∧ address < Config.codecBase + Config.windowSize then
    some (address - Config.codecBase)
  else none

/-! ## Host reads -/

/-- The value a register holds. -/
def State.reg (s : State) : RegName → Word
  | .cmd => s.cmd
  | .status => s.status
  | .opaLo => s.opaLo
  | .opaHi => s.opaHi
  | .opbLo => s.opbLo
  | .opbHi => s.opbHi
  | .expIn => s.expIn
  | .txtLen => s.txtLen
  | .x0 => s.x0
  | .x1 => s.x1
  | .x2 => s.x2
  | .x3 => s.x3
  | .y0 => s.y0
  | .y1 => s.y1
  | .y2 => s.y2
  | .y3 => s.y3
  | .aux => s.aux
  | .decInfo => s.decInfo
  | .decExp => s.decExp
  | .outLen => s.outLen

/-- The buffer word at an offset, each unwritten byte drawn (R61, R272, log 3). -/
def State.bufferWord (s : State) (offset : Nat) : Word :=
  packBytes (fun j => (s.mem.read (offset + j)).getD (Config.freeByte s.draws (offset + j)))

/-- The table of spec/10_state.md R44: what a command writes on success, besides STATUS. -/
def writesOnSuccess : Instr → Place → Bool
  | .fromstr, .reg r => QuadName.x.words.contains r
  | .mul64, .reg r => QuadName.y.words.contains r
  | .div1e9, .reg r => QuadName.y.words.contains r || r == .aux
  | .ltu64, .reg r => r == .aux
  | .encFin _, .reg r => QuadName.x.words.contains r
  | .encInf _, .reg r => QuadName.x.words.contains r
  | .encNan _, .reg r => QuadName.x.words.contains r
  | .decode, .reg r => QuadName.y.words.contains r || r == .decInfo || r == .decExp
  | .tostr, .reg r => r == .outLen
  | .tostr, .txtOut _ => true
  | _, .txtOut _ => false
  | _, .txtIn _ => false

/-- Whether a command in progress may be writing a word (R281). An illegal word writes nothing but STATUS (R110). -/
def State.inFlux (s : State) (p : Place) : Bool :=
  busyBit s.status &&
    match fetchCommand s with
    | .ok i => writesOnSuccess i p
    | .error _ => false

/-- The value a word holds, each unwritten byte of a buffer drawn (R272). -/
def State.held (s : State) : Place → Word
  | .reg r => s.reg r
  | .txtOut k => s.bufferWord (Config.txtOutBase + k)
  | .txtIn k => s.bufferWord (Config.txtInBase + k)

/-- The operand registers, in the order of their offsets: every register the host writes but CMD (R23). -/
def State.operandWords (s : State) : List Word :=
  [s.opaLo, s.opaHi, s.opbLo, s.opbHi, s.expIn, s.txtLen, s.x0, s.x1, s.x2, s.x3]

/-- The bytes of TXT_IN that FROMSTR would read, each with its written bit: none for a text that is too long, so that
TOO_LONG's latency is the same whatever TXT_IN holds (R39, R121, spec/70_reset_and_hazards.md R291). -/
def State.operandText (s : State) : List (Option Byte) :=
  if s.textLength < Config.lenLim then (List.range s.textLength).map s.inputByte else []

/-- The value a legal host read returns (R68, R272, R281). Of a word in flux it is a free value in all its 32 bits: R281's
"any value" is taken over R36, R38 and R43, by which the reserved bits of DEC_INFO and OUT_LEN read 0 (DESIGN CHOICE,
safe; log 3). -/
def State.peek (s : State) (p : Place) : Word :=
  if s.inFlux p then Config.freeWord s.draws p.offset (s.held p) s.cmd s.operandWords s.operandText else s.held p

/-- A read changes nothing of the block (R28, R68). While a command is in progress the draws go on, so that two reads of
one word may differ (R281); while none is, they do not, so that they agree (R68, log 3). -/
def State.afterRead (s : State) : State := if busyBit s.status then { s with draws := s.draws + 1 } else s

/-- A host read (R65, R68, R281): the value and the state after it, or BusError (R251). -/
def hostRead (s : State) (offset width : Nat) : Except Fault (Word × State) :=
  match legalPlace offset width with
  | none => .error (.busError offset width .read)
  | some p => .ok (s.peek p, s.afterRead)

/-! ## Host writes -/

/-- Acceptance of a command: CMD holds the word exactly as written, and STATUS says BUSY (R24, R26, R90). The latency is
drawn, for this acceptance, this word and its operands (R290, log 2). -/
def State.accept (s : State) (w : Word) : State :=
  { s with
    cmd := w
    status := statusAccepted
    turns := Config.codecLatency s.draws w s.operandWords s.operandText
    draws := s.draws + 1 }

/-- A host write of a register while no command is in progress: CMD issues a command, an RW register takes the value, an
RO register ignores it (R24, R43, R68). -/
def State.writeReg (s : State) (r : RegName) (v : Word) : State :=
  match r with
  | .cmd => s.accept v
  | .opaLo => { s with opaLo := v }
  | .opaHi => { s with opaHi := v }
  | .opbLo => { s with opbLo := v }
  | .opbHi => { s with opbHi := v }
  | .expIn => { s with expIn := v }
  | .txtLen => { s with txtLen := v }
  | .x0 => { s with x0 := v }
  | .x1 => { s with x1 := v }
  | .x2 => { s with x2 := v }
  | .x3 => { s with x3 := v }
  | .status => s
  | .y0 => s
  | .y1 => s
  | .y2 => s
  | .y3 => s
  | .aux => s
  | .decInfo => s
  | .decExp => s
  | .outLen => s

/-- A host write of a word while no command is in progress: TXT_OUT ignores it, TXT_IN takes its four bytes (R43, R68,
R272). -/
def State.poke (s : State) (p : Place) (v : Word) : State :=
  match p with
  | .reg r => s.writeReg r v
  | .txtOut _ => s
  | .txtIn k => { s with mem := s.mem.writeWord (Config.txtInBase + k) v }

/-- A host write: BusError if it is illegal (R251), else HostHazard if a command is in progress (R280), else its effect
(log 5). -/
def hostWrite (s : State) (offset width : Nat) (v : Word) : Except Fault State :=
  match legalPlace offset width with
  | none => .error (.busError offset width .write)
  | some p => if busyBit s.status then .error (.hostHazard offset) else .ok (s.poke p v)

/-! ## Reset -/

/-- The platform's reset input: the block is in the reset state, a command in progress is abandoned (R270, R273). The host
agent is no part of the block, and the draws go on (log 3, log 16). -/
def State.resetInput (s : State) : State := { State.reset with host := s.host, draws := s.draws + 1 }

end Sys2Proof.Machine
end

