-- ==== Sys2Proof/Machine/Arith.lean ====
section
/-! DEFINITION. MUL64, DIV1E9 and LTU64 (spec/41_arith_primitives.md R170, R175, R180), as the exact integer functions
R185 allows. -/

namespace Sys2Proof.Machine

/-- The 128-bit product of two 64-bit numbers (R170). -/
def mulWide (a b : DWord) : QWord := BitVec.ofNat 128 (a.toNat * b.toNat)

/-- The quotient by 10^9 (R175). -/
def divBillion (v : QWord) : QWord := BitVec.ofNat 128 (v.toNat / Config.billion)

/-- The remainder by 10^9 (R175). -/
def modBillion (v : QWord) : Word := BitVec.ofNat 32 (v.toNat % Config.billion)

/-- 1 if `a < b` unsigned, else 0 (R180). -/
def lessThanUnsigned (a b : DWord) : Word := if a.toNat < b.toNat then 1 else 0

/-- MUL64: Y is the product of OPA and OPB (R170). -/
def execMul64 (s : State) : Host.Outcome State Fault Refusal :=
  .next (complete (s.setY (mulWide s.opa s.opb)))

/-- DIV1E9: Y is the quotient of X by 10^9 and AUX the remainder (R175). -/
def execDiv1e9 (s : State) : Host.Outcome State Fault Refusal :=
  .next (complete ((s.setY (divBillion s.x)).setAux (modBillion s.x)))

/-- LTU64: AUX is 1 if OPA is below OPB, unsigned, else 0 (R180). -/
def execLtu64 (s : State) : Host.Outcome State Fault Refusal :=
  .next (complete (s.setAux (lessThanUnsigned s.opa s.opb)))

end Sys2Proof.Machine
end

