-- ==== Sys2Proof/Machine/Encoder.lean ====
section
/-! DEFINITION. The binary encoder: the packing of spec/42_encoder.md R191 to R195, and ENC.FIN, ENC.INF and ENC.NAN (R190,
R196, R197). -/

namespace Sys2Proof.Machine

/-- `PackFinite(s, c, e)` for `c ≤ MAXCOEF` and `EMIN ≤ e ≤ EMAX`: the small-coefficient word, sign `W[127]`, biased
exponent `W[126:113]`, coefficient `W[112:0]` (R192, spec/30_encoding.md R103; log 15). -/
def packFinite (neg : Bool) (c : Nat) (e : Int) : QWord :=
  BitVec.ofBool neg ++ BitVec.ofNat 14 (e + Config.bias).toNat ++ BitVec.ofNat 113 c

/-- `PackSpecial(INF, s)` (R193). -/
def packInfinity (neg : Bool) : QWord :=
  if neg then 0xF8000000000000000000000000000000#128 else 0x78000000000000000000000000000000#128

/-- `PackSpecial(NAN, s)`, the same for both signs (R193). -/
def packNan : QWord := 0x7C000000000000000000000000000000#128

/-- An exponent moved into [EMIN, EMAX] (R133, R194). -/
def clampExponent (e : Int) : Int := max Config.eMin (min Config.eMax e)

/-- The coefficient of the two-word form, exact (R191). -/
def joinCoefficient (high low : Nat) : Nat := high * 10 ^ Config.split + low

/-- ENC.FIN's word, or none if it is out of RANGE (R190, R194). -/
def encodeFinite (neg : Bool) (c : Nat) (e : Int) : Option QWord :=
  if Config.maxCoef < c then none
  else if c = 0 then some (packFinite neg c (clampExponent e))
  else if e < Config.eMin ∨ Config.eMax < e then none
  else some (packFinite neg c e)

/-- A packing ends the command: its word goes to X, or RANGE to STATUS (R190). -/
def finishEncoding (s : State) : Option QWord → State
  | none => raiseError s .range .none
  | some w => complete (s.setX w)

/-- ENC.FIN (R190). -/
def execEncFin (sgn : Bool) (s : State) : Host.Outcome State Fault Refusal :=
  .next (finishEncoding s (encodeFinite sgn (joinCoefficient s.opa.toNat s.opb.toNat) s.exponent))

/-- ENC.INF (R196). -/
def execEncInf (sgn : Bool) (s : State) : Host.Outcome State Fault Refusal :=
  .next (complete (s.setX (packInfinity sgn)))

/-- ENC.NAN: SGN has no effect (R197). -/
def execEncNan (_sgn : Bool) (s : State) : Host.Outcome State Fault Refusal :=
  .next (complete (s.setX packNan))

end Sys2Proof.Machine
end

