-- ==== Sys2Proof/Machine/Text.lean ====
section
/-! DEFINITION. Byte classes, ASCII words, digit strings and their numbers (spec/00_scope.md R11,
spec/40_parse_normalize.md R122). A digit string is a list of digit values, most significant first. -/

namespace Sys2Proof.Machine

/-- '+' -/
def bytePlus : Byte := 0x2B
/-- '-' -/
def byteMinus : Byte := 0x2D
/-- The radix point '.' -/
def byteRadix : Byte := 0x2E
/-- '0' -/
def byteZero : Byte := 0x30
/-- 'E' -/
def byteE : Byte := 0x45
/-- 'e' -/
def byteSmallE : Byte := 0x65

/-- A digit: 0x30..0x39 (R122). -/
def isDigit (b : Byte) : Bool := decide (0x30 ≤ b.toNat ∧ b.toNat ≤ 0x39)

/-- The value of a digit byte (R122). -/
def digitValue (b : Byte) : Nat := b.toNat - 0x30

/-- The byte of a digit value. -/
def digitByte (d : Nat) : Byte := BitVec.ofNat 8 (0x30 + d)

/-- A sign: '+' or '-' (R122). -/
def isSign (b : Byte) : Bool := b == bytePlus || b == byteMinus

/-- An exponent marker: 'E' or 'e' (R122). -/
def isMarker (b : Byte) : Bool := b == byteE || b == byteSmallE

/-- `fold(b)`: 'A'..'Z' to 'a'..'z', every other byte unchanged (R11). -/
def foldByte (b : Byte) : Byte := if 0x41 ≤ b.toNat ∧ b.toNat ≤ 0x5A then b + 0x20 else b

/-- "infinity" -/
def foldedInfinity : List Byte := [0x69, 0x6E, 0x66, 0x69, 0x6E, 0x69, 0x74, 0x79]
/-- "inf" -/
def foldedInf : List Byte := [0x69, 0x6E, 0x66]
/-- "nan" -/
def foldedNan : List Byte := [0x6E, 0x61, 0x6E]
/-- "Infinity" (R230) -/
def textInfinity : List Byte := [0x49, 0x6E, 0x66, 0x69, 0x6E, 0x69, 0x74, 0x79]
/-- "NaN" (R230) -/
def textNan : List Byte := [0x4E, 0x61, 0x4E]

/-- The number a digit string denotes after the digits read so far denote `acc`. -/
def digitsNumber (acc : Nat) : List Nat → Nat
  | [] => acc
  | d :: ds => digitsNumber (10 * acc + d) ds

/-- `int(d)`, with `int("") = 0` (R11). -/
def intOf (ds : List Nat) : Nat := digitsNumber 0 ds

/-- The digits of `n` put before `acc`, in at most `fuel` divisions by 10. -/
def digitsInto : Nat → Nat → List Nat → List Nat
  | 0, _, acc => acc
  | fuel + 1, n, acc => if n < 10 then n :: acc else digitsInto fuel (n / 10) (n % 10 :: acc)

/-- `dec(n)`: the decimal digits of `n` without leading zeros, and "0" for 0 (R11, R223). A number has at most one more
digit than its binary logarithm. -/
def decDigits (n : Nat) : List Nat := digitsInto (Nat.log2 n + 1) n []

/-- The ASCII bytes of a digit string. -/
def digitText (ds : List Nat) : List Byte := ds.map digitByte

end Sys2Proof.Machine
end

