-- ==== Sys2Proof/Machine/Normalize.lean ====
section
/-! DEFINITION. The significand normalizer of spec/40_parse_normalize.md R130 to R143. -/

namespace Sys2Proof.Machine

/-- The normalizer's result (R130). -/
inductive Normalized where
  | fin (neg : Bool) (coef : Nat) (exp : Int)
  | inf (neg : Bool)
  | overflow
  deriving DecidableEq, Repr

/-- The digit run without its leading zeros (R132). -/
def significant (digits : List Nat) : List Nat := digits.dropWhile (· == 0)

/-- The final exponent of R135: the smallest that is at least EMIN and keeps at most 34 of `n` digits. -/
def finalExponent (e0 : Int) (n : Nat) : Int := max (max e0 Config.eMin) (e0 + n - Config.maxDigits)

/-- Round half to even on the first discarded digit (R138, R139): `kept` is the kept window, `discarded` the digits after
it. An empty window counts as even. -/
def roundsUp (kept discarded : List Nat) : Bool :=
  let rd := discarded.getD 0 0
  let sticky := (discarded.drop 1).any (· != 0)
  let lastOdd := kept.getLast?.any (· % 2 == 1)
  decide (5 < rd) || (rd == 5 && (sticky || lastOdd))

/-- Steps R138 to R141 for `k = kept.length`: the kept window rounded, at exponent `q`. A carry out of the window raises
the exponent, or at EMAX saturates to Infinity. -/
def roundKept (neg : Bool) (kept discarded : List Nat) (q : Int) : Normalized :=
  if roundsUp kept discarded then
    if kept ≠ [] ∧ intOf kept + 1 = 10 ^ kept.length then
      if q = Config.eMax then .inf neg else .fin neg (10 ^ (kept.length - 1)) (q + 1)
    else .fin neg (intOf kept + 1) q
  else .fin neg (intOf kept) q

/-- `Normalize` for a nonzero significand `c`, its leading zeros removed, at the initial exponent `e0` (R134 to R141). -/
def normalizeNonzero (neg : Bool) (c : List Nat) (e0 : Int) : Normalized :=
  let n := c.length
  if Config.eMax < e0 then
    let p := (e0 - Config.eMax).toNat
    if Config.maxDigits < n + p then .overflow else .fin neg (intOf c * 10 ^ p) Config.eMax
  else
    let q := finalExponent e0 n
    let t := (q - e0).toNat
    if t = 0 then .fin neg (intOf c) e0
    else if Config.eMax < q then .overflow
    else if n < t then .fin neg 0 q
    else roundKept neg (c.take (n - t)) (c.drop (n - t)) q

/-- `Normalize(neg, D, r, E)` (R130). -/
def normalize (neg : Bool) (digits : List Nat) (radix : Nat) (exp : Int) : Normalized :=
  if significant digits = [] then .fin neg 0 (clampExponent (exp - radix))
  else normalizeNonzero neg (significant digits) (exp - radix)

end Sys2Proof.Machine
end

