-- ==== Sys2Proof/Machine/Parse.lean ====
section
/-! DEFINITION. The numeral parser of spec/40_parse_normalize.md R121 to R128. -/

namespace Sys2Proof.Machine

/-- The parser's result (R124): a validation failure, a special word, or the tuple of R128, with every mantissa digit and
the exact exponent (R127). -/
inductive Parsed where
  | err (sub : SubCode)
  | inf (neg : Bool)
  | nan
  | num (neg : Bool) (digits : List Nat) (radix : Nat) (exp : Int)
  deriving DecidableEq, Repr

/-- An optional sign and the rest: true for '-' (R124). -/
def splitSign : List Byte → Bool × List Byte
  | [] => (false, [])
  | b :: bs => if isSign b then (b == byteMinus, bs) else (false, b :: bs)

/-- What the mantissa scan yields: the digit run, the digits after the radix point, and the text that follows. -/
structure Mantissa where
  digits : List Nat
  radix : Nat
  rest : List Byte
  deriving DecidableEq, Repr

/-- The mantissa loop of R124: digits and at most one radix point. `sawRadix` says that the point has been read. -/
def scanMantissa (sawRadix : Bool) : List Byte → Except SubCode Mantissa
  | [] => .ok ⟨[], 0, []⟩
  | b :: bs =>
    if b = byteRadix then
      if sawRadix then .error .multipleRadix else scanMantissa true bs
    else if isDigit b then
      match scanMantissa sawRadix bs with
      | .error e => .error e
      | .ok m => .ok ⟨digitValue b :: m.digits, (if sawRadix then m.radix + 1 else m.radix), m.rest⟩
    else .ok ⟨[], 0, b :: bs⟩

/-- A run of digits and the rest (R124). -/
def takeDigits : List Byte → List Nat × List Byte
  | [] => ([], [])
  | b :: bs =>
    if isDigit b then ((digitValue b :: (takeDigits bs).1), (takeDigits bs).2) else ([], b :: bs)

/-- The digits of an exponent after its sign, exact (R124, R127). -/
def exponentDigits (neg : Bool) (text : List Byte) : Except SubCode (Int × List Byte) :=
  match takeDigits text with
  | ([], _) => .error .missingExpDigits
  | (d :: ds, rest) =>
    .ok (if neg then -(intOf (d :: ds) : Int) else (intOf (d :: ds) : Int), rest)

/-- The optional exponent after a mantissa with digit run `digits` (R124). -/
def scanExponent (digits : List Nat) : List Byte → Except SubCode (Int × List Byte)
  | [] => .ok (0, [])
  | b :: bs =>
    if isMarker b then
      if digits = [] then .error .missingExpBase
      else exponentDigits (splitSign bs).1 (splitSign bs).2
    else .ok (0, b :: bs)

/-- A numeral after its sign (R124). -/
def parseNumeral (neg : Bool) (text : List Byte) : Parsed :=
  match scanMantissa false text with
  | .error e => .err e
  | .ok m =>
    match scanExponent m.digits m.rest with
    | .error e => .err e
    | .ok (exp, rest) =>
      if rest ≠ [] then .err .trailingChars
      else if m.digits = [] then .err .noDigits
      else .num neg m.digits m.radix exp

/-- `Parse(s)` (R124). The special words are the whole rest after the sign, ASCII case ignored (R125). -/
def parse (text : List Byte) : Parsed :=
  let folded := (splitSign text).2.map foldByte
  if folded = foldedInfinity ∨ folded = foldedInf then .inf (splitSign text).1
  else if folded = foldedNan then .nan
  else parseNumeral (splitSign text).1 (splitSign text).2

end Sys2Proof.Machine
end

