-- ==== Sys2Proof/Machine/FromStr.lean ====
section
/-! DEFINITION. FROMSTR (spec/40_parse_normalize.md R120, R121). -/

namespace Sys2Proof.Machine

/-- The outcome of the codec path: an interchange word, or an error. -/
inductive Converted where
  | word (w : QWord)
  | error (code : ErrorCode) (sub : SubCode)
  deriving DecidableEq, Repr

/-- The word of a normalized value (R120). -/
def packNormalized : Normalized → Converted
  | .fin neg c e => .word (packFinite neg c e)
  | .inf neg => .word (packInfinity neg)
  | .overflow => .error .overflow .none

/-- Parse, normalize, encode: FROMSTR's result for a text shorter than 7000 bytes (R120). -/
def convertText (text : List Byte) : Converted :=
  match parse text with
  | .err sub => .error .malformed sub
  | .inf neg => .word (packInfinity neg)
  | .nan => .word packNan
  | .num neg digits radix exp => packNormalized (normalize neg digits radix exp)

/-- A conversion ends the command: its word goes to X, or its error to STATUS (R120, R242). -/
def finishConversion (s : State) : Converted → State
  | .word w => complete (s.setX w)
  | .error code sub => raiseError s code sub

/-- FROMSTR (R120): TOO_LONG before any byte is read (R121), a fault at the first unwritten byte (R272), else the
conversion of the text. -/
def execFromstr (s : State) : Host.Outcome State Fault Refusal :=
  if Config.lenLim ≤ s.textLength then .next (raiseError s .tooLong .none)
  else
    match gatherInput s 0 s.textLength with
    | .error k => .fault (.unwrittenInput k)
    | .ok text => .next (finishConversion s (convertText text))

end Sys2Proof.Machine
end

