-- ==== Sys2Proof/Machine/Decoder.lean ====
section
/-! DEFINITION. The binary decoder: the unpacking of spec/43_decoder_stringifier.md R211 and R212, and DECODE (R210). -/

namespace Sys2Proof.Machine

/-- The classes of an interchange word (spec/10_state.md R36). -/
inductive ValueClass where
  | finite | inf | nan | noncanon
  deriving DecidableEq, Repr

/-- `code(class)` (R210). -/
def classCode : ValueClass → BitVec 2
  | .finite => 0
  | .inf => 1
  | .nan => 2
  | .noncanon => 3

/-- The record `Unpack` returns (R211). -/
structure Unpacked where
  sign : Bool
  cls : ValueClass
  large : Bool
  bexp : BitVec 14
  exp : Int
  coef : Nat
  deriving DecidableEq, Repr

/-- The sign bit `W[127]` (spec/30_encoding.md R101). -/
def signBit (w : QWord) : Bool := w.getLsbD 127

/-- The combination field `W[126:122]` (spec/30_encoding.md R101). -/
def combination (w : QWord) : BitVec 5 := w.extractLsb' 122 5

/-- FINITE up to MAXCOEF, NONCANON above (R212). -/
def finiteClass (coef : Nat) : ValueClass := if coef ≤ Config.maxCoef then .finite else .noncanon

/-- The record of a finite word from its fields (R211). -/
def unpackFinite (sign large : Bool) (bexp : BitVec 14) (coef : Nat) : Unpacked :=
  { sign := sign, cls := finiteClass coef, large := large, bexp := bexp,
    exp := (bexp.toNat : Int) - Config.bias, coef := coef }

/-- The record of a special word: the bits below `W[122]` are ignored (R211). -/
def unpackSpecial (sign : Bool) (cls : ValueClass) : Unpacked :=
  { sign := sign, cls := cls, large := false, bexp := 0, exp := 0, coef := 0 }

/-- `Unpack(W)` (R211). -/
def unpack (w : QWord) : Unpacked :=
  if combination w = 0b11110 then unpackSpecial (signBit w) .inf
  else if combination w = 0b11111 then unpackSpecial (signBit w) .nan
  else if w.extractLsb' 125 2 = 0b11 then
    unpackFinite (signBit w) true (w.extractLsb' 111 14) (2 ^ 113 + (w.extractLsb' 0 111).toNat)
  else unpackFinite (signBit w) false (w.extractLsb' 113 14) (w.extractLsb' 0 113).toNat

/-- DEC_INFO: SIGN 0, CLASS 2:1, LARGE 3, BEXP 29:16, the rest 0 (spec/10_state.md R36). -/
def decInfoWord (u : Unpacked) : Word :=
  0#2 ++ u.bexp ++ 0#12 ++ BitVec.ofBool u.large ++ classCode u.cls ++ BitVec.ofBool u.sign

/-- DEC_EXP: the unbiased exponent in two's complement; a special word's is 0 (R210, spec/10_state.md R37). -/
def decExpWord (u : Unpacked) : Word :=
  match u.cls with
  | .finite | .noncanon => BitVec.ofInt 32 u.exp
  | .inf | .nan => 0

/-- Y: the unpacked coefficient, canonical or not; a special word's is 0 (R210, spec/10_state.md R34). -/
def coefficientWord (u : Unpacked) : QWord :=
  match u.cls with
  | .finite | .noncanon => BitVec.ofNat 128 u.coef
  | .inf | .nan => 0

/-- DECODE (R210). -/
def execDecode (s : State) : Host.Outcome State Fault Refusal :=
  .next (complete
    ((s.setDecoded (decInfoWord (unpack s.x)) (decExpWord (unpack s.x))).setY (coefficientWord (unpack s.x))))

end Sys2Proof.Machine
end

