-- ==== Sys2Proof/Machine/Stringify.lean ====
section
/-! DEFINITION. The stringifier (spec/43_decoder_stringifier.md R222 to R231) and TOSTR (R220). -/

namespace Sys2Proof.Machine

/-- The scientific exponent `sci = n - 1 + e` of `n` digits at exponent `e` (R224). -/
def scientificExponent (n : Nat) (e : Int) : Int := (n : Int) - 1 + e

/-- Whether R224 chooses the scientific form. -/
def isScientific (n : Nat) (e : Int) : Bool :=
  decide (34 ≤ scientificExponent n e ∨ scientificExponent n e ≤ -7 ∨ 0 < e)

/-- The scientific form (R225). -/
def scientificText (d : List Nat) (sci : Int) : List Byte :=
  digitText (d.take 1) ++ (if 1 < d.length then byteRadix :: digitText (d.drop 1) else []) ++
    [byteE, if 0 ≤ sci then bytePlus else byteMinus] ++ digitText (decDigits sci.natAbs)

/-- The plain form with a radix point, for `e < 0` (R227). -/
def pointText (d : List Nat) (e : Int) : List Byte :=
  let rp := (d.length : Int) + e
  if 0 < rp then digitText (d.take rp.toNat) ++ byteRadix :: digitText (d.drop rp.toNat)
  else [byteZero, byteRadix] ++ List.replicate (-rp).toNat byteZero ++ digitText d

/-- `Format(c, e)` (R224 to R227). -/
def formatFinite (c : Nat) (e : Int) : List Byte :=
  let d := decDigits c
  if isScientific d.length e then scientificText d (scientificExponent d.length e)
  else if e = 0 then digitText d
  else pointText d e

/-- A leading '-' if the sign bit is set, for zero too (R229). -/
def signText (neg : Bool) : List Byte := if neg then [byteMinus] else []

/-- The text of an unpacked word; none if it is non-canonical (R220, R221, R230). -/
def render (u : Unpacked) : Option (List Byte) :=
  match u.cls with
  | .noncanon => none
  | .nan => some textNan
  | .inf => some (signText u.sign ++ textInfinity)
  | .finite => some (signText u.sign ++ formatFinite u.coef u.exp)

/-- A rendering ends the command: its text goes to TXT_OUT, or NONCANON to STATUS (R220, R221). -/
def finishText (s : State) : Option (List Byte) → State
  | none => raiseError s .noncanon .none
  | some text => complete (s.writeOut text)

/-- TOSTR (R220). -/
def execTostr (s : State) : Host.Outcome State Fault Refusal := .next (finishText s (render (unpack s.x)))

end Sys2Proof.Machine
end

