-- ==== Sys2Proof/Machine/Dispatch.lean ====
section
/-! DEFINITION. One arm per command: the completion of the command in progress (spec/30_encoding.md R90). -/

namespace Sys2Proof.Machine

def exec (i : Instr) (s : State) : Host.Outcome State Fault Refusal :=
  match i with
  | .fromstr => Sys2Proof.Machine.execFromstr s
  | .mul64 => Sys2Proof.Machine.execMul64 s
  | .div1e9 => Sys2Proof.Machine.execDiv1e9 s
  | .ltu64 => Sys2Proof.Machine.execLtu64 s
  | .encFin sgn => Sys2Proof.Machine.execEncFin sgn s
  | .encInf sgn => Sys2Proof.Machine.execEncInf sgn s
  | .encNan sgn => Sys2Proof.Machine.execEncNan sgn s
  | .decode => Sys2Proof.Machine.execDecode s
  | .tostr => Sys2Proof.Machine.execTostr s

end Sys2Proof.Machine
end

