-- ==== Sys2Proof/Machine/HostTurn.lean ====
section
/-! DEFINITION. A turn of the host agent: its next bus access, or the start of its next statement (spec/30_encoding.md
R114, R115; spec/20_memory.md R72; log 7). -/

namespace Sys2Proof.Machine

/-- The host's turns still to come in the statement begun. -/
def State.withOps (s : State) (ops : List HostOp) : State := { s with host := { s.host with ops := ops } }

/-- A value read is appended to the observations (R114). -/
def State.observe (s : State) (offset : Nat) (v : Word) : State :=
  { s with host := { s.host with obs := s.host.obs ++ [(offset, v)] } }

/-- A value read is kept by the pseudo-instruction in progress (R115). -/
def State.keep (s : State) (v : Word) : State := { s with host := { s.host with got := s.host.got ++ [v] } }

/-- The oldest value kept is used up. -/
def State.dropKept (s : State) : State := { s with host := { s.host with got := s.host.got.drop 1 } }

/-- `bnz128` ends: if a value kept is nonzero the program goes on at label `l`, else at the next statement (R115). -/
def State.branch (s : State) (l : Nat) : State :=
  { s with
    host := { s.host with
      rest := if s.host.got.any (· != 0) then fromLabel l s.host.program else s.host.rest
      got := [] } }

/-- A read that is observed, then `more` turns. -/
def observedRead (s : State) (offset width : Nat) (more : List HostOp) : Except Fault State :=
  match hostRead s offset width with
  | .error f => .error f
  | .ok (v, t) => .ok ((t.observe offset v).withOps more)

/-- One access at a bus address; an address outside the window is none of the block's (log 8). -/
def busTurn (s : State) (dir : Dir) (address width : Nat) (v : Word) (more : List HostOp) : Except Fault State :=
  match windowOffset address with
  | none => .ok (s.withOps more)
  | some offset =>
    match dir with
    | .read => observedRead s offset width more
    | .write =>
      match hostWrite s offset width v with
      | .error f => .error f
      | .ok t => .ok (t.withOps more)

/-- One turn of a statement begun, `more` being the turns after it (R115). -/
def runOp (s : State) (op : HostOp) (more : List HostOp) : Except Fault State :=
  match op with
  | .write offset v =>
    match hostWrite s offset 32 v with
    | .error f => .error f
    | .ok t => .ok (t.withOps more)
  | .read offset => observedRead s offset 32 more
  | .readLength =>
    match hostRead s RegName.outLen.offset 32 with
    | .error f => .error f
    | .ok (v, t) => .ok ((t.observe RegName.outLen.offset v).withOps (textReads v ++ more))
  | .poll =>
    match hostRead s RegName.status.offset 32 with
    | .error f => .error f
    | .ok (v, t) => .ok (t.withOps (if busyBit v then .poll :: more else more))
  | .readPrivate offset =>
    match hostRead s offset 32 with
    | .error f => .error f
    | .ok (v, t) => .ok ((t.keep v).withOps more)
  | .writePrivate offset =>
    match hostWrite s offset 32 (s.host.got.headD 0) with
    | .error f => .error f
    | .ok t => .ok (t.dropKept.withOps more)
  | .branchNonzero l => .ok ((s.withOps more).branch l)
  | .bus dir address width v => busTurn s dir address width v more
  | .resetInput => .ok (s.resetInput.withOps more)

/-- The host begins its next statement; a finished host does nothing (log 9). -/
def beginStatement (s : State) : State :=
  match s.host.rest with
  | [] => s
  | stmt :: rest => { s with host := { s.host with rest := rest, ops := stmt.expand } }

/-- The host's turn: the next turn of the statement begun, or the next statement. A fault sets the fault mark (R250,
log 4). -/
def hostTurn (s : State) : State :=
  match s.host.ops with
  | [] => beginStatement s
  | op :: more =>
    match runOp s op more with
    | .error f => s.mark f
    | .ok t => t

/-- A turn of the host while a command is in progress: one turn less until it completes (R290, log 2). -/
def hostTurnBusy (s : State) : State := hostTurn { s with turns := s.turns - 1 }

end Sys2Proof.Machine
end

