-- ==== Sys2Proof/Machine/Step.lean ====
section
/-! DEFINITION. One step of the machine: of the unit or of the host (spec/10_state.md R20, R26; spec/60_exceptions.md
R250). -/

namespace Sys2Proof.Machine

/-- The unit completes the command in progress: it decodes CMD and runs the command; an illegal word completes with
ILLEGAL_CMD (R26, R90, R110). A fault of the command is left as the fault mark (R250). -/
def completeCommand (s : State) : Host.Outcome State Fault Refusal :=
  match fetchCommand s with
  | .ok i => markFault s (exec i s)
  | .error _ => .next (completeIllegal s)

/-- One step. A state with a fault mark takes no step (R250). With a command in progress, the unit completes it when the
turns drawn for its latency are used up, and until then the host moves (R290, log 2). With none, the host moves. -/
def step (s : State) : Host.Outcome State Fault Refusal :=
  match s.fault with
  | some f => .fault f
  | none =>
    if busyBit s.status then
      if s.turns = 0 then completeCommand s else .next (hostTurnBusy s)
    else .next (hostTurn s)

/-- `s` with the table row's command word accepted and about to complete: in CMD, STATUS as acceptance leaves it, and no
host turn before the completion (log 9). -/
def State.withFetchWord (s : State) (nbits w : Nat) : State :=
  { s with cmd := tableWord nbits w, status := statusAccepted, turns := 0, fault := none }

end Sys2Proof.Machine
end

