-- ==== Sys2Proof/WellFormed.lean ====
section
/-! DEFINITION. What the types of Syntax and HostProgram leave to be checked. Every `Instr` is a legal command, since its
one operand is a Boolean, so its check refuses nothing; the checks that refuse are those of host programs. -/

namespace Sys2Proof

/-- Every term of `Instr` is a command of the unit: SGN is the only operand, and ENC.NAN accepts both values
(spec/30_encoding.md R93, R94). -/
def Instr.wellFormed : Instr → Bool
  | .fromstr | .mul64 | .div1e9 | .ltu64 | .encFin _ | .encInf _ | .encNan _ | .decode | .tostr => true

namespace Machine

/-- A word a `rd` may name: a register, or an aligned word of a buffer (spec/30_encoding.md R114, spec/20_memory.md
R65). -/
def Place.wellFormed : Place → Bool
  | .reg _ => true
  | .txtOut k => k % 4 == 0 && k < Config.txtOutSize
  | .txtIn k => k % 4 == 0 && k < Config.txtInSize

/-- A word a `wr` may name: a register or a buffer word of TXT_IN (spec/30_encoding.md R114). -/
def Place.writeTarget : Place → Bool
  | .reg _ => true
  | .txtOut _ => false
  | .txtIn _ => true

/-- The labels a program defines. -/
def labelsOf : List HostStmt → List Nat
  | [] => []
  | .label l :: rest => l :: labelsOf rest
  | _ :: rest => labelsOf rest

/-- A statement of a program whose labels are `labels` (spec/30_encoding.md R113 to R115): the words it names exist,
`cmd` takes a mnemonic of R113 (which has one `ENC.NAN`), a text fits TXT_IN, and a branch's label exists. -/
def HostStmt.wellFormed (labels : List Nat) : HostStmt → Bool
  | .wr p _ => p.wellFormed && p.writeTarget
  | .rd p => p.wellFormed
  | .cmd i => i.wellFormed && decide (i ≠ .encNan true)
  | .wrtext text => text.length ≤ Config.txtInSize
  | .bnz128 l => labels.contains l
  | .bus _ _ _ _ => true
  | .wait | .wr64 _ _ | .wr128 _ | .rd128 _ | .rdtext | .label _ | .mov128 | .reset => true

/-- A host program: every statement is well formed, and no label is defined twice. -/
def programWellFormed (program : List HostStmt) : Bool :=
  program.all (HostStmt.wellFormed (labelsOf program)) && decide (labelsOf program).Nodup

end Machine
end Sys2Proof
end

