-- ==== Sys2Proof/Safety.lean ====
section
/-! DEFINITION. The terms claims are stated in: how a command ends, what a command may touch, the accepted language of
FROMSTR, the unmapped offsets, and the invariant of the machine. -/

namespace Sys2Proof.Machine

/-! ## How a command ends -/

/-- Every register but those listed, every byte of both buffers with its written bit, and everything of the model's own
are as before. -/
def SameBut (s t : State) (written : List RegName) : Prop :=
  (∀ r, r ∉ written → t.reg r = s.reg r) ∧ (∀ a, t.mem.read a = s.mem.read a) ∧
    t.fault = s.fault ∧ t.host = s.host ∧ t.turns = s.turns ∧ t.draws = s.draws

/-- The command ended without error (spec/10_state.md R26): BUSY 0, DONE 1, and ERR, ECODE and ESUB as acceptance left
them, so that STATUS goes from 0x1 to 0x2. -/
def Succeeded (s t : State) : Prop :=
  busyBit t.status = false ∧ doneBit t.status = true ∧ errBit t.status = errBit s.status ∧
    ecodeField t.status = ecodeField s.status ∧ esubField t.status = esubField s.status ∧
    (s.status = 0x1#32 → t.status = 0x2#32)

/-- `s` after `raise Error(code, sub)` (spec/60_exceptions.md R242): STATUS is `0x2 | 0x4 | code<<4 | sub<<8`, and nothing
else changes. -/
def afterError (s : State) (code sub : Nat) : State :=
  { s with status := BitVec.ofNat 32 (0x2 + 0x4 + 16 * code + 256 * sub) }

/-- The input text is `text`: TXT_LEN is its length and its bytes stand, written, in TXT_IN (spec/10_state.md R32, R39). -/
def State.HoldsText (s : State) (text : List Byte) : Prop :=
  s.textLength = text.length ∧ ∀ k, k < text.length → s.inputByte k = text[k]?

/-- The output text is `text`: OUT_LEN is its length, its bytes stand in TXT_OUT, and the rest of TXT_OUT is 0x00
(spec/43_decoder_stringifier.md R222). -/
def State.ShowsText (s : State) (text : List Byte) : Prop :=
  s.outLen.toNat = text.length ∧ ∀ k, k < 64 → s.outputByte k = some (text.getD k 0)

/-- A state an observation may end in. That it has no fault mark is the spec's (spec/60_exceptions.md R250: a marked state
is never one). That it also has no command in progress and the host's program done is the model's: the spec says no more
of where an observation ends (DESIGN CHOICE, log 20). -/
def State.Settled (s : State) : Prop :=
  s.fault = none ∧ busyBit s.status = false ∧ s.host.ops = [] ∧ s.host.rest = []

/-! ## What a command reads and writes -/

/-- The two states agree on what the command reads (spec/10_state.md R44). -/
def AgreeOnReads (i : Instr) (s u : State) : Prop :=
  match i with
  | .fromstr => s.txtLen = u.txtLen ∧ ∀ k, k < s.textLength → s.textLength < 7000 → s.inputByte k = u.inputByte k
  | .mul64 | .ltu64 => s.opa = u.opa ∧ s.opb = u.opb
  | .div1e9 | .decode | .tostr => s.x = u.x
  | .encFin _ => s.opa = u.opa ∧ s.opb = u.opb ∧ s.expIn = u.expIn
  | .encInf _ | .encNan _ => True

/-- The two states agree on what the command writes on success (spec/10_state.md R44). -/
def AgreeOnResults (i : Instr) (s u : State) : Prop :=
  match i with
  | .fromstr | .encFin _ | .encInf _ | .encNan _ => s.x = u.x
  | .mul64 => s.y = u.y
  | .div1e9 => s.y = u.y ∧ s.aux = u.aux
  | .ltu64 => s.aux = u.aux
  | .decode => s.y = u.y ∧ s.decInfo = u.decInfo ∧ s.decExp = u.decExp
  | .tostr => s.outLen = u.outLen ∧ ∀ k, k < 64 → s.outputByte k = u.outputByte k

/-- The registers the command writes on success, STATUS among them (spec/10_state.md R44). -/
def resultRegs : Instr → List RegName
  | .fromstr | .encFin _ | .encInf _ | .encNan _ => [.status, .x0, .x1, .x2, .x3]
  | .mul64 => [.status, .y0, .y1, .y2, .y3]
  | .div1e9 => [.status, .y0, .y1, .y2, .y3, .aux]
  | .ltu64 => [.status, .aux]
  | .decode => [.status, .y0, .y1, .y2, .y3, .decInfo, .decExp]
  | .tostr => [.status, .outLen]

/-! ## The address map -/

/-- The unmapped offsets of the window (spec/20_memory.md R66). -/
def Unmapped (offset : Nat) : Prop :=
  (0x050 ≤ offset ∧ offset ≤ 0x0FF) ∨ (0x140 ≤ offset ∧ offset ≤ 0x1FFF) ∨ (0x3B58 ≤ offset ∧ offset ≤ 0x3FFF)

/-- An illegal access of the window (spec/20_memory.md R65). -/
def IllegalAccess (offset width : Nat) : Prop := width ≠ 32 ∨ offset % 4 ≠ 0 ∨ Unmapped offset

/-! ## The accepted language (spec/40_parse_normalize.md R123) -/

/-- `digit*` -/
def Digits (t : List Byte) : Prop := ∀ b ∈ t, 0x30 ≤ b.toNat ∧ b.toNat ≤ 0x39

/-- `[sign]` -/
def SignText (t : List Byte) : Prop := t = [] ∨ t = [0x2B] ∨ t = [0x2D]

/-- `ci("infinity") | ci("inf") | ci("nan")` -/
def SpecialText (t : List Byte) : Prop :=
  t.map foldByte = [0x69, 0x6E, 0x66, 0x69, 0x6E, 0x69, 0x74, 0x79] ∨
    t.map foldByte = [0x69, 0x6E, 0x66] ∨ t.map foldByte = [0x6E, 0x61, 0x6E]

/-- `mantissa ::= digit+ [ "." digit* ] | "." digit+` -/
def MantissaText (t : List Byte) : Prop :=
  ∃ a b, Digits a ∧ Digits b ∧ ((a ≠ [] ∧ (t = a ∨ t = a ++ 0x2E :: b)) ∨ (b ≠ [] ∧ t = 0x2E :: b))

/-- `[ ("E" | "e") [sign] digit+ ]` -/
def ExponentText (t : List Byte) : Prop :=
  t = [] ∨ ∃ m sg ds, (m = 0x45 ∨ m = 0x65) ∧ SignText sg ∧ Digits ds ∧ ds ≠ [] ∧ t = m :: (sg ++ ds)

/-- `input ::= [sign] ( special | numeral )` -/
def AcceptedText (t : List Byte) : Prop :=
  ∃ sg body, SignText sg ∧ t = sg ++ body ∧
    (SpecialText body ∨ ∃ m e, MantissaText m ∧ ExponentText e ∧ body = m ++ e)

/-! ## The sub-codes of a text outside the language (spec/40_parse_normalize.md R124, R126) -/

/-- The text goes on with a byte of which `p` holds. -/
def LedBy (p : Byte → Prop) (t : List Byte) : Prop := ∃ b rest, t = b :: rest ∧ p b

/-- '0' to '9' (R122). -/
def DigitByte (b : Byte) : Prop := 0x30 ≤ b.toNat ∧ b.toNat ≤ 0x39

/-- '+' or '-' (R122). -/
def SignByte (b : Byte) : Prop := b = 0x2B ∨ b = 0x2D

/-- 'E' or 'e' (R122). -/
def MarkerByte (b : Byte) : Prop := b = 0x45 ∨ b = 0x65

/-- The checks of R124 after the mantissa, `run` being the digits and radix points it read and `tail` the text after them,
in program order: the first that fails gives the sub-code of R241. -/
def FirstFailure (run tail : List Byte) (sub : Nat) : Prop :=
  if 2 ≤ run.count 0x2E then sub = 2
  else
    (LedBy MarkerByte tail ∧ (∀ b ∈ run, ¬ DigitByte b) ∧ sub = 4) ∨
    (∃ m es rest, tail = m :: (es ++ rest) ∧ MarkerByte m ∧ SignText es ∧ (es = [] → ¬ LedBy SignByte rest) ∧
      (∃ b ∈ run, DigitByte b) ∧
        ((¬ LedBy DigitByte rest ∧ sub = 3) ∨
          ∃ ds after, rest = ds ++ after ∧ Digits ds ∧ ds ≠ [] ∧ ¬ LedBy DigitByte after ∧ after ≠ [] ∧ sub = 5)) ∨
    (tail ≠ [] ∧ ¬ LedBy MarkerByte tail ∧ sub = 5) ∨
    (tail = [] ∧ (∀ b ∈ run, ¬ DigitByte b) ∧ sub = 1)

/-- The text fails `Parse` with the sub-code: after its sign it is no special word, and cut into the longest run of digits
and radix points and the rest, its first failing check is that of the sub-code. -/
def MalformedAs (t : List Byte) (sub : Nat) : Prop :=
  ∃ sg run tail, SignText sg ∧ t = sg ++ (run ++ tail) ∧ (sg = [] → ¬ LedBy SignByte (run ++ tail)) ∧
    ¬ SpecialText (run ++ tail) ∧ (∀ b ∈ run, DigitByte b ∨ b = 0x2E) ∧
    ¬ LedBy (fun b => DigitByte b ∨ b = 0x2E) tail ∧ FirstFailure run tail sub

/-! ## The text of a finite value (spec/43_decoder_stringifier.md R223 to R227) -/

/-- `dec(n)`: the digits of `n` in ASCII, most significant first, without a leading zero, and "0" for 0 (R223). -/
def DecimalText (n : Nat) (d : List Byte) : Prop :=
  Digits d ∧ d ≠ [] ∧ intOf (d.map (fun b => b.toNat - 0x30)) = n ∧ (d.head? = some 0x30 → d = [0x30])

/-- `text` is `Format(c, e)`: the notation of R224, the scientific form of R225, the plain integer of R226, the plain form
with a radix point of R227. -/
def FormattedAs (c : Nat) (e : Int) (text : List Byte) : Prop :=
  ∃ d, DecimalText c d ∧
    let n := d.length
    let sci : Int := (n : Int) - 1 + e
    if 34 ≤ sci ∨ sci ≤ -7 ∨ 0 < e then
      ∃ x, DecimalText sci.natAbs x ∧
        text = d.take 1 ++ (if 1 < n then 0x2E :: d.drop 1 else []) ++ [0x45, if 0 ≤ sci then 0x2B else 0x2D] ++ x
    else if e = 0 then text = d
    else
      let rp : Int := (n : Int) + e
      if 0 < rp then text = d.take rp.toNat ++ 0x2E :: d.drop rp.toNat
      else text = [0x30, 0x2E] ++ List.replicate (-rp).toNat 0x30 ++ d

/-! ## The invariant -/

/-- A value STATUS can hold (spec/10_state.md R25, R26; spec/60_exceptions.md R240, R241): reset, in progress, done, or done
with one of the errors, ESUB being nonzero only with MALFORMED. -/
def LegalStatus (st : Word) : Prop :=
  st = 0x0#32 ∨ st = 0x1#32 ∨ st = 0x2#32 ∨
    (∃ code, (code = 1 ∨ code = 2 ∨ code = 4 ∨ code = 5 ∨ code = 6) ∧ st = BitVec.ofNat 32 (0x6 + 16 * code)) ∨
    ∃ sub, 1 ≤ sub ∧ sub ≤ 5 ∧ st = BitVec.ofNat 32 (0x36 + 256 * sub)

/-- What every step keeps: the buffers' memory is canonical and lists bytes of the two buffers only; TXT_OUT is written
whole or not at all, and has a length of at most 42 exactly when it is; TXT_IN is written in words (R272); STATUS is
legal; no turns are left without a command in progress; AUX is a remainder or a truth value (R35); the reserved bits of
DEC_INFO are 0 (R36, R43). -/
structure State.Inv (s : State) : Prop where
  canonical : s.mem.wf = true
  inBuffers : ∀ a, s.mem.read a ≠ none → (0x100 ≤ a ∧ a ≤ 0x13F) ∨ (0x2000 ≤ a ∧ a ≤ 0x3B57)
  outWhole : ∀ k, k < 64 → (s.outputByte k).isSome = (s.outputByte 0).isSome
  outLength : s.outLen.toNat ≤ 42 ∧ ((s.outputByte 0).isSome ↔ s.outLen ≠ 0)
  inWords : ∀ k, k < 7000 → (s.inputByte k).isSome = (s.inputByte (4 * (k / 4))).isSome
  status : LegalStatus s.status
  idle : busyBit s.status = false → s.turns = 0
  aux : s.aux.toNat < 1000000000
  decInfo : s.decInfo &&& 0xC000FFF0#32 = 0

end Sys2Proof.Machine
end

