-- ==== Sys2Proof/Certificates/Slice0/Obligations.lean ====
section
/-! DEFINITION. The statements for the provers. Each docstring names the rule of spec/ it formalises. -/

open Sys2Proof Sys2Proof.Machine

/-! ## Encoding -/

/-- R113: the command word the assembler emits for each mnemonic of the table; each decodes to its command, and
0x00000505 is ENC.NAN too and behaves identically. -/
def Obligations.AssembledWordsOfTheTable : Prop :=
  assembledWord .fromstr = 0x00000001#32 ∧ assembledWord .mul64 = 0x00000002#32 ∧
  assembledWord .div1e9 = 0x00000003#32 ∧ assembledWord .ltu64 = 0x00000004#32 ∧
  assembledWord (.encFin false) = 0x00000005#32 ∧ assembledWord (.encFin true) = 0x00000105#32 ∧
  assembledWord (.encInf false) = 0x00000205#32 ∧ assembledWord (.encInf true) = 0x00000305#32 ∧
  (∀ sgn, assembledWord (.encNan sgn) = 0x00000405#32) ∧
  assembledWord .decode = 0x00000006#32 ∧ assembledWord .tostr = 0x00000007#32 ∧
  decodeTableWord 32 0x00000001 = some .fromstr ∧ decodeTableWord 32 0x00000002 = some .mul64 ∧
  decodeTableWord 32 0x00000003 = some .div1e9 ∧ decodeTableWord 32 0x00000004 = some .ltu64 ∧
  decodeTableWord 32 0x00000005 = some (.encFin false) ∧ decodeTableWord 32 0x00000105 = some (.encFin true) ∧
  decodeTableWord 32 0x00000205 = some (.encInf false) ∧ decodeTableWord 32 0x00000305 = some (.encInf true) ∧
  decodeTableWord 32 0x00000405 = some (.encNan false) ∧ decodeTableWord 32 0x00000505 = some (.encNan true) ∧
  decodeTableWord 32 0x00000006 = some .decode ∧ decodeTableWord 32 0x00000007 = some .tostr ∧
  ∀ s, exec (.encNan true) s = exec (.encNan false) s

/-- R90 to R93: decoding and encoding are inverse. For every well-formed instruction, its encoding decodes to it, and no
other 32-bit word does. -/
def Obligations.DecodeInvertsEncode : Prop :=
  ∀ (i : Instr), i.wellFormed = true → ∀ w : Word, decode w = .ok i ↔ w = encode i

/-- R110: a word is refused in exactly the four cases of the rule. The step that completes such a word leaves STATUS at
DONE, ERR and ECODE 1, and changes nothing else: CMD still holds the word. -/
def Obligations.IllegalWordCompletesWithError : Prop :=
  ∀ w : Word,
    ((∃ e, decode w = .error e) ↔
      ((w.extractLsb' 0 8).toNat = 0 ∨ 8 ≤ (w.extractLsb' 0 8).toNat) ∨ w.extractLsb' 11 21 ≠ 0 ∨
        (w.extractLsb' 0 8 ≠ 5 ∧ w.extractLsb' 8 3 ≠ 0) ∨ (w.extractLsb' 0 8 = 5 ∧ w.extractLsb' 9 2 = 3)) ∧
    ((∃ e, decode w = .error e) → ∀ s : State, s.fault = none → busyBit s.status = true → s.turns = 0 → s.cmd = w →
      step s = .next { s with status := 0x16#32 })

/-! ## Steps -/

/-- R26, R90, R250: with a command in progress whose latency is used up and a word in CMD that decodes to a well-formed
instruction, the step is `exec` of it at that state: its next state, or, where the command faults, the same state with the
fault mark set. -/
def Obligations.StepRunsTheDecodedCommand : Prop :=
  ∀ (s : State) (i : Instr), s.fault = none → busyBit s.status = true → s.turns = 0 → decode s.cmd = .ok i →
    i.wellFormed = true →
      (∀ t, exec i s = .next t → step s = .next t) ∧
        (∀ f, exec i s = .fault f → step s = .next { s with fault := some f })

/-- R250: a state with a fault mark takes no further step, and is no state an observation may end in. (What else such a
state must be, `State.Settled`, is the model's choice: log 20.) -/
def Obligations.MarkedStateTakesNoStep : Prop :=
  ∀ (s : State) (f : Fault), s.fault = some f → step s = .fault f ∧ ¬ s.Settled

/-- R24, R26, R90: a host write of any word to CMD while no command is in progress stores the word as written, sets
BUSY and clears DONE, ERR, ECODE and ESUB, and changes no other register and no buffer byte. -/
def Obligations.CommandAcceptance : Prop :=
  ∀ (s : State) (w : Word), busyBit s.status = false →
    ∃ t, hostWrite s 0x000 32 w = .ok t ∧ t.cmd = w ∧ t.status = 0x1#32 ∧
      (∀ r, r ≠ .cmd → r ≠ .status → t.reg r = s.reg r) ∧ (∀ a, t.mem.read a = s.mem.read a) ∧
      t.fault = s.fault ∧ t.host = s.host

/-- R290 (the model's reading of the latency, log 2): once the host has nothing left to do, a command in progress
completes after its turns are used up, with the result its meaning gives. -/
def Obligations.CommandCompletesInBoundedTime : Prop :=
  ∀ (s t : State) (i : Instr), s.fault = none → busyBit s.status = true → s.host.ops = [] → s.host.rest = [] →
    decode s.cmd = .ok i → exec i { s with turns := 0 } = .next t →
      Host.Core.run Sys2Proof.core (s.turns + 1) s = .next t

/-- R259: between commands, with nothing for the host to do, the block is idle and every register keeps its value. That
such a state is where an observation may end, and that it steps to itself, are the model's choices (log 20, log 9). -/
def Obligations.IdleBlockKeepsItsState : Prop :=
  ∀ s : State, s.Settled → step s = .next s

/-! ## Host accesses -/

/-- R65, R66, R251: an access of the window, made in the host's turn, sets the fault mark to BusError of that offset,
width and direction exactly when it is illegal: another width, an offset not a multiple of 4, or an unmapped offset. That
an illegal write made while a command is in progress is a BusError and no HostHazard is the model's choice (log 5). -/
def Obligations.IllegalAccessIsBusError : Prop :=
  ∀ (s : State) (dir : Dir) (offset width : Nat) (v : Word) (more : List HostOp),
    offset < 0x4000 → s.fault = none → (busyBit s.status = true → s.turns ≠ 0) →
    s.host.ops = .bus dir (Config.codecBase + offset) width v :: more →
      ∃ t, step s = .next t ∧ (t.fault = some (.busError offset width dir) ↔ IllegalAccess offset width)

/-- R280: a host write of a legal word while a command is in progress sets the fault mark to HostHazard. That a write to an
RO register or to TXT_OUT is such a hazard too, and is not ignored as R43 says of an idle block, is the model's choice
(log 5); so is that no register and no buffer byte changes in the step that sets the mark (log 4). -/
def Obligations.WriteWhileBusyIsHazard : Prop :=
  ∀ (s : State) (offset : Nat) (v : Word) (more : List HostOp),
    offset < 0x4000 → ¬ IllegalAccess offset 32 → s.fault = none → busyBit s.status = true → s.turns ≠ 0 →
    s.host.ops = .write offset v :: more →
      ∃ t, step s = .next t ∧ t.fault = some (.hostHazard offset) ∧ (∀ r, t.reg r = s.reg r) ∧
        (∀ a, t.mem.read a = s.mem.read a)

/-- R43: a host write to an RO register or to TXT_OUT is ignored and changes no state. -/
def Obligations.ReadOnlyWritesAreIgnored : Prop :=
  ∀ (s : State) (offset : Nat) (v : Word), busyBit s.status = false → offset % 4 = 0 →
    (offset = 0x004 ∨ (0x030 ≤ offset ∧ offset ≤ 0x04C) ∨ (0x100 ≤ offset ∧ offset ≤ 0x13C)) →
      hostWrite s offset 32 v = .ok s

/-- R68: while no command is in progress, a legal host read changes nothing and repeating it returns the same value; a
host write to an RW register other than CMD stores the value and does nothing else. A read while a command is in progress
changes no register, buffer byte or flag. A write to CMD issues the command, and repeating it is a host hazard. -/
def Obligations.HostAccessEffects : Prop :=
  (∀ (s t : State) (offset : Nat) (v : Word), hostRead s offset 32 = .ok (v, t) →
    (busyBit s.status = false → t = s ∧ hostRead t offset 32 = .ok (v, t)) ∧
    (∀ r, t.reg r = s.reg r) ∧ (∀ a, t.mem.read a = s.mem.read a) ∧ t.fault = s.fault) ∧
  (∀ (s : State) (r : RegName) (v : Word), busyBit s.status = false → r.writable = true → r ≠ .cmd →
    ∃ t, hostWrite s r.offset 32 v = .ok t ∧ t.reg r = v ∧ SameBut s t [r] ∧ hostRead t r.offset 32 = .ok (v, t)) ∧
  (∀ (s : State) (w w' : Word), busyBit s.status = false →
    ∃ t, hostWrite s 0x000 32 w = .ok t ∧ t.cmd = w ∧ busyBit t.status = true ∧
      hostWrite t 0x000 32 w' = .error (.hostHazard 0x000))

/-- R61, R63, R272: a host write of the TXT_IN word at offset `0x2000 + 4m` writes its four bytes, byte `4m` in bits 7..0
and byte `4m + 3` in bits 31..24, and nothing else; reading the word returns it. -/
def Obligations.TextWordsAreLittleEndian : Prop :=
  ∀ (s : State) (m : Nat) (v : Word), busyBit s.status = false → m < 1750 →
    ∃ t, hostWrite s (0x2000 + 4 * m) 32 v = .ok t ∧
      t.inputByte (4 * m) = some (v.extractLsb' 0 8) ∧ t.inputByte (4 * m + 1) = some (v.extractLsb' 8 8) ∧
      t.inputByte (4 * m + 2) = some (v.extractLsb' 16 8) ∧ t.inputByte (4 * m + 3) = some (v.extractLsb' 24 8) ∧
      (∀ a, (a < 0x2000 + 4 * m ∨ 0x2000 + 4 * m + 4 ≤ a) → t.mem.read a = s.mem.read a) ∧
      (∀ r, t.reg r = s.reg r) ∧ hostRead t (0x2000 + 4 * m) 32 = .ok (v, t)

/-- R62: the 16 bytes of the interchange value sit at offsets 0x020..0x02F in order, least significant first. -/
def Obligations.InterchangeBytesInOrder : Prop :=
  ∀ (s : State) (k : Nat), busyBit s.status = false → k < 16 →
    ∃ v, hostRead s (0x020 + 4 * (k / 4)) 32 = .ok (v, s) ∧ v.extractLsb' (8 * (k % 4)) 8 = s.x.extractLsb' (8 * k) 8

/-- R281: while a command is in progress, every legal read completes; a read of STATUS, CMD, TXT_LEN, EXP_IN, OPA, OPB and
of every other register the command does not write returns its value, and so do reads of written TXT_IN words and, unless
the command is TOSTR, of written TXT_OUT words. An illegal word writes no register but STATUS (R110): while one is in
progress, every register returns its value. -/
def Obligations.ReadsWhileBusyOfStableState : Prop :=
  ∀ s : State, busyBit s.status = true →
    (∀ offset, offset < 0x4000 → ¬ IllegalAccess offset 32 → ∃ v t, hostRead s offset 32 = .ok (v, t)) ∧
    (∀ r, (r = .status ∨ (∃ i, decode s.cmd = .ok i ∧ r ∉ resultRegs i) ∨ ∃ e, decode s.cmd = .error e) →
      ∃ t, hostRead s r.offset 32 = .ok (s.reg r, t)) ∧
    (∀ m b0 b1 b2 b3, m < 1750 → s.inputByte (4 * m) = some b0 → s.inputByte (4 * m + 1) = some b1 →
      s.inputByte (4 * m + 2) = some b2 → s.inputByte (4 * m + 3) = some b3 →
      ∃ t, hostRead s (0x2000 + 4 * m) 32 = .ok (b3 ++ b2 ++ b1 ++ b0, t)) ∧
    (decode s.cmd ≠ .ok .tostr → ∀ m b0 b1 b2 b3, m < 16 → s.outputByte (4 * m) = some b0 →
      s.outputByte (4 * m + 1) = some b1 → s.outputByte (4 * m + 2) = some b2 → s.outputByte (4 * m + 3) = some b3 →
      ∃ t, hostRead s (0x100 + 4 * m) 32 = .ok (b3 ++ b2 ++ b1 ++ b0, t))

/-- R115 (`wait`): a turn of polling ends the wait exactly when BUSY is 0, and changes no register, buffer byte or
observation. -/
def Obligations.WaitPollsUntilIdle : Prop :=
  ∀ (s : State) (more : List HostOp), s.host.ops = .poll :: more →
    (busyBit s.status = false → hostTurn s = { s with host := { s.host with ops := more } }) ∧
    (busyBit s.status = true → hostTurn s = { s with draws := s.draws + 1 })

/-- R115 (`wrtext`): on an idle block, the statement's turns leave the text in TXT_IN and its length in TXT_LEN, and
change no other register. -/
def Obligations.WriteTextPlacesTheText : Prop :=
  ∀ (s : State) (text : List Byte) (rest : List HostStmt), busyBit s.status = false → text.length ≤ 7000 →
    s.host.ops = [] → s.host.rest = .wrtext text :: rest →
      ∃ n, (hostTurn^[n] s).HoldsText text ∧ (hostTurn^[n] s).host.ops = [] ∧ (hostTurn^[n] s).host.rest = rest ∧
        (∀ r, r ≠ .txtLen → (hostTurn^[n] s).reg r = s.reg r) ∧ (hostTurn^[n] s).fault = s.fault

/-- R115 (`mov128 X, Y`): on an idle block, the statement's eight accesses leave the value of Y in X and change no other
register and no observation. -/
def Obligations.MoveCopiesResultToOperand : Prop :=
  ∀ (s : State) (rest : List HostStmt), busyBit s.status = false → s.host.ops = [] → s.host.got = [] →
    s.host.rest = .mov128 :: rest →
      (hostTurn^[9] s).x = s.y ∧ (∀ r, r ∉ [RegName.x0, .x1, .x2, .x3] → (hostTurn^[9] s).reg r = s.reg r) ∧
      (hostTurn^[9] s).host = { s.host with rest := rest } ∧ (hostTurn^[9] s).fault = s.fault

/-- R115 (`bnz128 Y, L`): on an idle block, the program goes on at the label if Y is not 0, else at the next statement;
no register changes and nothing is observed. -/
def Obligations.BranchIfResultNonzero : Prop :=
  ∀ (s : State) (l : Nat) (rest : List HostStmt), busyBit s.status = false → s.host.ops = [] → s.host.got = [] →
    s.host.rest = .bnz128 l :: rest →
      (hostTurn^[6] s).host =
        { s.host with rest := if s.y = 0 then rest else fromLabel l s.host.program } ∧
      (∀ r, (hostTurn^[6] s).reg r = s.reg r) ∧ (hostTurn^[6] s).fault = s.fault

/-! ## Reset -/

/-- R270: after reset every register reads 0, both buffers are unwritten, no command is in progress and the fault mark is
none. -/
def Obligations.ResetValues : Prop :=
  (∀ r, State.reset.reg r = 0) ∧ (∀ k, State.reset.inputByte k = none) ∧ (∀ k, State.reset.outputByte k = none) ∧
    busyBit State.reset.status = false ∧ State.reset.fault = none

/-- R273: a reset while a command is in progress abandons it: no result is written, and every register and buffer is in
the reset state. -/
def Obligations.ResetAbandonsTheCommand : Prop :=
  ∀ (s : State) (more : List HostOp), s.fault = none → busyBit s.status = true → s.turns ≠ 0 →
    s.host.ops = .resetInput :: more →
      ∃ t, step s = .next t ∧ (∀ r, t.reg r = State.reset.reg r) ∧ (∀ a, t.mem.read a = none) ∧ t.fault = none ∧
        t.turns = 0

/-- R271: DECODE straight after reset reports class FINITE, and TOSTR writes "0E-6176". -/
def Obligations.ResetWordIsZero : Prop :=
  (∃ t, exec .decode State.reset = .next t ∧ t.decInfo.extractLsb' 1 2 = 0 ∧ t.y = 0) ∧
    ∃ t, exec .tostr State.reset = .next t ∧ t.ShowsText [0x30, 0x45, 0x2D, 0x36, 0x31, 0x37, 0x36]

/-! ## MUL64, DIV1E9, LTU64 -/

/-- R170: the word 0x00000002 is MUL64. It completes, writes the exact 128-bit product of OPA and OPB to Y, and changes nothing else but STATUS. -/
def Obligations.Mul64WritesTheProduct : Prop :=
  decode 0x00000002#32 = .ok .mul64 ∧ ∀ s : State, ∃ t, exec .mul64 s = .next t ∧ t.y.toNat = s.opa.toNat * s.opb.toNat ∧ Succeeded s t ∧
    SameBut s t [.status, .y0, .y1, .y2, .y3]

/-- R171: four 32 by 32 partial products and three additions give the words MUL64 writes. -/
def Obligations.Mul64ByPartialProducts : Prop :=
  ∀ s t : State, exec .mul64 s = .next t →
    let p0 := s.opaLo.toNat * s.opbLo.toNat
    let p1 := s.opaLo.toNat * s.opbHi.toNat
    let p2 := s.opaHi.toNat * s.opbLo.toNat
    let p3 := s.opaHi.toNat * s.opbHi.toNat
    let mid := p0 / 2 ^ 32 + p1 % 2 ^ 32 + p2 % 2 ^ 32
    (t.y.extractLsb' 0 64).toNat = mid % 2 ^ 32 * 2 ^ 32 + p0 % 2 ^ 32 ∧
      (t.y.extractLsb' 64 64).toNat = p3 + p1 / 2 ^ 32 + p2 / 2 ^ 32 + mid / 2 ^ 32

/-- R172: MUL64 is commutative, by 1 it returns high 0 and low the operand, by 0 it returns 0, and the high word is at
most 0xFFFFFFFFFFFFFFFE. -/
def Obligations.Mul64Laws : Prop :=
  ∀ s u t v : State, exec .mul64 s = .next t → exec .mul64 u = .next v →
    (s.opa = u.opb → s.opb = u.opa → t.y = v.y) ∧
    (s.opb = 1 → (t.y.extractLsb' 64 64) = 0 ∧ t.y.extractLsb' 0 64 = s.opa) ∧
    (s.opb = 0 → t.y = 0) ∧
    (t.y.extractLsb' 64 64).toNat ≤ 0xFFFFFFFFFFFFFFFE

/-- R175: the word 0x00000003 is DIV1E9. It completes, with quotient times 10^9 plus remainder equal to X, the remainder below 10^9 and
`Y[127:99]` 0, and changes nothing else but STATUS. -/
def Obligations.Div1e9WritesQuotientAndRemainder : Prop :=
  decode 0x00000003#32 = .ok .div1e9 ∧ ∀ s : State, ∃ t, exec .div1e9 s = .next t ∧ t.y.toNat * 1000000000 + t.aux.toNat = s.x.toNat ∧
    t.aux.toNat < 1000000000 ∧ t.y.extractLsb' 99 29 = 0 ∧ Succeeded s t ∧
    SameBut s t [.status, .y0, .y1, .y2, .y3, .aux]

/-- R176: long division by limbs, most significant first, gives the words DIV1E9 writes. -/
def Obligations.Div1e9ByLongDivision : Prop :=
  ∀ s t : State, exec .div1e9 s = .next t →
    let cur0 := s.x3.toNat
    let cur1 := cur0 % 1000000000 * 2 ^ 32 + s.x2.toNat
    let cur2 := cur1 % 1000000000 * 2 ^ 32 + s.x1.toNat
    let cur3 := cur2 % 1000000000 * 2 ^ 32 + s.x0.toNat
    t.y3.toNat = cur0 / 1000000000 ∧ t.y2.toNat = cur1 / 1000000000 ∧ t.y1.toNat = cur2 / 1000000000 ∧
      t.y0.toNat = cur3 / 1000000000 ∧ t.aux.toNat = cur3 % 1000000000

/-- R175, issued again as R177 says: four issues of DIV1E9, the quotient put back into X after each, divide by 10^36, so
that they reach 0 exactly from an X below 10^36. (R177's last clause has any X reach 0 in four issues, "since 10^36 >
2^128"; that inequality is false, and the model follows R175: log 19.) -/
def Obligations.FourDivisionsDivideByTenTo36 : Prop :=
  ∀ s1 s2 s3 s4 t1 t2 t3 t4 : State, exec .div1e9 s1 = .next t1 → s2.x = t1.y → exec .div1e9 s2 = .next t2 →
    s3.x = t2.y → exec .div1e9 s3 = .next t3 → s4.x = t3.y → exec .div1e9 s4 = .next t4 →
      t4.y.toNat = s1.x.toNat / 10 ^ 36 ∧ (t4.y = 0 ↔ s1.x.toNat < 10 ^ 36)

/-- R180, R181: the word 0x00000004 is LTU64. It completes and writes 1 to AUX if OPA is below OPB as unsigned integers,
else 0, and that comparison is high word first and then low word; nothing else but STATUS changes. -/
def Obligations.Ltu64ComparesUnsigned : Prop :=
  decode 0x00000004#32 = .ok .ltu64 ∧ ∀ s : State, ∃ t, exec .ltu64 s = .next t ∧
    t.aux = (if s.opa.toNat < s.opb.toNat then 1 else 0) ∧
    (s.opa.toNat < s.opb.toNat ↔
      s.opaHi.toNat < s.opbHi.toNat ∨ (s.opaHi = s.opbHi ∧ s.opaLo.toNat < s.opbLo.toNat)) ∧
    Succeeded s t ∧ SameBut s t [.status, .aux]

/-! ## ENC.FIN, ENC.INF, ENC.NAN -/

/-- R190, R192, R194: with a coefficient of at most MAXCOEF and an exponent in range, or any exponent for a zero
coefficient, ENC.FIN completes; X holds the sign in bit 127, the exponent, clamped for a zero, plus 6176 in bits 126..113
and the coefficient in bits 112..0; nothing else but STATUS changes. -/
def Obligations.EncFinPacksTheValue : Prop :=
  ∀ (s : State) (sgn : Bool),
    let c := s.opa.toNat * 10 ^ 17 + s.opb.toNat
    let e := s.expIn.toInt
    c ≤ 10 ^ 34 - 1 → (c = 0 ∨ (-6176 ≤ e ∧ e ≤ 6111)) →
      ∃ t, exec (.encFin sgn) s = .next t ∧ t.x.getLsbD 127 = sgn ∧
        ((t.x.extractLsb' 113 14).toNat : Int) = max (-6176) (min 6111 e) + 6176 ∧
        (t.x.extractLsb' 0 113).toNat = c ∧ Succeeded s t ∧ SameBut s t [.status, .x0, .x1, .x2, .x3]

/-- R190, R194: ENC.FIN raises RANGE for a coefficient above MAXCOEF, and for a nonzero coefficient with an exponent
outside [-6176, 6111]; nothing but STATUS changes. -/
def Obligations.EncFinRangeErrors : Prop :=
  ∀ (s : State) (sgn : Bool),
    let c := s.opa.toNat * 10 ^ 17 + s.opb.toNat
    let e := s.expIn.toInt
    (10 ^ 34 - 1 < c ∨ (c ≠ 0 ∧ (e < -6176 ∨ 6111 < e))) → exec (.encFin sgn) s = .next (afterError s 5 0)

/-- R196: the words 0x00000205 and 0x00000305 are ENC.INF with sign 0 and 1. It completes and writes the Infinity pattern of its sign to X; nothing else but STATUS changes. -/
def Obligations.EncInfWritesInfinity : Prop :=
  decode 0x00000205#32 = .ok (.encInf false) ∧ decode 0x00000305#32 = .ok (.encInf true) ∧
  ∀ (s : State) (sgn : Bool), ∃ t, exec (.encInf sgn) s = .next t ∧
    t.x = (if sgn then 0xF8000000000000000000000000000000#128 else 0x78000000000000000000000000000000#128) ∧
    Succeeded s t ∧ SameBut s t [.status, .x0, .x1, .x2, .x3]

/-- R197: the words 0x00000405 and 0x00000505 are ENC.NAN with SGN 0 and 1. It completes and writes the NaN pattern to X whatever SGN is; nothing else but STATUS changes. -/
def Obligations.EncNanWritesNan : Prop :=
  decode 0x00000405#32 = .ok (.encNan false) ∧ decode 0x00000505#32 = .ok (.encNan true) ∧
  ∀ (s : State) (sgn : Bool), ∃ t, exec (.encNan sgn) s = .next t ∧
    t.x = 0x7C000000000000000000000000000000#128 ∧ Succeeded s t ∧ SameBut s t [.status, .x0, .x1, .x2, .x3]

/-- R198, third law, through the machine: DECODE of what ENC.FIN wrote reports the sign, class FINITE, the exponent and
the coefficient that were encoded. -/
def Obligations.DecodeInvertsEncFin : Prop :=
  ∀ (s t u v : State) (sgn : Bool),
    let c := s.opa.toNat * 10 ^ 17 + s.opb.toNat
    c ≤ 10 ^ 34 - 1 → -6176 ≤ s.expIn.toInt → s.expIn.toInt ≤ 6111 →
    exec (.encFin sgn) s = .next t → u.x = t.x → exec .decode u = .next v →
      v.decInfo.getLsbD 0 = sgn ∧ v.decInfo.extractLsb' 1 2 = 0 ∧ v.decExp = s.expIn ∧ v.y.toNat = c

/-- R107, R195, R198 second law: a word FROMSTR or ENCODE writes to X is canonical or special, and no finite word it writes
is of the large form. -/
def Obligations.WrittenWordsAreCanonical : Prop :=
  ∀ (i : Instr) (s t : State),
    (i = .fromstr ∨ (∃ sgn, i = .encFin sgn) ∨ (∃ sgn, i = .encInf sgn) ∨ ∃ sgn, i = .encNan sgn) →
    s.status = 0x1#32 → exec i s = .next t → errBit t.status = false →
      (unpack t.x).cls ≠ .noncanon ∧ (t.x.extractLsb' 125 2 = 3 → t.x.extractLsb' 123 2 = 3)

/-! ## DECODE and TOSTR -/

/-- R210: the word 0x00000006 is DECODE. It completes for every word. For Infinity and NaN it reports the class, the raw sign and zeros; for the
large and the small form the sign, the biased exponent and the coefficient of that form, with class NONCANON above
MAXCOEF. Nothing else but STATUS changes. -/
def Obligations.DecodeReportsTheFields : Prop :=
  decode 0x00000006#32 = .ok .decode ∧ ∀ s : State, ∃ t, exec .decode s = .next t ∧ Succeeded s t ∧
    SameBut s t [.status, .y0, .y1, .y2, .y3, .decInfo, .decExp] ∧
    t.decInfo.getLsbD 0 = s.x.getLsbD 127 ∧ t.decInfo.extractLsb' 4 12 = 0 ∧ t.decInfo.extractLsb' 30 2 = 0 ∧
    (if s.x.extractLsb' 122 5 = 0b11110 ∨ s.x.extractLsb' 122 5 = 0b11111 then
      (t.decInfo.extractLsb' 1 2).toNat = (if s.x.extractLsb' 122 5 = 0b11110 then 1 else 2) ∧
        t.decInfo.getLsbD 3 = false ∧ t.decInfo.extractLsb' 16 14 = 0 ∧ t.decExp = 0 ∧ t.y = 0
    else
      let large : Bool := s.x.extractLsb' 125 2 = 0b11
      let bexp := if large then s.x.extractLsb' 111 14 else s.x.extractLsb' 113 14
      let coef := if large then 2 ^ 113 + (s.x.extractLsb' 0 111).toNat else (s.x.extractLsb' 0 113).toNat
      (t.decInfo.extractLsb' 1 2).toNat = (if coef ≤ 10 ^ 34 - 1 then 0 else 3) ∧
        t.decInfo.getLsbD 3 = large ∧ t.decInfo.extractLsb' 16 14 = bexp ∧
        t.decExp.toInt = (bexp.toNat : Int) - 6176 ∧ t.y.toNat = coef)

/-- R212, R221: TOSTR raises NONCANON, changing nothing but STATUS, exactly when X is a finite word whose coefficient
exceeds MAXCOEF: always in the large form, and in the small form when `W[112:0]` is at least 10^34. -/
def Obligations.TostrRejectsNoncanonicalWords : Prop :=
  ∀ s : State, s.status = 0x1#32 →
    (exec .tostr s = .next (afterError s 6 0) ↔
      s.x.extractLsb' 122 5 ≠ 0b11110 ∧ s.x.extractLsb' 122 5 ≠ 0b11111 ∧
        (s.x.extractLsb' 125 2 = 0b11 ∨ 10 ^ 34 ≤ (s.x.extractLsb' 0 113).toNat))

/-- R220, R222 to R227, R229 to R231: on every word that is special or canonical TOSTR completes. The text is "NaN"; or
"Infinity", or the value in the notation and the form that its digits and its exponent choose, after a '-' if the sign bit
is set. It has 1 to 42 bytes and stands in TXT_OUT with zeros after it and its length in OUT_LEN; no other register and no
byte of TXT_IN changes. -/
def Obligations.TostrWritesTheText : Prop :=
  ∀ s : State, (unpack s.x).cls ≠ .noncanon →
    ∃ t text, exec .tostr s = .next t ∧ render (unpack s.x) = some text ∧
      (let sg : List Byte := if s.x.getLsbD 127 then [0x2D] else []
       match (unpack s.x).cls with
        | .nan => text = [0x4E, 0x61, 0x4E]
        | .inf => text = sg ++ [0x49, 0x6E, 0x66, 0x69, 0x6E, 0x69, 0x74, 0x79]
        | .finite => ∃ f, text = sg ++ f ∧ FormattedAs (unpack s.x).coef (unpack s.x).exp f
        | .noncanon => False) ∧
      1 ≤ text.length ∧ text.length ≤ 42 ∧
      t.ShowsText text ∧ Succeeded s t ∧ (∀ r, r ≠ .status → r ≠ .outLen → t.reg r = s.reg r) ∧
      (∀ k, t.inputByte k = s.inputByte k) ∧ t.fault = s.fault ∧ t.host = s.host

/-- R229, R230: Infinity is written "Infinity" and negative Infinity "-Infinity"; every NaN word is written "NaN"; a finite
word's text begins with '-' exactly when its sign bit is set, zero included. -/
def Obligations.SpecialAndSignedTexts : Prop :=
  (∀ w : QWord, w.extractLsb' 122 5 = 0b11110 → render (unpack w) =
    some ((if w.getLsbD 127 then [0x2D] else []) ++ [0x49, 0x6E, 0x66, 0x69, 0x6E, 0x69, 0x74, 0x79])) ∧
  (∀ w : QWord, w.extractLsb' 122 5 = 0b11111 → render (unpack w) = some [0x4E, 0x61, 0x4E]) ∧
  (∀ w : QWord, (unpack w).cls = .finite → ∃ text, render (unpack w) = some text ∧
    (text.head? = some 0x2D ↔ w.getLsbD 127 = true))

/-- R223: one step of the digit extraction: the digits of a number of 10^9 or more are those of its quotient by 10^9, then
the nine digits of the remainder, zero-padded. -/
def Obligations.DigitsByBillions : Prop :=
  ∀ n : Nat, 1000000000 ≤ n →
    decDigits n = decDigits (n / 1000000000) ++
      List.replicate (9 - (decDigits (n % 1000000000)).length) 0 ++ decDigits (n % 1000000000)

/-- R224 to R227: the texts the rules give as examples. -/
def Obligations.FormatExamples : Prop :=
  formatFinite 12345 36 = [0x31, 0x2E, 0x32, 0x33, 0x34, 0x35, 0x45, 0x2B, 0x34, 0x30] ∧
  formatFinite 1 3 = [0x31, 0x45, 0x2B, 0x33] ∧ formatFinite 0 2 = [0x30, 0x45, 0x2B, 0x32] ∧
  formatFinite 10 6111 = [0x31, 0x2E, 0x30, 0x45, 0x2B, 0x36, 0x31, 0x31, 0x32] ∧
  formatFinite 1234567 (-13) = [0x31, 0x2E, 0x32, 0x33, 0x34, 0x35, 0x36, 0x37, 0x45, 0x2D, 0x37] ∧
  formatFinite 0 (-6176) = [0x30, 0x45, 0x2D, 0x36, 0x31, 0x37, 0x36] ∧
  formatFinite 1000 0 = [0x31, 0x30, 0x30, 0x30] ∧ formatFinite 0 0 = [0x30] ∧
  formatFinite 123450 (-3) = [0x31, 0x32, 0x33, 0x2E, 0x34, 0x35, 0x30] ∧
  formatFinite 15 (-1) = [0x31, 0x2E, 0x35] ∧ formatFinite 5 (-1) = [0x30, 0x2E, 0x35] ∧
  formatFinite 1 (-6) = [0x30, 0x2E, 0x30, 0x30, 0x30, 0x30, 0x30, 0x31] ∧ formatFinite 0 (-1) = [0x30, 0x2E, 0x30] ∧
  formatFinite (10 ^ 33) (-34) = [0x30, 0x2E, 0x31] ++ List.replicate 33 0x30

/-- R232: round trip through the machine. When TOSTR completes without error on a canonical finite word or on one of the
three special patterns, and the text it wrote is then the input text, FROMSTR completes and writes that word back to X. -/
def Obligations.TostrFromstrRoundTrip : Prop :=
  ∀ (s t u : State) (text : List Byte),
    ((unpack s.x).cls = .finite ∨ s.x = 0x78000000000000000000000000000000#128 ∨
      s.x = 0xF8000000000000000000000000000000#128 ∨ s.x = 0x7C000000000000000000000000000000#128) →
    exec .tostr s = .next t → t.ShowsText text → u.HoldsText text →
      ∃ v, exec .fromstr u = .next v ∧ v.x = s.x ∧ Succeeded u v

/-! ## FROMSTR -/

/-- R121: a length of 7000 or more is TOO_LONG whatever TXT_IN holds, and nothing but STATUS changes; a shorter length
never is. -/
def Obligations.TooLongIsRejected : Prop :=
  (∀ s : State, 7000 ≤ s.txtLen.toNat → exec .fromstr s = .next (afterError s 2 0)) ∧
    ∀ s t : State, s.txtLen.toNat ≤ 6999 → s.status = 0x1#32 → exec .fromstr s = .next t → ecodeField t.status ≠ 2

/-- R272: a length below 7000 whose text has an unwritten byte is the fault UnwrittenInput. That the fault names the first
such byte of the whole text, and comes before any parsing, is the model's choice (log 6). -/
def Obligations.UnwrittenInputFaults : Prop :=
  ∀ (s : State) (k : Nat), s.txtLen.toNat < 7000 → k < s.txtLen.toNat → s.inputByte k = none →
    (∀ j, j < k → s.inputByte j ≠ none) → exec .fromstr s = .fault (.unwrittenInput k)

/-- R123, R124, R126, R241, R242: a written text outside the accepted language is MALFORMED with a sub-code from 1 to 5,
and nothing but STATUS changes; a text inside it is not MALFORMED. The sub-code is that of the first failing check, in the
program order of R124. -/
def Obligations.MalformedTextsAreThoseOutsideTheLanguage : Prop :=
  ∀ (s : State) (text : List Byte), text.length < 7000 → s.status = 0x1#32 → s.HoldsText text →
    ((∃ sub, 1 ≤ sub ∧ sub ≤ 5 ∧ exec .fromstr s = .next (afterError s 3 sub)) ↔ ¬ AcceptedText text) ∧
    ∀ sub, sub ≤ 5 → (exec .fromstr s = .next (afterError s 3 sub) ↔ MalformedAs text sub)

/-- R125: a special word after an optional sign, ASCII case ignored, completes FROMSTR with signed Infinity or NaN in X;
nothing else but STATUS changes. -/
def Obligations.SpecialWordsComplete : Prop :=
  ∀ (s : State) (sg body : List Byte), SignText sg → SpecialText body → s.HoldsText (sg ++ body) →
    ∃ t, exec .fromstr s = .next t ∧ Succeeded s t ∧ SameBut s t [.status, .x0, .x1, .x2, .x3] ∧
      t.x = (if body.length = 3 ∧ body.map foldByte = [0x6E, 0x61, 0x6E] then 0x7C000000000000000000000000000000#128
        else if sg = [0x2D] then 0xF8000000000000000000000000000000#128
        else 0x78000000000000000000000000000000#128)

/-- R124, R128: the tuple the parser reads from a numeral with integer digits `a`, fraction digits `b` and exponent digits
`ds`: every mantissa digit in order, the number of digits after the point, and the exact signed exponent. -/
def Obligations.NumeralTuple : Prop :=
  ∀ (sg a b es ds : List Byte) (m : Byte), SignText sg → Digits a → Digits b → a ++ b ≠ [] → SignText es → Digits ds →
    ds ≠ [] → (m = 0x45 ∨ m = 0x65) →
      let mant := (a ++ b).map (fun x => x.toNat - 0x30)
      let e : Int := (if es = [0x2D] then -1 else 1) * intOf (ds.map (fun x => x.toNat - 0x30))
      parse (sg ++ a ++ 0x2E :: b) = .num (sg = [0x2D]) mant b.length 0 ∧
      parse (sg ++ a ++ 0x2E :: (b ++ m :: (es ++ ds))) = .num (sg = [0x2D]) mant b.length e ∧
      (b = [] → parse (sg ++ a) = .num (sg = [0x2D]) mant 0 0 ∧
        parse (sg ++ a ++ m :: (es ++ ds)) = .num (sg = [0x2D]) mant 0 e)

/-- R126, R241: the sub-codes of the rule's examples. -/
def Obligations.SubCodesOfTheExamples : Prop :=
  parse [0x31, 0x65] = .err .missingExpDigits ∧ parse [0x31, 0x65, 0x2B] = .err .missingExpDigits ∧
  parse [0x31, 0x45, 0x2D] = .err .missingExpDigits ∧
  parse [0x65, 0x35] = .err .missingExpBase ∧ parse [0x45, 0x2B, 0x35] = .err .missingExpBase ∧
  parse [0x2D, 0x65, 0x31] = .err .missingExpBase ∧ parse [0x2E, 0x65, 0x31] = .err .missingExpBase ∧
  parse [0x31, 0x2E, 0x2E, 0x32] = .err .multipleRadix ∧ parse [0x31, 0x2E, 0x32, 0x2E, 0x33] = .err .multipleRadix ∧
  parse [0x2E, 0x2E] = .err .multipleRadix ∧
  parse [0x35, 0x2B, 0x33] = .err .trailingChars ∧ parse [0x31, 0x65, 0x35, 0x78] = .err .trailingChars ∧
  parse [0x20, 0x31] = .err .trailingChars ∧ parse [0x31, 0x20] = .err .trailingChars ∧
  parse [0x61, 0x62, 0x63] = .err .trailingChars ∧
  parse [0x49, 0x6E, 0x66, 0x69, 0x6E, 0x69, 0x74] = .err .trailingChars ∧
  parse [0x2E] = .err .noDigits ∧ parse [0x2B, 0x2E] = .err .noDigits ∧ parse [] = .err .noDigits ∧
  parse [0x2B] = .err .noDigits ∧ parse [0x2D] = .err .noDigits ∧
  [subNumber .noDigits, subNumber .multipleRadix, subNumber .missingExpDigits, subNumber .missingExpBase,
    subNumber .trailingChars] = [1, 2, 3, 4, 5]

/-- R120: FROMSTR on a written numeral that normalizes to a finite value completes and packs it into X; nothing else but
STATUS changes. The conditions on the digits and the exponent are those of R133, R134 and R136, where no digit is lost. -/
def Obligations.ExactNumeralsComplete : Prop :=
  ∀ (s : State) (text : List Byte) (neg : Bool) (D : List Nat) (r : Nat) (E : Int),
    text.length < 7000 → s.HoldsText text → parse text = .num neg D r E → (∀ d ∈ D, d < 10) →
    let n := (D.dropWhile (· == 0)).length
    let e0 := E - r
    (n = 0 → ∃ t, exec .fromstr s = .next t ∧ t.x = packFinite neg 0 (max (-6176) (min 6111 e0)) ∧ Succeeded s t ∧
      SameBut s t [.status, .x0, .x1, .x2, .x3]) ∧
    (0 < n → n ≤ 34 → -6176 ≤ e0 → e0 ≤ 6111 → ∃ t, exec .fromstr s = .next t ∧ t.x = packFinite neg (intOf D) e0 ∧
      Succeeded s t ∧ SameBut s t [.status, .x0, .x1, .x2, .x3]) ∧
    (0 < n → 6111 < e0 → n + (e0 - 6111) ≤ 34 → ∃ t, exec .fromstr s = .next t ∧
      t.x = packFinite neg (intOf D * 10 ^ (e0 - 6111).toNat) 6111 ∧ Succeeded s t ∧
      SameBut s t [.status, .x0, .x1, .x2, .x3])

/-- R120, R134, R137, R141, R143: every written numeral has one of three ends. It overflows, exactly when its significant
digits do not fit 34 places at exponent 6111, and then nothing but STATUS changes. Else it completes: with the Infinity
pattern of its sign (R105) exactly when more than 34 digits end at exponent 6111 and the 34 kept round up to 10^34, that is
when the digits reach the midpoint between 10^34 - 1, which is odd, and 10^34; and otherwise with the packed finite value
of the normalizer. -/
def Obligations.NumeralsOverflowOrComplete : Prop :=
  ∀ (s : State) (text : List Byte) (neg : Bool) (D : List Nat) (r : Nat) (E : Int),
    text.length < 7000 → s.HoldsText text → parse text = .num neg D r E → (∀ d ∈ D, d < 10) →
    let n := (D.dropWhile (· == 0)).length
    let e0 := E - r
    let Overflows := 0 < n ∧ 6111 < e0 + n - 34
    let RoundsToInfinity := 34 < n ∧ e0 + n - 34 = 6111 ∧ (2 * 10 ^ 34 - 1) * 10 ^ (n - 34) ≤ 2 * intOf D
    (Overflows → exec .fromstr s = .next (afterError s 4 0)) ∧
    (¬ Overflows → ∃ t, exec .fromstr s = .next t ∧ Succeeded s t ∧ SameBut s t [.status, .x0, .x1, .x2, .x3] ∧
      t.x.getLsbD 127 = neg ∧
      (RoundsToInfinity → t.x = (if neg then 0xF8000000000000000000000000000000#128
        else 0x78000000000000000000000000000000#128)) ∧
      (¬ RoundsToInfinity → (unpack t.x).cls = .finite ∧ ∃ c e, Machine.normalize neg D r E = .fin neg c e ∧
        c ≤ 10 ^ 34 - 1 ∧ -6176 ≤ e ∧ e ≤ 6111 ∧ t.x = packFinite neg c e))

/-- R142: every finite result has a coefficient of at most 34 digits, an exponent in range and the parsed sign. Its exponent
is the clamped one for a run of zeros, 6111 above the range, and else the `q` of R135, plus 1 exactly after a carry-out:
when digits are discarded and those kept, at least one, are all 9 and round up, that is when the digit run reaches the
midpoint between their largest value, which is odd, and the power of ten above it. The coefficient is then that power of
ten with one zero less (R141). -/
def Obligations.NormalizedValuesInRange : Prop :=
  ∀ (neg neg' : Bool) (D : List Nat) (r : Nat) (E : Int) (c : Nat) (e : Int), (∀ d ∈ D, d < 10) →
    Machine.normalize neg D r E = .fin neg' c e →
      let n := (D.dropWhile (· == 0)).length
      let e0 := E - r
      let q := max (max e0 (-6176)) (e0 + n - 34)
      let t := (q - e0).toNat
      let CarriesOut := 0 < t ∧ t < n ∧ (2 * 10 ^ (n - t) - 1) * 10 ^ t ≤ 2 * intOf D
      c ≤ 10 ^ 34 - 1 ∧ -6176 ≤ e ∧ e ≤ 6111 ∧ neg' = neg ∧
      (n = 0 → c = 0 ∧ e = max (-6176) (min 6111 e0)) ∧
      (0 < n → 6111 < e0 → e = 6111) ∧
      (0 < n → e0 ≤ 6111 → (CarriesOut → e = q + 1 ∧ c = 10 ^ (n - t - 1)) ∧ (¬ CarriesOut → e = q))

/-- R143: correct rounding. For a nonzero digit run with a finite result, write `q` for the exponent of R135 (6111 above
the range). The value `int(D) x 10^e0` and the result `c x 10^e` are compared in units of `10^min(q, e0)`: the result is
a multiple of `10^q`, at most half a unit of `10^q` away, and at half a unit the multiple is even. If no digit was
discarded the two are equal. -/
def Obligations.RoundsToNearestEven : Prop :=
  ∀ (neg neg' : Bool) (D : List Nat) (r : Nat) (E : Int) (c : Nat) (e : Int), (∀ d ∈ D, d < 10) →
    D.dropWhile (· == 0) ≠ [] → Machine.normalize neg D r E = .fin neg' c e →
    let e0 := E - r
    let q := if 6111 < e0 then 6111 else max (max e0 (-6176)) (e0 + (D.dropWhile (· == 0)).length - 34)
    let value := intOf D * 10 ^ (e0 - q).toNat
    let unit := 10 ^ (q - e0).toNat
    let multiple := c * 10 ^ (e - q).toNat
    q ≤ e ∧ (q ≤ e0 → multiple = value) ∧
      2 * multiple * unit ≤ 2 * value + unit ∧ 2 * value ≤ 2 * multiple * unit + unit ∧
      ((2 * multiple * unit = 2 * value + unit ∨ 2 * value = 2 * multiple * unit + unit) → multiple % 2 = 0)

/-- R127: holding the exponent in an accumulator that saturates at any bound of 13176 or more gives every text FROMSTR
accepts the same result. -/
def Obligations.SaturatingExponentIsEnough : Prop :=
  ∀ (neg : Bool) (D : List Nat) (r : Nat) (E S : Int), 13176 ≤ S → r ≤ 6998 → D.length ≤ 6999 → r ≤ D.length →
    Machine.normalize neg D r (max (-S) (min S E)) = Machine.normalize neg D r E

/-- R198, fourth law, R144: ENC.FIN given the two 17-digit halves of the coefficient FROMSTR normalized to, its sign and
its exponent, writes the same X. -/
def Obligations.EncFinAgreesWithFromstr : Prop :=
  ∀ (s t u : State) (text : List Byte) (neg neg' : Bool) (D : List Nat) (r : Nat) (E : Int) (c : Nat) (e : Int),
    text.length < 7000 → s.HoldsText text → parse text = .num neg D r E → (∀ d ∈ D, d < 10) →
    Machine.normalize neg D r E = .fin neg' c e → exec .fromstr s = .next t →
    u.opa.toNat = c / 10 ^ 17 → u.opb.toNat = c % 10 ^ 17 → u.expIn.toInt = e →
      ∃ v, exec (.encFin neg') u = .next v ∧ v.x = t.x

/-! ## All commands -/

/-- R44, R30 to R33, R39: the frame of every command that completes. No operand register, no result register but those of
the command's row, no byte of TXT_IN, and no byte of TXT_OUT but TOSTR's changes. -/
def Obligations.CommandsWriteOnlyTheirRow : Prop :=
  ∀ (i : Instr) (s t : State), exec i s = .next t →
    (∀ r, r ∉ resultRegs i → t.reg r = s.reg r) ∧ (∀ k, t.inputByte k = s.inputByte k) ∧
    (i ≠ .tostr → ∀ a, t.mem.read a = s.mem.read a) ∧
    (∀ a, (a < 0x100 ∨ 0x13F < a) → t.mem.read a = s.mem.read a) ∧
    t.fault = s.fault ∧ t.host = s.host ∧ t.turns = s.turns ∧ t.draws = s.draws

/-- R47, R44: what a command does is a function of the state its row says it reads: two issues on states that agree there
end alike, with the same STATUS, the same results on success, and the same fault. -/
def Obligations.CommandsReadOnlyTheirRow : Prop :=
  ∀ (i : Instr) (s u : State), AgreeOnReads i s u → s.status = 0x1#32 → u.status = 0x1#32 →
    (∃ t v, exec i s = .next t ∧ exec i u = .next v ∧ t.status = v.status ∧
      (errBit t.status = false → AgreeOnResults i t v)) ∨
    ∃ f, exec i s = .fault f ∧ exec i u = .fault f

/-- R242, R243: a command that ends with an error leaves everything but STATUS as it was at acceptance, and issued again
on that state it ends with the same STATUS. -/
def Obligations.ErrorsChangeOnlyStatus : Prop :=
  ∀ (i : Instr) (s t : State), s.status = 0x1#32 → exec i s = .next t → errBit t.status = true →
    t = { s with status := t.status } ∧ doneBit t.status = true ∧ busyBit t.status = false ∧
      exec i { t with status := 0x1#32 } = .next t

/-- R240, R241, R244: which command can end with which error: FROMSTR with TOO_LONG, MALFORMED or OVERFLOW, ENC.FIN with
RANGE, TOSTR with NONCANON, the others with none; ESUB is nonzero exactly with MALFORMED. -/
def Obligations.ErrorsByCommand : Prop :=
  ∀ (i : Instr) (s t : State), s.status = 0x1#32 → exec i s = .next t →
    (match i with
      | .fromstr => (ecodeField t.status).toNat ∈ [0, 2, 3, 4]
      | .encFin _ => (ecodeField t.status).toNat ∈ [0, 5]
      | .tostr => (ecodeField t.status).toNat ∈ [0, 6]
      | _ => (ecodeField t.status).toNat = 0) ∧
    ((esubField t.status).toNat ≠ 0 ↔ (ecodeField t.status).toNat = 3) ∧ (esubField t.status).toNat ≤ 5 ∧
    (errBit t.status = true ↔ (ecodeField t.status).toNat ≠ 0)

/-- The invariant holds right after reset (R270; the model's own fields at the values of log 11). -/
def Obligations.ResetMeetsInvariant : Prop := State.reset.Inv

/-- The invariant is kept by every step from every state that meets it: the buffers' memory stays canonical and lists bytes
of the two buffers only; TXT_OUT is written whole or not at all, and OUT_LEN is at most 42 and nonzero exactly when it is
(R222, R231); TXT_IN is written in words (R272); STATUS is legal (R25, R240, R241); AUX is below 10^9 (R35); the reserved
bits of DEC_INFO are 0 (R36, R43); the model's `turns` are 0 with no command in progress (log 2). -/
def Obligations.EveryStepKeepsInvariant : Prop :=
  ∀ s t : State, s.Inv → step s = .next t → t.Inv
end

