-- ==== Sys2Proof/Laws/Memory.lean ====
section
/-! SUPPORT. The laws of the buffers' memory: reading after writing, and the canonical form. -/

namespace Sys2Proof.Machine

@[simp] theorem Memory.read_nil (k : Nat) : Memory.read [] k = none := rfl

theorem Memory.read_cons (a : Nat) (b : Byte) (m : Memory) (k : Nat) :
    Memory.read ((a, b) :: m) k = if a = k then some b else Memory.read m k := rfl

/-- The whole of a one-byte write: the byte written, and every other byte as before. -/
theorem Memory.read_write (m : Memory) (k j : Nat) (v : Byte) :
    Memory.read (Memory.write m k v) j = if j = k then some v else Memory.read m j := by
  induction m with
  | nil => simp [Memory.write, Memory.read_cons, eq_comm]
  | cons c m ih =>
    obtain ⟨a, b⟩ := c
    simp only [Memory.write]
    split
    · simp [Memory.read_cons, eq_comm]
    · split
      · subst_vars
        simp only [Memory.read_cons]
        split <;> simp_all [eq_comm]
      · simp only [Memory.read_cons, ih]
        split <;> split <;> simp_all

/-- The whole of a write of several bytes. -/
theorem Memory.read_writeBytes (bs : List Byte) (m : Memory) (base j : Nat) :
    Memory.read (Memory.writeBytes m base bs) j =
      if base ≤ j ∧ j < base + bs.length then bs[j - base]? else Memory.read m j := by
  induction bs generalizing m base with
  | nil => simp [Memory.writeBytes]
  | cons b bs ih =>
    simp only [Memory.writeBytes, ih, Memory.read_write, List.length_cons]
    by_cases hj : j = base
    · subst hj
      simp
    · by_cases h1 : base + 1 ≤ j ∧ j < base + 1 + bs.length
      · have h2 : base ≤ j ∧ j < base + (bs.length + 1) := by omega
        have h3 : j - base = (j - (base + 1)) + 1 := by omega
        simp [h1, h2, h3]
      · have h2 : ¬ (base ≤ j ∧ j < base + (bs.length + 1)) := by omega
        rw [if_neg h1, if_neg h2, if_neg hj]

/-- The head of a canonical memory lies below the rest. -/
theorem Memory.wf_cons {a : Nat} {b : Byte} {m : Memory} :
    Memory.wf ((a, b) :: m) = true ↔ (∀ c ∈ m, a < c.1) ∧ Memory.wf m = true := by
  induction m generalizing a b with
  | nil => simp [Memory.wf]
  | cons c m ih =>
    obtain ⟨a', b'⟩ := c
    simp only [Memory.wf, Bool.and_eq_true, decide_eq_true_eq, List.mem_cons, forall_eq_or_imp]
    constructor
    · rintro ⟨h1, h2⟩
      refine ⟨⟨h1, fun c hc => ?_⟩, h2⟩
      have := (ih.mp h2).1 c hc
      omega
    · rintro ⟨⟨h1, _⟩, h2⟩
      exact ⟨h1, h2⟩

theorem Memory.mem_write {m : Memory} {k : Nat} {v : Byte} {c : Host.Cell} (h : c ∈ Memory.write m k v) :
    c = (k, v) ∨ c ∈ m := by
  induction m with
  | nil => simpa [Memory.write] using h
  | cons d m ih =>
    obtain ⟨a, b⟩ := d
    simp only [Memory.write] at h
    split at h
    · simpa using h
    · split at h
      · simp only [List.mem_cons] at h ⊢
        tauto
      · simp only [List.mem_cons] at h ⊢
        rcases h with h | h
        · tauto
        · rcases ih h with h | h <;> tauto

/-- A one-byte write keeps the canonical form. -/
theorem Memory.wf_write {m : Memory} (h : Memory.wf m = true) (k : Nat) (v : Byte) :
    Memory.wf (Memory.write m k v) = true := by
  induction m with
  | nil => rfl
  | cons c m ih =>
    obtain ⟨a, b⟩ := c
    obtain ⟨hlt, hm⟩ := Memory.wf_cons.mp h
    simp only [Memory.write]
    split
    · refine Memory.wf_cons.mpr ⟨fun c hc => ?_, h⟩
      rcases List.mem_cons.mp hc with rfl | hc
      · assumption
      · have := hlt c hc; omega
    · split
      · subst_vars; exact Memory.wf_cons.mpr ⟨hlt, hm⟩
      · refine Memory.wf_cons.mpr ⟨fun c hc => ?_, ih hm⟩
        rcases Memory.mem_write hc with rfl | hc
        · simp only; omega
        · exact hlt c hc

/-- A write of several bytes keeps the canonical form. -/
theorem Memory.wf_writeBytes (bs : List Byte) {m : Memory} (h : Memory.wf m = true) (base : Nat) :
    Memory.wf (Memory.writeBytes m base bs) = true := by
  induction bs generalizing m base with
  | nil => exact h
  | cons b bs ih => exact ih (Memory.wf_write h base b) (base + 1)

/-- A word write keeps the canonical form. -/
theorem Memory.wf_writeWord {m : Memory} (h : Memory.wf m = true) (base : Nat) (v : Word) :
    Memory.wf (Memory.writeWord m base v) = true :=
  Memory.wf_writeBytes _ h base

/-- The whole of a word write: its four bytes, little-endian, and every other byte as before. -/
theorem Memory.read_writeWord (m : Memory) (base j : Nat) (v : Word) :
    Memory.read (Memory.writeWord m base v) j =
      if base ≤ j ∧ j < base + 4 then some (unpackByte v (j - base)) else Memory.read m j := by
  simp only [Memory.writeWord, Memory.read_writeBytes, List.length_cons, List.length_nil]
  split
  · rename_i h
    obtain ⟨d, rfl⟩ : ∃ d, j = base + d := ⟨j - base, by omega⟩
    have hd : d < 4 := by omega
    have : d = 0 ∨ d = 1 ∨ d = 2 ∨ d = 3 := by omega
    rcases this with rfl | rfl | rfl | rfl <;> simp
  · rfl

@[simp] theorem outputBytes_length (text : List Byte) : (outputBytes text).length = 64 := by
  simp [outputBytes, Config.txtOutSize]

/-- `WriteOut`'s 64 bytes: the text, then zeros (R222). -/
theorem outputBytes_getElem? (text : List Byte) (k : Nat) (h : k < 64) :
    (outputBytes text)[k]? = some (text.getD k 0) := by
  simp [outputBytes, Config.txtOutSize, h]

end Sys2Proof.Machine
end

