-- ==== Sys2Proof/Laws/Words.lean ====
section
/-! SUPPORT. The laws of the words: the 128-bit registers and their words, bytes of words, the fields of STATUS, of the
command word and of the interchange word. -/

namespace Sys2Proof.Machine

/-- A 128-bit value is its four words (R22). -/
theorem quadWord_join (v : QWord) : quadWord v 3 ++ quadWord v 2 ++ quadWord v 1 ++ quadWord v 0 = v := by
  apply BitVec.eq_of_getLsbD_eq
  intro i hi
  simp only [quadWord, BitVec.getLsbD_append, BitVec.getLsbD_extractLsb']
  by_cases h0 : i < 32
  · simp [h0]
  · by_cases h1 : i < 64
    · have : i - 32 < 32 := by omega
      simp [h0, this]; congr 1; omega
    · by_cases h2 : i < 96
      · have a1 : ¬ i - 32 < 32 := by omega
        have a2 : i - 32 - 32 < 32 := by omega
        simp [h0, a1, a2]; congr 1; omega
      · have a1 : ¬ i - 32 < 32 := by omega
        have a2 : ¬ i - 32 - 32 < 32 := by omega
        have a3 : i - 32 - 32 - 32 < 32 := by omega
        simp [h0, a1, a2, a3]; congr 1; omega

/-- A word is its four bytes (R61). -/
theorem packBytes_unpackByte (v : Word) : packBytes (unpackByte v) = v := by
  apply BitVec.eq_of_getLsbD_eq
  intro i hi
  simp only [packBytes, unpackByte, BitVec.getLsbD_append, BitVec.getLsbD_extractLsb']
  by_cases h0 : i < 8
  · simp [h0]
  · by_cases h1 : i < 16
    · have : i - 8 < 8 := by omega
      simp [h0, this]; congr 1; omega
    · by_cases h2 : i < 24
      · have a1 : ¬ i - 8 < 8 := by omega
        have a2 : i - 8 - 8 < 8 := by omega
        simp [h0, a1, a2]; congr 1; omega
      · have a1 : ¬ i - 8 < 8 := by omega
        have a2 : ¬ i - 8 - 8 < 8 := by omega
        have a3 : i - 8 - 8 - 8 < 8 := by omega
        simp [h0, a1, a2, a3]; congr 1; omega

@[simp] theorem busyBit_statusWord (b d e : Bool) (c s : BitVec 4) : busyBit (statusWord b d e c s) = b := by
  simp only [busyBit, statusWord, BitVec.getLsbD_append]; simp

@[simp] theorem doneBit_statusWord (b d e : Bool) (c s : BitVec 4) : doneBit (statusWord b d e c s) = d := by
  simp only [doneBit, statusWord, BitVec.getLsbD_append]; simp

@[simp] theorem errBit_statusWord (b d e : Bool) (c s : BitVec 4) : errBit (statusWord b d e c s) = e := by
  simp only [errBit, statusWord, BitVec.getLsbD_append]; simp

@[simp] theorem ecodeField_statusWord (b d e : Bool) (c s : BitVec 4) : ecodeField (statusWord b d e c s) = c := by
  apply BitVec.eq_of_getLsbD_eq
  intro i hi
  have : i = 0 ∨ i = 1 ∨ i = 2 ∨ i = 3 := by omega
  rcases this with rfl | rfl | rfl | rfl <;>
    (simp only [ecodeField, statusWord, BitVec.getLsbD_extractLsb', BitVec.getLsbD_append]; simp)

@[simp] theorem esubField_statusWord (b d e : Bool) (c s : BitVec 4) : esubField (statusWord b d e c s) = s := by
  apply BitVec.eq_of_getLsbD_eq
  intro i hi
  have : i = 0 ∨ i = 1 ∨ i = 2 ∨ i = 3 := by omega
  rcases this with rfl | rfl | rfl | rfl <;>
    (simp only [esubField, statusWord, BitVec.getLsbD_extractLsb', BitVec.getLsbD_append]; simp)

@[simp] theorem busyBit_statusAccepted : busyBit statusAccepted = true := by simp [statusAccepted]

@[simp] theorem busyBit_statusCompleted (st : Word) : busyBit (statusCompleted st) = false := by
  simp [statusCompleted]

@[simp] theorem errBit_statusCompleted (st : Word) : errBit (statusCompleted st) = errBit st := by
  simp [statusCompleted]

@[simp] theorem doneBit_statusCompleted (st : Word) : doneBit (statusCompleted st) = true := by
  simp [statusCompleted]

@[simp] theorem busyBit_statusFailed (c : ErrorCode) (k : SubCode) : busyBit (statusFailed c k) = false := by
  simp [statusFailed]

@[simp] theorem errBit_statusFailed (c : ErrorCode) (k : SubCode) : errBit (statusFailed c k) = true := by
  simp [statusFailed]

@[simp] theorem doneBit_statusFailed (c : ErrorCode) (k : SubCode) : doneBit (statusFailed c k) = true := by
  simp [statusFailed]

@[simp] theorem ecodeField_statusFailed (c : ErrorCode) (k : SubCode) :
    ecodeField (statusFailed c k) = errorNumber c := by simp [statusFailed]

@[simp] theorem esubField_statusFailed (c : ErrorCode) (k : SubCode) :
    esubField (statusFailed c k) = subNumber k := by simp [statusFailed]

/-- A command accepted and completed without error leaves STATUS = DONE (R26). -/
@[simp] theorem statusCompleted_accepted : statusCompleted statusAccepted = 0x2#32 := by decide

@[simp] theorem statusAccepted_eq : statusAccepted = 0x1#32 := by decide

/-! ## The interchange word -/

/-- The number a finite word's fields make (R192). -/
theorem packFinite_toNat {neg : Bool} {c : Nat} {e : Int} (hc : c < 2 ^ 113) (h1 : -6176 ≤ e) (h2 : e ≤ 6111) :
    (packFinite neg c e).toNat = neg.toNat * 2 ^ 127 + (e + 6176).toNat * 2 ^ 113 + c := by
  have he : (e + 6176).toNat < 2 ^ 14 := by omega
  simp only [packFinite, Config.bias, BitVec.toNat_append, BitVec.toNat_ofNat, BitVec.toNat_ofBool,
    Nat.mod_eq_of_lt hc, Nat.mod_eq_of_lt he]
  rw [← Nat.shiftLeft_add_eq_or_of_lt he, ← Nat.shiftLeft_add_eq_or_of_lt hc]
  simp only [Nat.shiftLeft_eq]
  ring

/-- Unpacking a packed word gives back its sign, coefficient and exponent, in class FINITE (R198). -/
theorem unpack_packFinite {neg : Bool} {c : Nat} {e : Int} (hc : c ≤ Config.maxCoef) (h1 : Config.eMin ≤ e)
    (h2 : e ≤ Config.eMax) :
    unpack (packFinite neg c e) =
      { sign := neg, cls := .finite, large := false, bexp := BitVec.ofNat 14 (e + Config.bias).toNat,
        exp := e, coef := c } := by
  simp only [Config.eMin, Config.eMax] at h1 h2
  have hc' : c < 2 ^ 113 := by simp only [Config.maxCoef] at hc; omega
  have hw := packFinite_toNat (neg := neg) hc' h1 h2
  have hb : (e + 6176).toNat ≤ 12287 := by omega
  have hn : neg.toNat = 0 ∨ neg.toNat = 1 := by cases neg <;> simp
  generalize hB : (e + 6176).toNat = B at *
  have hcomb : (combination (packFinite neg c e)).toNat = B / 2 ^ 9 := by
    simp only [combination, BitVec.extractLsb'_toNat, hw, Nat.shiftRight_eq_div_pow]
    rcases hn with hn | hn <;> rw [hn] <;> omega
  have h30 : combination (packFinite neg c e) ≠ 0b11110 := by
    intro h; rw [h] at hcomb; simp at hcomb; omega
  have h31 : combination (packFinite neg c e) ≠ 0b11111 := by
    intro h; rw [h] at hcomb; simp at hcomb; omega
  have htop : ((packFinite neg c e).extractLsb' 125 2).toNat = B / 2 ^ 12 := by
    simp only [BitVec.extractLsb'_toNat, hw, Nat.shiftRight_eq_div_pow]
    rcases hn with hn | hn <;> rw [hn] <;> omega
  have h3 : (packFinite neg c e).extractLsb' 125 2 ≠ 0b11 := by
    intro h; rw [h] at htop; simp at htop; omega
  have hexp : (packFinite neg c e).extractLsb' 113 14 = BitVec.ofNat 14 B := by
    apply BitVec.eq_of_toNat_eq
    simp only [BitVec.extractLsb'_toNat, hw, Nat.shiftRight_eq_div_pow, BitVec.toNat_ofNat]
    rcases hn with hn | hn <;> rw [hn] <;> omega
  have hcoef : ((packFinite neg c e).extractLsb' 0 113).toNat = c := by
    simp only [BitVec.extractLsb'_toNat, hw, Nat.shiftRight_eq_div_pow]
    rcases hn with hn | hn <;> rw [hn] <;> omega
  have hsign : signBit (packFinite neg c e) = neg := by
    simp only [signBit, BitVec.getLsbD, Nat.testBit_eq_decide_div_mod_eq, hw]
    cases neg <;> simp <;> omega
  simp only [unpack, if_neg h30, if_neg h31, if_neg h3, unpackFinite, finiteClass, if_pos hc, hexp, hcoef, hsign,
    Config.bias, BitVec.toNat_ofNat, Unpacked.mk.injEq, true_and, and_true]
  omega

/-- The exponent of a finite word lies in [-6176, 6111], and a coefficient below 2^114 was unpacked (R211). -/
theorem unpack_range (w : QWord) :
    -6176 ≤ (unpack w).exp ∧ (unpack w).exp ≤ 6111 ∧ (unpack w).coef < 2 ^ 114 := by
  have hg : (combination w).toNat = w.toNat / 2 ^ 122 % 2 ^ 5 := by
    simp only [combination, BitVec.extractLsb'_toNat, Nat.shiftRight_eq_div_pow]
  have hl := w.isLt
  unfold unpack
  split
  · simp [unpackSpecial]
  · rename_i g30
    split
    · simp [unpackSpecial]
    · rename_i g31
      have n30 : (combination w).toNat ≠ 30 := fun h => g30 (BitVec.eq_of_toNat_eq (by simpa using h))
      have n31 : (combination w).toNat ≠ 31 := fun h => g31 (BitVec.eq_of_toNat_eq (by simpa using h))
      rw [hg] at n30 n31
      split
      · rename_i g3
        have h3 : w.toNat / 2 ^ 125 % 2 ^ 2 = 3 := by
          have := congrArg BitVec.toNat g3
          rw [BitVec.extractLsb'_toNat, Nat.shiftRight_eq_div_pow] at this
          exact this
        simp only [unpackFinite, Config.bias, BitVec.extractLsb'_toNat, Nat.shiftRight_eq_div_pow]
        omega
      · rename_i g3
        have h3 : w.toNat / 2 ^ 125 % 2 ^ 2 ≠ 3 := by
          intro h
          apply g3
          apply BitVec.eq_of_toNat_eq
          rw [BitVec.extractLsb'_toNat, Nat.shiftRight_eq_div_pow]
          exact h
        simp only [unpackFinite, Config.bias, BitVec.extractLsb'_toNat, Nat.shiftRight_eq_div_pow]
        omega

/-- A canonical finite word is the packing of its own fields (R198, R232). -/
theorem packFinite_unpack {w : QWord} (h : (unpack w).cls = .finite) :
    packFinite (unpack w).sign (unpack w).coef (unpack w).exp = w := by
  have hl := w.isLt
  unfold unpack at h ⊢
  split
  · rename_i g; simp [g, unpackSpecial] at h
  · rename_i g30
    split
    · rename_i g; simp [g, unpackSpecial] at h
    · rename_i g31
      rw [if_neg g30, if_neg g31] at h
      split
      · rename_i g3
        rw [if_pos g3] at h
        simp only [unpackFinite, finiteClass] at h
        split at h
        · rename_i hc; simp only [Config.maxCoef] at hc; omega
        · simp at h
      · rename_i g3
        rw [if_neg g3] at h
        simp only [unpackFinite, Config.bias]
        have hb := (w.extractLsb' 113 14).isLt
        have e1 : ((((w.extractLsb' 113 14).toNat : Int) - 6176) + 6176).toNat = (w.extractLsb' 113 14).toNat := by
          omega
        simp only [packFinite, Config.bias, e1]
        apply BitVec.eq_of_getLsbD_eq
        intro i hi
        simp only [BitVec.getLsbD_append, BitVec.ofNat_toNat, BitVec.setWidth_eq, BitVec.getLsbD_extractLsb', signBit]
        by_cases h0 : i < 113
        · simp [h0]
        · by_cases h1 : i - 113 < 14
          · simp [h0, h1]; congr 1; omega
          · have : i = 127 := by omega
            subst this
            simp

/-- A canonical finite word's coefficient is at most MAXCOEF (spec/30_encoding.md R107). -/
theorem unpack_coef_lt {w : QWord} (h : (unpack w).cls = .finite) : (unpack w).coef < 10 ^ 34 := by
  have hc : (unpack w).cls = finiteClass (unpack w).coef ∨ (unpack w).coef = 0 := by
    simp only [unpack]
    split
    · exact .inr rfl
    · split
      · exact .inr rfl
      · split <;> exact .inl rfl
  rcases hc with hc | hc
  · rw [hc, finiteClass] at h
    split at h
    · rename_i hh; simp only [Config.maxCoef] at hh; omega
    · simp at h
  · omega

end Sys2Proof.Machine
end

