-- ==== Sys2Proof/Laws/State.lean ====
section
/-! SUPPORT. One lemma for each field of State under each update of the shared operations, and the register views after the
updates that write them. -/

namespace Sys2Proof.Machine

variable (s : State)

/-! ## `setX` -/

@[simp] theorem setX_cmd (v : QWord) : (s.setX v).cmd = s.cmd := rfl
@[simp] theorem setX_status (v : QWord) : (s.setX v).status = s.status := rfl
@[simp] theorem setX_opaLo (v : QWord) : (s.setX v).opaLo = s.opaLo := rfl
@[simp] theorem setX_opaHi (v : QWord) : (s.setX v).opaHi = s.opaHi := rfl
@[simp] theorem setX_opbLo (v : QWord) : (s.setX v).opbLo = s.opbLo := rfl
@[simp] theorem setX_opbHi (v : QWord) : (s.setX v).opbHi = s.opbHi := rfl
@[simp] theorem setX_expIn (v : QWord) : (s.setX v).expIn = s.expIn := rfl
@[simp] theorem setX_txtLen (v : QWord) : (s.setX v).txtLen = s.txtLen := rfl
@[simp] theorem setX_x0 (v : QWord) : (s.setX v).x0 = quadWord v 0 := rfl
@[simp] theorem setX_x1 (v : QWord) : (s.setX v).x1 = quadWord v 1 := rfl
@[simp] theorem setX_x2 (v : QWord) : (s.setX v).x2 = quadWord v 2 := rfl
@[simp] theorem setX_x3 (v : QWord) : (s.setX v).x3 = quadWord v 3 := rfl
@[simp] theorem setX_y0 (v : QWord) : (s.setX v).y0 = s.y0 := rfl
@[simp] theorem setX_y1 (v : QWord) : (s.setX v).y1 = s.y1 := rfl
@[simp] theorem setX_y2 (v : QWord) : (s.setX v).y2 = s.y2 := rfl
@[simp] theorem setX_y3 (v : QWord) : (s.setX v).y3 = s.y3 := rfl
@[simp] theorem setX_aux (v : QWord) : (s.setX v).aux = s.aux := rfl
@[simp] theorem setX_decInfo (v : QWord) : (s.setX v).decInfo = s.decInfo := rfl
@[simp] theorem setX_decExp (v : QWord) : (s.setX v).decExp = s.decExp := rfl
@[simp] theorem setX_outLen (v : QWord) : (s.setX v).outLen = s.outLen := rfl
@[simp] theorem setX_mem (v : QWord) : (s.setX v).mem = s.mem := rfl
@[simp] theorem setX_fault (v : QWord) : (s.setX v).fault = s.fault := rfl
@[simp] theorem setX_host (v : QWord) : (s.setX v).host = s.host := rfl
@[simp] theorem setX_turns (v : QWord) : (s.setX v).turns = s.turns := rfl
@[simp] theorem setX_draws (v : QWord) : (s.setX v).draws = s.draws := rfl

/-! ## `setY` -/

@[simp] theorem setY_cmd (v : QWord) : (s.setY v).cmd = s.cmd := rfl
@[simp] theorem setY_status (v : QWord) : (s.setY v).status = s.status := rfl
@[simp] theorem setY_opaLo (v : QWord) : (s.setY v).opaLo = s.opaLo := rfl
@[simp] theorem setY_opaHi (v : QWord) : (s.setY v).opaHi = s.opaHi := rfl
@[simp] theorem setY_opbLo (v : QWord) : (s.setY v).opbLo = s.opbLo := rfl
@[simp] theorem setY_opbHi (v : QWord) : (s.setY v).opbHi = s.opbHi := rfl
@[simp] theorem setY_expIn (v : QWord) : (s.setY v).expIn = s.expIn := rfl
@[simp] theorem setY_txtLen (v : QWord) : (s.setY v).txtLen = s.txtLen := rfl
@[simp] theorem setY_x0 (v : QWord) : (s.setY v).x0 = s.x0 := rfl
@[simp] theorem setY_x1 (v : QWord) : (s.setY v).x1 = s.x1 := rfl
@[simp] theorem setY_x2 (v : QWord) : (s.setY v).x2 = s.x2 := rfl
@[simp] theorem setY_x3 (v : QWord) : (s.setY v).x3 = s.x3 := rfl
@[simp] theorem setY_y0 (v : QWord) : (s.setY v).y0 = quadWord v 0 := rfl
@[simp] theorem setY_y1 (v : QWord) : (s.setY v).y1 = quadWord v 1 := rfl
@[simp] theorem setY_y2 (v : QWord) : (s.setY v).y2 = quadWord v 2 := rfl
@[simp] theorem setY_y3 (v : QWord) : (s.setY v).y3 = quadWord v 3 := rfl
@[simp] theorem setY_aux (v : QWord) : (s.setY v).aux = s.aux := rfl
@[simp] theorem setY_decInfo (v : QWord) : (s.setY v).decInfo = s.decInfo := rfl
@[simp] theorem setY_decExp (v : QWord) : (s.setY v).decExp = s.decExp := rfl
@[simp] theorem setY_outLen (v : QWord) : (s.setY v).outLen = s.outLen := rfl
@[simp] theorem setY_mem (v : QWord) : (s.setY v).mem = s.mem := rfl
@[simp] theorem setY_fault (v : QWord) : (s.setY v).fault = s.fault := rfl
@[simp] theorem setY_host (v : QWord) : (s.setY v).host = s.host := rfl
@[simp] theorem setY_turns (v : QWord) : (s.setY v).turns = s.turns := rfl
@[simp] theorem setY_draws (v : QWord) : (s.setY v).draws = s.draws := rfl

/-! ## `setAux` -/

@[simp] theorem setAux_cmd (v : Word) : (s.setAux v).cmd = s.cmd := rfl
@[simp] theorem setAux_status (v : Word) : (s.setAux v).status = s.status := rfl
@[simp] theorem setAux_opaLo (v : Word) : (s.setAux v).opaLo = s.opaLo := rfl
@[simp] theorem setAux_opaHi (v : Word) : (s.setAux v).opaHi = s.opaHi := rfl
@[simp] theorem setAux_opbLo (v : Word) : (s.setAux v).opbLo = s.opbLo := rfl
@[simp] theorem setAux_opbHi (v : Word) : (s.setAux v).opbHi = s.opbHi := rfl
@[simp] theorem setAux_expIn (v : Word) : (s.setAux v).expIn = s.expIn := rfl
@[simp] theorem setAux_txtLen (v : Word) : (s.setAux v).txtLen = s.txtLen := rfl
@[simp] theorem setAux_x0 (v : Word) : (s.setAux v).x0 = s.x0 := rfl
@[simp] theorem setAux_x1 (v : Word) : (s.setAux v).x1 = s.x1 := rfl
@[simp] theorem setAux_x2 (v : Word) : (s.setAux v).x2 = s.x2 := rfl
@[simp] theorem setAux_x3 (v : Word) : (s.setAux v).x3 = s.x3 := rfl
@[simp] theorem setAux_y0 (v : Word) : (s.setAux v).y0 = s.y0 := rfl
@[simp] theorem setAux_y1 (v : Word) : (s.setAux v).y1 = s.y1 := rfl
@[simp] theorem setAux_y2 (v : Word) : (s.setAux v).y2 = s.y2 := rfl
@[simp] theorem setAux_y3 (v : Word) : (s.setAux v).y3 = s.y3 := rfl
@[simp] theorem setAux_aux (v : Word) : (s.setAux v).aux = v := rfl
@[simp] theorem setAux_decInfo (v : Word) : (s.setAux v).decInfo = s.decInfo := rfl
@[simp] theorem setAux_decExp (v : Word) : (s.setAux v).decExp = s.decExp := rfl
@[simp] theorem setAux_outLen (v : Word) : (s.setAux v).outLen = s.outLen := rfl
@[simp] theorem setAux_mem (v : Word) : (s.setAux v).mem = s.mem := rfl
@[simp] theorem setAux_fault (v : Word) : (s.setAux v).fault = s.fault := rfl
@[simp] theorem setAux_host (v : Word) : (s.setAux v).host = s.host := rfl
@[simp] theorem setAux_turns (v : Word) : (s.setAux v).turns = s.turns := rfl
@[simp] theorem setAux_draws (v : Word) : (s.setAux v).draws = s.draws := rfl

/-! ## `setDecoded` -/

@[simp] theorem setDecoded_cmd (a b : Word) : (s.setDecoded a b).cmd = s.cmd := rfl
@[simp] theorem setDecoded_status (a b : Word) : (s.setDecoded a b).status = s.status := rfl
@[simp] theorem setDecoded_opaLo (a b : Word) : (s.setDecoded a b).opaLo = s.opaLo := rfl
@[simp] theorem setDecoded_opaHi (a b : Word) : (s.setDecoded a b).opaHi = s.opaHi := rfl
@[simp] theorem setDecoded_opbLo (a b : Word) : (s.setDecoded a b).opbLo = s.opbLo := rfl
@[simp] theorem setDecoded_opbHi (a b : Word) : (s.setDecoded a b).opbHi = s.opbHi := rfl
@[simp] theorem setDecoded_expIn (a b : Word) : (s.setDecoded a b).expIn = s.expIn := rfl
@[simp] theorem setDecoded_txtLen (a b : Word) : (s.setDecoded a b).txtLen = s.txtLen := rfl
@[simp] theorem setDecoded_x0 (a b : Word) : (s.setDecoded a b).x0 = s.x0 := rfl
@[simp] theorem setDecoded_x1 (a b : Word) : (s.setDecoded a b).x1 = s.x1 := rfl
@[simp] theorem setDecoded_x2 (a b : Word) : (s.setDecoded a b).x2 = s.x2 := rfl
@[simp] theorem setDecoded_x3 (a b : Word) : (s.setDecoded a b).x3 = s.x3 := rfl
@[simp] theorem setDecoded_y0 (a b : Word) : (s.setDecoded a b).y0 = s.y0 := rfl
@[simp] theorem setDecoded_y1 (a b : Word) : (s.setDecoded a b).y1 = s.y1 := rfl
@[simp] theorem setDecoded_y2 (a b : Word) : (s.setDecoded a b).y2 = s.y2 := rfl
@[simp] theorem setDecoded_y3 (a b : Word) : (s.setDecoded a b).y3 = s.y3 := rfl
@[simp] theorem setDecoded_aux (a b : Word) : (s.setDecoded a b).aux = s.aux := rfl
@[simp] theorem setDecoded_decInfo (a b : Word) : (s.setDecoded a b).decInfo = a := rfl
@[simp] theorem setDecoded_decExp (a b : Word) : (s.setDecoded a b).decExp = b := rfl
@[simp] theorem setDecoded_outLen (a b : Word) : (s.setDecoded a b).outLen = s.outLen := rfl
@[simp] theorem setDecoded_mem (a b : Word) : (s.setDecoded a b).mem = s.mem := rfl
@[simp] theorem setDecoded_fault (a b : Word) : (s.setDecoded a b).fault = s.fault := rfl
@[simp] theorem setDecoded_host (a b : Word) : (s.setDecoded a b).host = s.host := rfl
@[simp] theorem setDecoded_turns (a b : Word) : (s.setDecoded a b).turns = s.turns := rfl
@[simp] theorem setDecoded_draws (a b : Word) : (s.setDecoded a b).draws = s.draws := rfl

/-! ## `writeOut` -/

@[simp] theorem writeOut_cmd (l : List Byte) : (s.writeOut l).cmd = s.cmd := rfl
@[simp] theorem writeOut_status (l : List Byte) : (s.writeOut l).status = s.status := rfl
@[simp] theorem writeOut_opaLo (l : List Byte) : (s.writeOut l).opaLo = s.opaLo := rfl
@[simp] theorem writeOut_opaHi (l : List Byte) : (s.writeOut l).opaHi = s.opaHi := rfl
@[simp] theorem writeOut_opbLo (l : List Byte) : (s.writeOut l).opbLo = s.opbLo := rfl
@[simp] theorem writeOut_opbHi (l : List Byte) : (s.writeOut l).opbHi = s.opbHi := rfl
@[simp] theorem writeOut_expIn (l : List Byte) : (s.writeOut l).expIn = s.expIn := rfl
@[simp] theorem writeOut_txtLen (l : List Byte) : (s.writeOut l).txtLen = s.txtLen := rfl
@[simp] theorem writeOut_x0 (l : List Byte) : (s.writeOut l).x0 = s.x0 := rfl
@[simp] theorem writeOut_x1 (l : List Byte) : (s.writeOut l).x1 = s.x1 := rfl
@[simp] theorem writeOut_x2 (l : List Byte) : (s.writeOut l).x2 = s.x2 := rfl
@[simp] theorem writeOut_x3 (l : List Byte) : (s.writeOut l).x3 = s.x3 := rfl
@[simp] theorem writeOut_y0 (l : List Byte) : (s.writeOut l).y0 = s.y0 := rfl
@[simp] theorem writeOut_y1 (l : List Byte) : (s.writeOut l).y1 = s.y1 := rfl
@[simp] theorem writeOut_y2 (l : List Byte) : (s.writeOut l).y2 = s.y2 := rfl
@[simp] theorem writeOut_y3 (l : List Byte) : (s.writeOut l).y3 = s.y3 := rfl
@[simp] theorem writeOut_aux (l : List Byte) : (s.writeOut l).aux = s.aux := rfl
@[simp] theorem writeOut_decInfo (l : List Byte) : (s.writeOut l).decInfo = s.decInfo := rfl
@[simp] theorem writeOut_decExp (l : List Byte) : (s.writeOut l).decExp = s.decExp := rfl
@[simp] theorem writeOut_outLen (l : List Byte) : (s.writeOut l).outLen = BitVec.ofNat 32 l.length := rfl
@[simp] theorem writeOut_mem (l : List Byte) : (s.writeOut l).mem = s.mem.writeBytes Config.txtOutBase (outputBytes l) := by
  simp only [State.writeOut]
@[simp] theorem writeOut_fault (l : List Byte) : (s.writeOut l).fault = s.fault := rfl
@[simp] theorem writeOut_host (l : List Byte) : (s.writeOut l).host = s.host := rfl
@[simp] theorem writeOut_turns (l : List Byte) : (s.writeOut l).turns = s.turns := rfl
@[simp] theorem writeOut_draws (l : List Byte) : (s.writeOut l).draws = s.draws := rfl

/-! ## `complete` -/

@[simp] theorem complete_cmd : (complete s).cmd = s.cmd := rfl
@[simp] theorem complete_status : (complete s).status = statusCompleted s.status := rfl
@[simp] theorem complete_opaLo : (complete s).opaLo = s.opaLo := rfl
@[simp] theorem complete_opaHi : (complete s).opaHi = s.opaHi := rfl
@[simp] theorem complete_opbLo : (complete s).opbLo = s.opbLo := rfl
@[simp] theorem complete_opbHi : (complete s).opbHi = s.opbHi := rfl
@[simp] theorem complete_expIn : (complete s).expIn = s.expIn := rfl
@[simp] theorem complete_txtLen : (complete s).txtLen = s.txtLen := rfl
@[simp] theorem complete_x0 : (complete s).x0 = s.x0 := rfl
@[simp] theorem complete_x1 : (complete s).x1 = s.x1 := rfl
@[simp] theorem complete_x2 : (complete s).x2 = s.x2 := rfl
@[simp] theorem complete_x3 : (complete s).x3 = s.x3 := rfl
@[simp] theorem complete_y0 : (complete s).y0 = s.y0 := rfl
@[simp] theorem complete_y1 : (complete s).y1 = s.y1 := rfl
@[simp] theorem complete_y2 : (complete s).y2 = s.y2 := rfl
@[simp] theorem complete_y3 : (complete s).y3 = s.y3 := rfl
@[simp] theorem complete_aux : (complete s).aux = s.aux := rfl
@[simp] theorem complete_decInfo : (complete s).decInfo = s.decInfo := rfl
@[simp] theorem complete_decExp : (complete s).decExp = s.decExp := rfl
@[simp] theorem complete_outLen : (complete s).outLen = s.outLen := rfl
@[simp] theorem complete_mem : (complete s).mem = s.mem := rfl
@[simp] theorem complete_fault : (complete s).fault = s.fault := rfl
@[simp] theorem complete_host : (complete s).host = s.host := rfl
@[simp] theorem complete_turns : (complete s).turns = s.turns := rfl
@[simp] theorem complete_draws : (complete s).draws = s.draws := rfl

/-! ## `raiseError` -/

@[simp] theorem raiseError_cmd (c : ErrorCode) (k : SubCode) : (raiseError s c k).cmd = s.cmd := rfl
@[simp] theorem raiseError_status (c : ErrorCode) (k : SubCode) : (raiseError s c k).status = statusFailed c k := rfl
@[simp] theorem raiseError_opaLo (c : ErrorCode) (k : SubCode) : (raiseError s c k).opaLo = s.opaLo := rfl
@[simp] theorem raiseError_opaHi (c : ErrorCode) (k : SubCode) : (raiseError s c k).opaHi = s.opaHi := rfl
@[simp] theorem raiseError_opbLo (c : ErrorCode) (k : SubCode) : (raiseError s c k).opbLo = s.opbLo := rfl
@[simp] theorem raiseError_opbHi (c : ErrorCode) (k : SubCode) : (raiseError s c k).opbHi = s.opbHi := rfl
@[simp] theorem raiseError_expIn (c : ErrorCode) (k : SubCode) : (raiseError s c k).expIn = s.expIn := rfl
@[simp] theorem raiseError_txtLen (c : ErrorCode) (k : SubCode) : (raiseError s c k).txtLen = s.txtLen := rfl
@[simp] theorem raiseError_x0 (c : ErrorCode) (k : SubCode) : (raiseError s c k).x0 = s.x0 := rfl
@[simp] theorem raiseError_x1 (c : ErrorCode) (k : SubCode) : (raiseError s c k).x1 = s.x1 := rfl
@[simp] theorem raiseError_x2 (c : ErrorCode) (k : SubCode) : (raiseError s c k).x2 = s.x2 := rfl
@[simp] theorem raiseError_x3 (c : ErrorCode) (k : SubCode) : (raiseError s c k).x3 = s.x3 := rfl
@[simp] theorem raiseError_y0 (c : ErrorCode) (k : SubCode) : (raiseError s c k).y0 = s.y0 := rfl
@[simp] theorem raiseError_y1 (c : ErrorCode) (k : SubCode) : (raiseError s c k).y1 = s.y1 := rfl
@[simp] theorem raiseError_y2 (c : ErrorCode) (k : SubCode) : (raiseError s c k).y2 = s.y2 := rfl
@[simp] theorem raiseError_y3 (c : ErrorCode) (k : SubCode) : (raiseError s c k).y3 = s.y3 := rfl
@[simp] theorem raiseError_aux (c : ErrorCode) (k : SubCode) : (raiseError s c k).aux = s.aux := rfl
@[simp] theorem raiseError_decInfo (c : ErrorCode) (k : SubCode) : (raiseError s c k).decInfo = s.decInfo := rfl
@[simp] theorem raiseError_decExp (c : ErrorCode) (k : SubCode) : (raiseError s c k).decExp = s.decExp := rfl
@[simp] theorem raiseError_outLen (c : ErrorCode) (k : SubCode) : (raiseError s c k).outLen = s.outLen := rfl
@[simp] theorem raiseError_mem (c : ErrorCode) (k : SubCode) : (raiseError s c k).mem = s.mem := rfl
@[simp] theorem raiseError_fault (c : ErrorCode) (k : SubCode) : (raiseError s c k).fault = s.fault := rfl
@[simp] theorem raiseError_host (c : ErrorCode) (k : SubCode) : (raiseError s c k).host = s.host := rfl
@[simp] theorem raiseError_turns (c : ErrorCode) (k : SubCode) : (raiseError s c k).turns = s.turns := rfl
@[simp] theorem raiseError_draws (c : ErrorCode) (k : SubCode) : (raiseError s c k).draws = s.draws := rfl

/-! ## `accept` -/

@[simp] theorem accept_cmd (w : Word) : (s.accept w).cmd = w := rfl
@[simp] theorem accept_status (w : Word) : (s.accept w).status = statusAccepted := rfl
@[simp] theorem accept_opaLo (w : Word) : (s.accept w).opaLo = s.opaLo := rfl
@[simp] theorem accept_opaHi (w : Word) : (s.accept w).opaHi = s.opaHi := rfl
@[simp] theorem accept_opbLo (w : Word) : (s.accept w).opbLo = s.opbLo := rfl
@[simp] theorem accept_opbHi (w : Word) : (s.accept w).opbHi = s.opbHi := rfl
@[simp] theorem accept_expIn (w : Word) : (s.accept w).expIn = s.expIn := rfl
@[simp] theorem accept_txtLen (w : Word) : (s.accept w).txtLen = s.txtLen := rfl
@[simp] theorem accept_x0 (w : Word) : (s.accept w).x0 = s.x0 := rfl
@[simp] theorem accept_x1 (w : Word) : (s.accept w).x1 = s.x1 := rfl
@[simp] theorem accept_x2 (w : Word) : (s.accept w).x2 = s.x2 := rfl
@[simp] theorem accept_x3 (w : Word) : (s.accept w).x3 = s.x3 := rfl
@[simp] theorem accept_y0 (w : Word) : (s.accept w).y0 = s.y0 := rfl
@[simp] theorem accept_y1 (w : Word) : (s.accept w).y1 = s.y1 := rfl
@[simp] theorem accept_y2 (w : Word) : (s.accept w).y2 = s.y2 := rfl
@[simp] theorem accept_y3 (w : Word) : (s.accept w).y3 = s.y3 := rfl
@[simp] theorem accept_aux (w : Word) : (s.accept w).aux = s.aux := rfl
@[simp] theorem accept_decInfo (w : Word) : (s.accept w).decInfo = s.decInfo := rfl
@[simp] theorem accept_decExp (w : Word) : (s.accept w).decExp = s.decExp := rfl
@[simp] theorem accept_outLen (w : Word) : (s.accept w).outLen = s.outLen := rfl
@[simp] theorem accept_mem (w : Word) : (s.accept w).mem = s.mem := rfl
@[simp] theorem accept_fault (w : Word) : (s.accept w).fault = s.fault := rfl
@[simp] theorem accept_host (w : Word) : (s.accept w).host = s.host := rfl
@[simp] theorem accept_turns (w : Word) : (s.accept w).turns =
    Config.codecLatency s.draws w s.operandWords s.operandText := rfl
@[simp] theorem accept_draws (w : Word) : (s.accept w).draws = s.draws + 1 := rfl

/-! ## `mark` -/

@[simp] theorem mark_cmd (f : Fault) : (s.mark f).cmd = s.cmd := rfl
@[simp] theorem mark_status (f : Fault) : (s.mark f).status = s.status := rfl
@[simp] theorem mark_opaLo (f : Fault) : (s.mark f).opaLo = s.opaLo := rfl
@[simp] theorem mark_opaHi (f : Fault) : (s.mark f).opaHi = s.opaHi := rfl
@[simp] theorem mark_opbLo (f : Fault) : (s.mark f).opbLo = s.opbLo := rfl
@[simp] theorem mark_opbHi (f : Fault) : (s.mark f).opbHi = s.opbHi := rfl
@[simp] theorem mark_expIn (f : Fault) : (s.mark f).expIn = s.expIn := rfl
@[simp] theorem mark_txtLen (f : Fault) : (s.mark f).txtLen = s.txtLen := rfl
@[simp] theorem mark_x0 (f : Fault) : (s.mark f).x0 = s.x0 := rfl
@[simp] theorem mark_x1 (f : Fault) : (s.mark f).x1 = s.x1 := rfl
@[simp] theorem mark_x2 (f : Fault) : (s.mark f).x2 = s.x2 := rfl
@[simp] theorem mark_x3 (f : Fault) : (s.mark f).x3 = s.x3 := rfl
@[simp] theorem mark_y0 (f : Fault) : (s.mark f).y0 = s.y0 := rfl
@[simp] theorem mark_y1 (f : Fault) : (s.mark f).y1 = s.y1 := rfl
@[simp] theorem mark_y2 (f : Fault) : (s.mark f).y2 = s.y2 := rfl
@[simp] theorem mark_y3 (f : Fault) : (s.mark f).y3 = s.y3 := rfl
@[simp] theorem mark_aux (f : Fault) : (s.mark f).aux = s.aux := rfl
@[simp] theorem mark_decInfo (f : Fault) : (s.mark f).decInfo = s.decInfo := rfl
@[simp] theorem mark_decExp (f : Fault) : (s.mark f).decExp = s.decExp := rfl
@[simp] theorem mark_outLen (f : Fault) : (s.mark f).outLen = s.outLen := rfl
@[simp] theorem mark_mem (f : Fault) : (s.mark f).mem = s.mem := rfl
@[simp] theorem mark_fault (f : Fault) : (s.mark f).fault = some f := rfl
@[simp] theorem mark_host (f : Fault) : (s.mark f).host = s.host := rfl
@[simp] theorem mark_turns (f : Fault) : (s.mark f).turns = s.turns := rfl
@[simp] theorem mark_draws (f : Fault) : (s.mark f).draws = s.draws := rfl

/-! ## Register views -/

/-- `R[X]` after `R[X] <- v`. -/
@[simp] theorem setX_x (v : QWord) : (s.setX v).x = v := quadWord_join v

/-- `R[Y]` after `R[Y] <- v`. -/
@[simp] theorem setY_y (v : QWord) : (s.setY v).y = v := quadWord_join v

@[simp] theorem complete_x : (complete s).x = s.x := by unfold State.x; rfl
@[simp] theorem complete_y : (complete s).y = s.y := by unfold State.y; rfl
@[simp] theorem setAux_y (v : Word) : (s.setAux v).y = s.y := by unfold State.y; rfl
@[simp] theorem setDecoded_y (a b : Word) : (s.setDecoded a b).y = s.y := by unfold State.y; rfl

/-! ## The host's own updates change nothing of the block -/

@[simp] theorem withOps_cmd (l : List HostOp) : (s.withOps l).cmd = s.cmd := rfl
@[simp] theorem withOps_status (l : List HostOp) : (s.withOps l).status = s.status := rfl
@[simp] theorem withOps_opaLo (l : List HostOp) : (s.withOps l).opaLo = s.opaLo := rfl
@[simp] theorem withOps_opaHi (l : List HostOp) : (s.withOps l).opaHi = s.opaHi := rfl
@[simp] theorem withOps_opbLo (l : List HostOp) : (s.withOps l).opbLo = s.opbLo := rfl
@[simp] theorem withOps_opbHi (l : List HostOp) : (s.withOps l).opbHi = s.opbHi := rfl
@[simp] theorem withOps_expIn (l : List HostOp) : (s.withOps l).expIn = s.expIn := rfl
@[simp] theorem withOps_txtLen (l : List HostOp) : (s.withOps l).txtLen = s.txtLen := rfl
@[simp] theorem withOps_x0 (l : List HostOp) : (s.withOps l).x0 = s.x0 := rfl
@[simp] theorem withOps_x1 (l : List HostOp) : (s.withOps l).x1 = s.x1 := rfl
@[simp] theorem withOps_x2 (l : List HostOp) : (s.withOps l).x2 = s.x2 := rfl
@[simp] theorem withOps_x3 (l : List HostOp) : (s.withOps l).x3 = s.x3 := rfl
@[simp] theorem withOps_y0 (l : List HostOp) : (s.withOps l).y0 = s.y0 := rfl
@[simp] theorem withOps_y1 (l : List HostOp) : (s.withOps l).y1 = s.y1 := rfl
@[simp] theorem withOps_y2 (l : List HostOp) : (s.withOps l).y2 = s.y2 := rfl
@[simp] theorem withOps_y3 (l : List HostOp) : (s.withOps l).y3 = s.y3 := rfl
@[simp] theorem withOps_aux (l : List HostOp) : (s.withOps l).aux = s.aux := rfl
@[simp] theorem withOps_decInfo (l : List HostOp) : (s.withOps l).decInfo = s.decInfo := rfl
@[simp] theorem withOps_decExp (l : List HostOp) : (s.withOps l).decExp = s.decExp := rfl
@[simp] theorem withOps_outLen (l : List HostOp) : (s.withOps l).outLen = s.outLen := rfl
@[simp] theorem withOps_mem (l : List HostOp) : (s.withOps l).mem = s.mem := rfl
@[simp] theorem withOps_fault (l : List HostOp) : (s.withOps l).fault = s.fault := rfl
@[simp] theorem withOps_turns (l : List HostOp) : (s.withOps l).turns = s.turns := rfl
@[simp] theorem withOps_draws (l : List HostOp) : (s.withOps l).draws = s.draws := rfl
@[simp] theorem observe_cmd (o : Nat) (v : Word) : (s.observe o v).cmd = s.cmd := rfl
@[simp] theorem observe_status (o : Nat) (v : Word) : (s.observe o v).status = s.status := rfl
@[simp] theorem observe_opaLo (o : Nat) (v : Word) : (s.observe o v).opaLo = s.opaLo := rfl
@[simp] theorem observe_opaHi (o : Nat) (v : Word) : (s.observe o v).opaHi = s.opaHi := rfl
@[simp] theorem observe_opbLo (o : Nat) (v : Word) : (s.observe o v).opbLo = s.opbLo := rfl
@[simp] theorem observe_opbHi (o : Nat) (v : Word) : (s.observe o v).opbHi = s.opbHi := rfl
@[simp] theorem observe_expIn (o : Nat) (v : Word) : (s.observe o v).expIn = s.expIn := rfl
@[simp] theorem observe_txtLen (o : Nat) (v : Word) : (s.observe o v).txtLen = s.txtLen := rfl
@[simp] theorem observe_x0 (o : Nat) (v : Word) : (s.observe o v).x0 = s.x0 := rfl
@[simp] theorem observe_x1 (o : Nat) (v : Word) : (s.observe o v).x1 = s.x1 := rfl
@[simp] theorem observe_x2 (o : Nat) (v : Word) : (s.observe o v).x2 = s.x2 := rfl
@[simp] theorem observe_x3 (o : Nat) (v : Word) : (s.observe o v).x3 = s.x3 := rfl
@[simp] theorem observe_y0 (o : Nat) (v : Word) : (s.observe o v).y0 = s.y0 := rfl
@[simp] theorem observe_y1 (o : Nat) (v : Word) : (s.observe o v).y1 = s.y1 := rfl
@[simp] theorem observe_y2 (o : Nat) (v : Word) : (s.observe o v).y2 = s.y2 := rfl
@[simp] theorem observe_y3 (o : Nat) (v : Word) : (s.observe o v).y3 = s.y3 := rfl
@[simp] theorem observe_aux (o : Nat) (v : Word) : (s.observe o v).aux = s.aux := rfl
@[simp] theorem observe_decInfo (o : Nat) (v : Word) : (s.observe o v).decInfo = s.decInfo := rfl
@[simp] theorem observe_decExp (o : Nat) (v : Word) : (s.observe o v).decExp = s.decExp := rfl
@[simp] theorem observe_outLen (o : Nat) (v : Word) : (s.observe o v).outLen = s.outLen := rfl
@[simp] theorem observe_mem (o : Nat) (v : Word) : (s.observe o v).mem = s.mem := rfl
@[simp] theorem observe_fault (o : Nat) (v : Word) : (s.observe o v).fault = s.fault := rfl
@[simp] theorem observe_turns (o : Nat) (v : Word) : (s.observe o v).turns = s.turns := rfl
@[simp] theorem observe_draws (o : Nat) (v : Word) : (s.observe o v).draws = s.draws := rfl
@[simp] theorem keep_cmd (v : Word) : (s.keep v).cmd = s.cmd := rfl
@[simp] theorem keep_status (v : Word) : (s.keep v).status = s.status := rfl
@[simp] theorem keep_opaLo (v : Word) : (s.keep v).opaLo = s.opaLo := rfl
@[simp] theorem keep_opaHi (v : Word) : (s.keep v).opaHi = s.opaHi := rfl
@[simp] theorem keep_opbLo (v : Word) : (s.keep v).opbLo = s.opbLo := rfl
@[simp] theorem keep_opbHi (v : Word) : (s.keep v).opbHi = s.opbHi := rfl
@[simp] theorem keep_expIn (v : Word) : (s.keep v).expIn = s.expIn := rfl
@[simp] theorem keep_txtLen (v : Word) : (s.keep v).txtLen = s.txtLen := rfl
@[simp] theorem keep_x0 (v : Word) : (s.keep v).x0 = s.x0 := rfl
@[simp] theorem keep_x1 (v : Word) : (s.keep v).x1 = s.x1 := rfl
@[simp] theorem keep_x2 (v : Word) : (s.keep v).x2 = s.x2 := rfl
@[simp] theorem keep_x3 (v : Word) : (s.keep v).x3 = s.x3 := rfl
@[simp] theorem keep_y0 (v : Word) : (s.keep v).y0 = s.y0 := rfl
@[simp] theorem keep_y1 (v : Word) : (s.keep v).y1 = s.y1 := rfl
@[simp] theorem keep_y2 (v : Word) : (s.keep v).y2 = s.y2 := rfl
@[simp] theorem keep_y3 (v : Word) : (s.keep v).y3 = s.y3 := rfl
@[simp] theorem keep_aux (v : Word) : (s.keep v).aux = s.aux := rfl
@[simp] theorem keep_decInfo (v : Word) : (s.keep v).decInfo = s.decInfo := rfl
@[simp] theorem keep_decExp (v : Word) : (s.keep v).decExp = s.decExp := rfl
@[simp] theorem keep_outLen (v : Word) : (s.keep v).outLen = s.outLen := rfl
@[simp] theorem keep_mem (v : Word) : (s.keep v).mem = s.mem := rfl
@[simp] theorem keep_fault (v : Word) : (s.keep v).fault = s.fault := rfl
@[simp] theorem keep_turns (v : Word) : (s.keep v).turns = s.turns := rfl
@[simp] theorem keep_draws (v : Word) : (s.keep v).draws = s.draws := rfl
@[simp] theorem dropKept_cmd : (s.dropKept).cmd = s.cmd := rfl
@[simp] theorem dropKept_status : (s.dropKept).status = s.status := rfl
@[simp] theorem dropKept_opaLo : (s.dropKept).opaLo = s.opaLo := rfl
@[simp] theorem dropKept_opaHi : (s.dropKept).opaHi = s.opaHi := rfl
@[simp] theorem dropKept_opbLo : (s.dropKept).opbLo = s.opbLo := rfl
@[simp] theorem dropKept_opbHi : (s.dropKept).opbHi = s.opbHi := rfl
@[simp] theorem dropKept_expIn : (s.dropKept).expIn = s.expIn := rfl
@[simp] theorem dropKept_txtLen : (s.dropKept).txtLen = s.txtLen := rfl
@[simp] theorem dropKept_x0 : (s.dropKept).x0 = s.x0 := rfl
@[simp] theorem dropKept_x1 : (s.dropKept).x1 = s.x1 := rfl
@[simp] theorem dropKept_x2 : (s.dropKept).x2 = s.x2 := rfl
@[simp] theorem dropKept_x3 : (s.dropKept).x3 = s.x3 := rfl
@[simp] theorem dropKept_y0 : (s.dropKept).y0 = s.y0 := rfl
@[simp] theorem dropKept_y1 : (s.dropKept).y1 = s.y1 := rfl
@[simp] theorem dropKept_y2 : (s.dropKept).y2 = s.y2 := rfl
@[simp] theorem dropKept_y3 : (s.dropKept).y3 = s.y3 := rfl
@[simp] theorem dropKept_aux : (s.dropKept).aux = s.aux := rfl
@[simp] theorem dropKept_decInfo : (s.dropKept).decInfo = s.decInfo := rfl
@[simp] theorem dropKept_decExp : (s.dropKept).decExp = s.decExp := rfl
@[simp] theorem dropKept_outLen : (s.dropKept).outLen = s.outLen := rfl
@[simp] theorem dropKept_mem : (s.dropKept).mem = s.mem := rfl
@[simp] theorem dropKept_fault : (s.dropKept).fault = s.fault := rfl
@[simp] theorem dropKept_turns : (s.dropKept).turns = s.turns := rfl
@[simp] theorem dropKept_draws : (s.dropKept).draws = s.draws := rfl
@[simp] theorem branch_cmd (l : Nat) : (s.branch l).cmd = s.cmd := rfl
@[simp] theorem branch_status (l : Nat) : (s.branch l).status = s.status := rfl
@[simp] theorem branch_opaLo (l : Nat) : (s.branch l).opaLo = s.opaLo := rfl
@[simp] theorem branch_opaHi (l : Nat) : (s.branch l).opaHi = s.opaHi := rfl
@[simp] theorem branch_opbLo (l : Nat) : (s.branch l).opbLo = s.opbLo := rfl
@[simp] theorem branch_opbHi (l : Nat) : (s.branch l).opbHi = s.opbHi := rfl
@[simp] theorem branch_expIn (l : Nat) : (s.branch l).expIn = s.expIn := rfl
@[simp] theorem branch_txtLen (l : Nat) : (s.branch l).txtLen = s.txtLen := rfl
@[simp] theorem branch_x0 (l : Nat) : (s.branch l).x0 = s.x0 := rfl
@[simp] theorem branch_x1 (l : Nat) : (s.branch l).x1 = s.x1 := rfl
@[simp] theorem branch_x2 (l : Nat) : (s.branch l).x2 = s.x2 := rfl
@[simp] theorem branch_x3 (l : Nat) : (s.branch l).x3 = s.x3 := rfl
@[simp] theorem branch_y0 (l : Nat) : (s.branch l).y0 = s.y0 := rfl
@[simp] theorem branch_y1 (l : Nat) : (s.branch l).y1 = s.y1 := rfl
@[simp] theorem branch_y2 (l : Nat) : (s.branch l).y2 = s.y2 := rfl
@[simp] theorem branch_y3 (l : Nat) : (s.branch l).y3 = s.y3 := rfl
@[simp] theorem branch_aux (l : Nat) : (s.branch l).aux = s.aux := rfl
@[simp] theorem branch_decInfo (l : Nat) : (s.branch l).decInfo = s.decInfo := rfl
@[simp] theorem branch_decExp (l : Nat) : (s.branch l).decExp = s.decExp := rfl
@[simp] theorem branch_outLen (l : Nat) : (s.branch l).outLen = s.outLen := rfl
@[simp] theorem branch_mem (l : Nat) : (s.branch l).mem = s.mem := rfl
@[simp] theorem branch_fault (l : Nat) : (s.branch l).fault = s.fault := rfl
@[simp] theorem branch_turns (l : Nat) : (s.branch l).turns = s.turns := rfl
@[simp] theorem branch_draws (l : Nat) : (s.branch l).draws = s.draws := rfl

@[simp] theorem withOps_reg (l : List HostOp) (r : RegName) : (s.withOps l).reg r = s.reg r := by cases r <;> rfl
@[simp] theorem observe_reg (o : Nat) (v : Word) (r : RegName) : (s.observe o v).reg r = s.reg r := by cases r <;> rfl
@[simp] theorem keep_reg (v : Word) (r : RegName) : (s.keep v).reg r = s.reg r := by cases r <;> rfl
@[simp] theorem dropKept_reg (r : RegName) : s.dropKept.reg r = s.reg r := by cases r <;> rfl
@[simp] theorem branch_reg (l : Nat) (r : RegName) : (s.branch l).reg r = s.reg r := by cases r <;> rfl

@[simp] theorem afterRead_idle (h : busyBit s.status = false) : s.afterRead = s := by simp [State.afterRead, h]

theorem afterRead_busy (h : busyBit s.status = true) : s.afterRead = { s with draws := s.draws + 1 } := by
  simp [State.afterRead, h]

/-- A read leaves every register of the block as it was. -/
@[simp] theorem afterRead_reg (r : RegName) : s.afterRead.reg r = s.reg r := by
  unfold State.afterRead; split <;> cases r <;> rfl

@[simp] theorem afterRead_mem : s.afterRead.mem = s.mem := by unfold State.afterRead; split <;> rfl
@[simp] theorem afterRead_status : s.afterRead.status = s.status := by unfold State.afterRead; split <;> rfl
@[simp] theorem afterRead_fault : s.afterRead.fault = s.fault := by unfold State.afterRead; split <;> rfl
@[simp] theorem afterRead_host : s.afterRead.host = s.host := by unfold State.afterRead; split <;> rfl
@[simp] theorem afterRead_turns : s.afterRead.turns = s.turns := by unfold State.afterRead; split <;> rfl

end Sys2Proof.Machine
end

