-- ==== Sys2Proof/Laws/Bus.lean ====
section
/-! SUPPORT. The laws of the host's accesses: which are legal, and what each legal read or write does. -/

namespace Sys2Proof.Machine

theorem mem_allRegs (r : RegName) : r ∈ allRegs := by cases r <;> decide

/-- A register's own offset reaches it. -/
@[simp] theorem legalPlace_reg (r : RegName) : legalPlace r.offset 32 = some (.reg r) := by
  cases r <;> decide

/-- Word `m` of TXT_IN. -/
theorem legalPlace_txtIn {m : Nat} (h : m < 1750) : legalPlace (0x2000 + 4 * m) 32 = some (.txtIn (4 * m)) := by
  have h1 : (0x2000 + 4 * m) % 4 = 0 := by omega
  have h2 : 0x2000 ≤ 0x2000 + 4 * m ∧ 0x2000 + 4 * m < 0x2000 + 7000 := by omega
  simp only [legalPlace, placeAt, Config.txtInBase, Config.txtInSize, h1, and_self, if_true]
  rw [if_pos h2, Nat.add_sub_cancel_left]

/-- Word `m` of TXT_OUT. -/
theorem legalPlace_txtOut {m : Nat} (h : m < 16) : legalPlace (0x100 + 4 * m) 32 = some (.txtOut (4 * m)) := by
  have h1 : (0x100 + 4 * m) % 4 = 0 := by omega
  have h0 : ¬ (0x2000 ≤ 0x100 + 4 * m ∧ 0x100 + 4 * m < 0x2000 + 7000) := by omega
  have h2 : 0x100 ≤ 0x100 + 4 * m ∧ 0x100 + 4 * m < 0x100 + 64 := by omega
  simp only [legalPlace, placeAt, Config.txtInBase, Config.txtInSize, Config.txtOutBase, Config.txtOutSize, h1, and_self,
    if_true]
  rw [if_neg h0, if_pos h2, Nat.add_sub_cancel_left]

/-- Every register lies below 0x50, at a multiple of 4. -/
theorem regAt_none_of_le {offset : Nat} (h : 0x50 ≤ offset) : regAt offset = none := by
  rw [regAt, List.find?_eq_none]
  intro r _
  cases r <;> simp [RegName.offset] <;> omega

theorem regAt_some_of_lt {offset : Nat} (h : offset < 0x50) (h4 : offset % 4 = 0) : ∃ r, regAt offset = some r := by
  have : ∃ q, offset = 4 * q ∧ q < 20 := ⟨offset / 4, by omega, by omega⟩
  obtain ⟨q, rfl, hq⟩ := this
  interval_cases q <;> exact ⟨_, rfl⟩

theorem offset_of_regAt {offset : Nat} {r : RegName} (h : regAt offset = some r) : r.offset = offset := by
  have := List.find?_some h
  simpa using this

/-- The three ways a legal place comes about: everything `legalPlace` can answer. -/
theorem legalPlace_cases {offset width : Nat} {p : Place} (h : legalPlace offset width = some p) :
    width = 32 ∧ offset % 4 = 0 ∧ p.offset = offset ∧
      ((∃ r, p = .reg r) ∨ (∃ m, p = .txtOut (4 * m) ∧ m < 16) ∨ ∃ m, p = .txtIn (4 * m) ∧ m < 1750) := by
  simp only [legalPlace] at h
  split at h
  · rename_i hw
    obtain ⟨rfl, h4⟩ := hw
    refine ⟨rfl, h4, ?_⟩
    simp only [placeAt, Config.txtInBase, Config.txtInSize, Config.txtOutBase, Config.txtOutSize] at h
    split at h
    · rename_i hi
      obtain rfl := Option.some.inj h
      refine ⟨by simp only [Place.offset, Config.txtInBase]; omega, .inr (.inr ⟨(offset - 0x2000) / 4, ?_, by omega⟩)⟩
      rw [show 4 * ((offset - 0x2000) / 4) = offset - 0x2000 by omega]
    · split at h
      · rename_i ho
        obtain rfl := Option.some.inj h
        refine ⟨by simp only [Place.offset, Config.txtOutBase]; omega, .inr (.inl ⟨(offset - 0x100) / 4, ?_, by omega⟩)⟩
        rw [show 4 * ((offset - 0x100) / 4) = offset - 0x100 by omega]
      · cases hr : regAt offset with
        | none => rw [hr] at h; simp at h
        | some r =>
          rw [hr] at h
          obtain rfl : Place.reg r = p := by simpa using h
          exact ⟨offset_of_regAt hr, .inl ⟨r, rfl⟩⟩
  · simp at h

/-- Inside the window, the accesses without a place are the illegal ones (R65, R66). -/
theorem legalPlace_eq_none_iff {offset width : Nat} (hw : offset < 0x4000) :
    legalPlace offset width = none ↔ IllegalAccess offset width := by
  simp only [legalPlace, IllegalAccess]
  by_cases h : width = 32 ∧ offset % 4 = 0
  · obtain ⟨rfl, h4⟩ := h
    simp only [h4, and_self, if_true, ne_eq, not_true_eq_false, false_or]
    simp only [placeAt, Config.txtInBase, Config.txtInSize, Config.txtOutBase, Config.txtOutSize, Unmapped]
    split
    · simp; omega
    · split
      · simp; omega
      · by_cases h50 : offset < 0x50
        · obtain ⟨r, hr⟩ := regAt_some_of_lt h50 h4
          simp [hr]; omega
        · rw [regAt_none_of_le (by omega)]
          simp; omega
  · rw [if_neg h]
    simp only [true_iff]
    by_cases h1 : width = 32
    · exact .inr (.inl fun h4 => h ⟨h1, h4⟩)
    · exact .inl h1

/-- A legal read returns the word's value and leaves all but the draws. -/
theorem hostRead_of_place {s : State} {offset width : Nat} {p : Place} (h : legalPlace offset width = some p) :
    hostRead s offset width = .ok (s.peek p, s.afterRead) := by simp [hostRead, h]

/-- What a host read can answer. -/
theorem hostRead_ok {s t : State} {offset width : Nat} {v : Word} (h : hostRead s offset width = .ok (v, t)) :
    ∃ p, legalPlace offset width = some p ∧ v = s.peek p ∧ t = s.afterRead := by
  simp only [hostRead] at h
  split at h
  · simp at h
  · rename_i p hp
    simp only [Except.ok.injEq, Prod.mk.injEq] at h
    exact ⟨p, hp, h.1.symm, h.2.symm⟩

/-- What a host write can answer when it is carried out. -/
theorem hostWrite_ok {s t : State} {offset width : Nat} {v : Word} (h : hostWrite s offset width v = .ok t) :
    ∃ p, legalPlace offset width = some p ∧ busyBit s.status = false ∧ t = s.poke p v := by
  simp only [hostWrite] at h
  split at h
  · simp at h
  · rename_i p hp
    split at h
    · simp at h
    · rename_i hb
      simp only [Except.ok.injEq] at h
      exact ⟨p, hp, by simpa using hb, h.symm⟩

/-- A legal write on an idle block is carried out. -/
theorem hostWrite_of_place {s : State} {offset width : Nat} {p : Place} {v : Word}
    (h : legalPlace offset width = some p) (hb : busyBit s.status = false) :
    hostWrite s offset width v = .ok (s.poke p v) := by simp [hostWrite, h, hb]

/-- On an idle block nothing is in flux. -/
@[simp] theorem inFlux_idle {s : State} (h : busyBit s.status = false) (p : Place) : s.inFlux p = false := by
  simp [State.inFlux, h]

/-- A register read on an idle block returns the register. -/
theorem peek_reg_idle {s : State} (h : busyBit s.status = false) (r : RegName) : s.peek (.reg r) = s.reg r := by
  simp [State.peek, State.held, h]

/-- Reading a word that is not in flux returns what it holds (R281). -/
theorem peek_of_not_inFlux {s : State} {p : Place} (h : s.inFlux p = false) : s.peek p = s.held p := by
  simp [State.peek, h]

/-- TOO_LONG's latency is drawn without a byte of TXT_IN (spec/70_reset_and_hazards.md R291). -/
theorem operandText_tooLong {s : State} (h : 7000 ≤ s.textLength) : s.operandText = [] := by
  rw [State.operandText, if_neg (by simp only [Config.lenLim]; omega)]

/-- What a write of a register does to the registers: CMD issues a command; an RW register takes the value. -/
theorem writeReg_reg {s : State} {r : RegName} (h : r.writable = true) (hc : r ≠ .cmd) (v : Word) (q : RegName) :
    (s.writeReg r v).reg q = if q = r then v else s.reg q := by
  cases r <;> first | (exact absurd rfl hc) | (simp [RegName.writable] at h; done) | (cases q <;> rfl)

/-- A write of a register other than CMD changes nothing but registers. -/
theorem writeReg_frame {s : State} {r : RegName} (hc : r ≠ .cmd) (v : Word) :
    (s.writeReg r v).mem = s.mem ∧ (s.writeReg r v).fault = s.fault ∧ (s.writeReg r v).host = s.host ∧
      (s.writeReg r v).turns = s.turns ∧ (s.writeReg r v).draws = s.draws ∧ (s.writeReg r v).status = s.status := by
  cases r <;> first | (exact absurd rfl hc) | (exact ⟨rfl, rfl, rfl, rfl, rfl, rfl⟩)

/-- A write of a read-only register does nothing (R43). -/
theorem writeReg_readOnly {s : State} {r : RegName} (h : r.writable = false) (v : Word) : s.writeReg r v = s := by
  cases r <;> first | (simp [RegName.writable] at h; done) | rfl

@[simp] theorem poke_txtIn_reg (s : State) (k : Nat) (v : Word) (r : RegName) : (s.poke (.txtIn k) v).reg r = s.reg r := by
  cases r <;> rfl

end Sys2Proof.Machine
end

