-- ==== Sys2Proof/Laws/Text.lean ====
section
/-! SUPPORT. The laws of digit strings: `int`, `dec`, and the bytes of digits (spec/00_scope.md R11). -/

namespace Sys2Proof.Machine

theorem digitsNumber_append (acc : Nat) (xs ys : List Nat) :
    digitsNumber acc (xs ++ ys) = digitsNumber (digitsNumber acc xs) ys := by
  induction xs generalizing acc with
  | nil => rfl
  | cons x xs ih => exact ih (10 * acc + x)

theorem digitsNumber_eq (acc : Nat) (ds : List Nat) :
    digitsNumber acc ds = acc * 10 ^ ds.length + intOf ds := by
  induction ds generalizing acc with
  | nil => simp [digitsNumber, intOf]
  | cons d ds ih =>
    have h1 := ih (10 * acc + d)
    have h2 := ih (10 * 0 + d)
    simp only [intOf, digitsNumber, List.length_cons] at *
    rw [h1, h2]
    ring

/-- `int` of a concatenation. -/
theorem intOf_append (xs ys : List Nat) : intOf (xs ++ ys) = intOf xs * 10 ^ ys.length + intOf ys := by
  rw [intOf, digitsNumber_append, digitsNumber_eq]; rfl

@[simp] theorem intOf_nil : intOf [] = 0 := rfl

theorem intOf_cons (d : Nat) (ds : List Nat) : intOf (d :: ds) = d * 10 ^ ds.length + intOf ds := by
  have := intOf_append [d] ds
  simpa [intOf, digitsNumber] using this

/-- A digit string of length `n` denotes a number below `10^n`. -/
theorem intOf_lt {ds : List Nat} (h : ∀ d ∈ ds, d < 10) : intOf ds < 10 ^ ds.length := by
  induction ds with
  | nil => simp
  | cons d ds ih =>
    have hd := h d (by simp)
    have := ih (fun x hx => h x (by simp [hx]))
    rw [intOf_cons, List.length_cons, pow_succ]
    nlinarith

/-- A digit string that does not begin with 0 denotes at least `10^(n-1)`. -/
theorem le_intOf {d : Nat} {ds : List Nat} (h : d ≠ 0) : 10 ^ ds.length ≤ intOf (d :: ds) := by
  rw [intOf_cons]
  have : 1 ≤ d := by omega
  nlinarith [Nat.zero_le (intOf ds), Nat.zero_le (10 ^ ds.length)]

/-- Leading zeros do not change the number (R132). -/
theorem intOf_significant (ds : List Nat) : intOf (significant ds) = intOf ds := by
  induction ds with
  | nil => rfl
  | cons d ds ih =>
    by_cases h : d = 0
    · subst h
      simp only [significant, List.dropWhile_cons, beq_self_eq_true, if_true] at *
      rw [ih, intOf_cons]; simp
    · simp [significant, h]

/-- What the division loop does with enough fuel: the digits of `n`, without leading zeros, before `acc`. -/
theorem digitsInto_spec (f : Nat) : ∀ n acc, n < 2 ^ (f + 1) → ∃ ds, digitsInto (f + 1) n acc = ds ++ acc ∧
    (∀ d ∈ ds, d < 10) ∧ intOf ds = n ∧ ds ≠ [] ∧ (n ≠ 0 → ds.head? ≠ some 0) ∧ (n = 0 → ds = [0]) := by
  induction f with
  | zero =>
    intro n acc h
    have h10 : n < 10 := by omega
    refine ⟨[n], by simp [digitsInto, h10], by simpa using h10, by simp [intOf, digitsNumber], by simp, ?_, ?_⟩ <;>
      simp
  | succ f ih =>
    intro n acc h
    rw [digitsInto]
    split
    · rename_i h10
      refine ⟨[n], by simp, by simpa using h10, by simp [intOf, digitsNumber], by simp, ?_, ?_⟩ <;> simp
    · rename_i h10
      have hd : n / 10 < 2 ^ (f + 1) := by
        rw [pow_succ] at h; omega
      obtain ⟨ds, h1, h2, h3, h4, h5, -⟩ := ih (n / 10) (n % 10 :: acc) hd
      refine ⟨ds ++ [n % 10], by simp [h1], ?_, ?_, by simp, ?_, by omega⟩
      · intro d hd
        rcases List.mem_append.mp hd with hd | hd
        · exact h2 d hd
        · simp only [List.mem_singleton] at hd; omega
      · rw [intOf_append, h3]
        simp [intOf, digitsNumber]; omega
      · intro _
        have := h5 (by omega)
        cases ds with
        | nil => exact absurd rfl h4
        | cons d ds => simpa using this

/-- `dec(n)` says everything of a decimal numeral without leading zeros (R11). -/
theorem decDigits_spec (n : Nat) : (∀ d ∈ decDigits n, d < 10) ∧ intOf (decDigits n) = n ∧ decDigits n ≠ [] ∧
    (n ≠ 0 → (decDigits n).head? ≠ some 0) ∧ (n = 0 → decDigits n = [0]) := by
  obtain ⟨ds, h1, h2⟩ := digitsInto_spec (Nat.log2 n) n [] Nat.lt_log2_self
  rw [List.append_nil] at h1
  rw [decDigits, h1]
  exact h2

@[simp] theorem intOf_decDigits (n : Nat) : intOf (decDigits n) = n := (decDigits_spec n).2.1

theorem decDigits_lt {n d : Nat} (h : d ∈ decDigits n) : d < 10 := (decDigits_spec n).1 d h

theorem decDigits_ne_nil (n : Nat) : decDigits n ≠ [] := (decDigits_spec n).2.2.1

theorem decDigits_length_pos (n : Nat) : 0 < (decDigits n).length := List.length_pos_iff.mpr (decDigits_ne_nil n)

/-- A number below `10^k` has at most `k` digits. -/
theorem decDigits_length_le {n k : Nat} (hk : 0 < k) (h : n < 10 ^ k) : (decDigits n).length ≤ k := by
  by_cases h0 : n = 0
  · rw [(decDigits_spec n).2.2.2.2 h0]; exact hk
  · have hh := (decDigits_spec n).2.2.2.1 h0
    cases hd : decDigits n with
    | nil => exact absurd hd (decDigits_ne_nil n)
    | cons d ds =>
      rw [hd] at hh
      have := le_intOf (d := d) (ds := ds) (by simpa using hh)
      rw [← hd, intOf_decDigits] at this
      have := (Nat.pow_lt_pow_iff_right (by norm_num : 1 < 10)).mp (lt_of_le_of_lt this h)
      simpa using this

/-- The significant digits of `dec(n)` are `dec(n)` itself, for `n > 0`, and none for 0. -/
theorem significant_decDigits (n : Nat) : significant (decDigits n) = if n = 0 then [] else decDigits n := by
  split
  · rename_i h; rw [(decDigits_spec n).2.2.2.2 h]; rfl
  · rename_i h
    have hh := (decDigits_spec n).2.2.2.1 h
    cases hd : decDigits n with
    | nil => rfl
    | cons d ds =>
      rw [hd] at hh
      have : d ≠ 0 := by simpa using hh
      simp [significant, this]

/-! ## Bytes of digits -/

theorem digitByte_toNat {d : Nat} (h : d < 10) : (digitByte d).toNat = 0x30 + d := by
  simp only [digitByte, BitVec.toNat_ofNat]; omega

@[simp] theorem isDigit_digitByte {d : Nat} (h : d < 10) : isDigit (digitByte d) = true := by
  simp only [isDigit, digitByte_toNat h, decide_eq_true_eq]; omega

@[simp] theorem digitValue_digitByte {d : Nat} (h : d < 10) : digitValue (digitByte d) = d := by
  simp only [digitValue, digitByte_toNat h]; omega

theorem digitByte_digitValue {b : Byte} (h : isDigit b = true) : digitByte (digitValue b) = b := by
  simp only [isDigit, decide_eq_true_eq] at h
  apply BitVec.eq_of_toNat_eq
  simp only [digitByte, digitValue, BitVec.toNat_ofNat]; omega

theorem digitValue_lt {b : Byte} (h : isDigit b = true) : digitValue b < 10 := by
  simp only [isDigit, decide_eq_true_eq] at h
  simp only [digitValue]; omega

theorem digitByte_ne {d : Nat} (h : d < 10) {b : Byte} (hb : isDigit b = false) : digitByte d ≠ b := by
  intro e; subst e; simp [isDigit_digitByte h] at hb

@[simp] theorem digitText_length (ds : List Nat) : (digitText ds).length = ds.length := by simp [digitText]

@[simp] theorem digitText_append (xs ys : List Nat) : digitText (xs ++ ys) = digitText xs ++ digitText ys := by
  simp [digitText]

@[simp] theorem digitText_cons (d : Nat) (ds : List Nat) : digitText (d :: ds) = digitByte d :: digitText ds := rfl

@[simp] theorem digitText_nil : digitText [] = [] := rfl

/-- A run of digit bytes is the text of its values. -/
theorem exists_digitText {t : List Byte} (h : t.all isDigit = true) :
    ∃ ds, t = digitText ds ∧ ∀ d ∈ ds, d < 10 := by
  induction t with
  | nil => exact ⟨[], rfl, by simp⟩
  | cons b t ih =>
    simp only [List.all_cons, Bool.and_eq_true] at h
    obtain ⟨ds, rfl, hd⟩ := ih h.2
    refine ⟨digitValue b :: ds, by simp [digitByte_digitValue h.1], ?_⟩
    intro d hm
    rcases List.mem_cons.mp hm with rfl | hm
    · exact digitValue_lt h.1
    · exact hd d hm

end Sys2Proof.Machine
end

