-- ==== Sys2Proof/Laws/Exec.lean ====
section
/-! SUPPORT. What each command does, said once: how it ends, what it writes, and what FROMSTR reads. -/

namespace Sys2Proof.Machine

/-! ## Ends -/

/-- A successful completion on any state whose STATUS is that of `s` (R26). -/
theorem succeeded_complete {s t : State} (h : t.status = s.status) : Succeeded s (complete t) := by
  refine ⟨by simp, by simp, by simp [h], ?_, ?_, ?_⟩
  · simp [statusCompleted, h]
  · simp [statusCompleted, h]
  · intro hs; rw [complete_status, h, hs]; decide

/-- The error ends, in the numbers of R240 and R241. -/
theorem statusFailed_eq (code : ErrorCode) (sub : SubCode) :
    statusFailed code sub =
      BitVec.ofNat 32 (0x2 + 0x4 + 16 * (errorNumber code).toNat + 256 * (subNumber sub).toNat) := by
  cases code <;> cases sub <;> decide

theorem raiseError_eq (s : State) (code : ErrorCode) (sub : SubCode) :
    raiseError s code sub = afterError s (errorNumber code).toNat (subNumber sub).toNat := by
  simp only [raiseError, afterError, statusFailed_eq]

/-! ## Frames -/

theorem sameBut_complete {s t : State} {l : List RegName} (h : SameBut s t l) (hs : .status ∈ l) :
    SameBut s (complete t) l := by
  refine ⟨fun r hr => ?_, h.2⟩
  have : r ≠ .status := fun e => hr (e ▸ hs)
  rw [← h.1 r hr]
  cases r <;> first | (exact absurd rfl this) | rfl

theorem sameBut_setX {s t : State} {l : List RegName} (h : SameBut s t l) (v : QWord)
    (hx : .x0 ∈ l ∧ .x1 ∈ l ∧ .x2 ∈ l ∧ .x3 ∈ l) : SameBut s (t.setX v) l := by
  refine ⟨fun r hr => ?_, h.2⟩
  obtain ⟨h0, h1, h2, h3⟩ := hx
  rw [← h.1 r hr]
  cases r <;> first | rfl | (exact absurd (by assumption) hr)

theorem sameBut_setY {s t : State} {l : List RegName} (h : SameBut s t l) (v : QWord)
    (hy : .y0 ∈ l ∧ .y1 ∈ l ∧ .y2 ∈ l ∧ .y3 ∈ l) : SameBut s (t.setY v) l := by
  refine ⟨fun r hr => ?_, h.2⟩
  obtain ⟨h0, h1, h2, h3⟩ := hy
  rw [← h.1 r hr]
  cases r <;> first | rfl | (exact absurd (by assumption) hr)

theorem sameBut_setAux {s t : State} {l : List RegName} (h : SameBut s t l) (v : Word) (ha : .aux ∈ l) :
    SameBut s (t.setAux v) l := by
  refine ⟨fun r hr => ?_, h.2⟩
  rw [← h.1 r hr]
  cases r <;> first | rfl | (exact absurd (by assumption) hr)

theorem sameBut_setDecoded {s t : State} {l : List RegName} (h : SameBut s t l) (a b : Word)
    (ha : .decInfo ∈ l ∧ .decExp ∈ l) : SameBut s (t.setDecoded a b) l := by
  refine ⟨fun r hr => ?_, h.2⟩
  obtain ⟨h0, h1⟩ := ha
  rw [← h.1 r hr]
  cases r <;> first | rfl | (exact absurd (by assumption) hr)

@[simp] theorem sameBut_refl (s : State) (l : List RegName) : SameBut s s l := by simp [SameBut]

/-- A command that writes X and completes. -/
theorem sameBut_completeX (s : State) (v : QWord) : SameBut s (complete (s.setX v)) [.status, .x0, .x1, .x2, .x3] :=
  sameBut_complete (sameBut_setX (sameBut_refl s _) v (by decide)) (by decide)

theorem succeeded_completeX (s : State) (v : QWord) : Succeeded s (complete (s.setX v)) :=
  succeeded_complete rfl

/-- An error changes STATUS only (R242). -/
theorem sameBut_raiseError (s : State) (c : ErrorCode) (k : SubCode) : SameBut s (raiseError s c k) [.status] := by
  refine ⟨fun r hr => ?_, fun _ => rfl, rfl, rfl, rfl, rfl⟩
  cases r <;> first | rfl | (exact absurd (by decide) hr)

/-! ## The input text -/

/-- What the gathered text says of TXT_IN. -/
theorem gatherInput_ok {s : State} {k n : Nat} {bs : List Byte} (h : gatherInput s k n = .ok bs) :
    bs.length = n ∧ ∀ j, j < n → s.inputByte (k + j) = bs[j]? := by
  induction n generalizing k bs with
  | zero => simp only [gatherInput, Except.ok.injEq] at h; subst h; simp
  | succ n ih =>
    simp only [gatherInput] at h
    split at h
    · simp at h
    · rename_i b hb
      split at h
      · simp at h
      · rename_i cs hcs
        simp only [Except.ok.injEq] at h
        subst h
        obtain ⟨h1, h2⟩ := ih hcs
        refine ⟨by simp [h1], fun j hj => ?_⟩
        cases j with
        | zero => simpa using hb
        | succ j =>
          have := h2 j (by omega)
          rw [show k + (j + 1) = k + 1 + j by omega, this]; simp

/-- Where gathering stops: at the first unwritten byte (R272). -/
theorem gatherInput_error {s : State} {k n j : Nat} (h : gatherInput s k n = .error j) :
    k ≤ j ∧ j < k + n ∧ s.inputByte j = none ∧ ∀ i, k ≤ i → i < j → s.inputByte i ≠ none := by
  induction n generalizing k with
  | zero => simp [gatherInput] at h
  | succ n ih =>
    simp only [gatherInput] at h
    split at h
    · rename_i hb
      simp only [Except.error.injEq] at h
      subst h
      exact ⟨by omega, by omega, hb, fun i h1 h2 => by omega⟩
    · rename_i b hb
      split at h
      · rename_i i hi
        simp only [Except.error.injEq] at h
        subst h
        obtain ⟨h1, h2, h3, h4⟩ := ih hi
        refine ⟨by omega, by omega, h3, fun i h5 h6 => ?_⟩
        by_cases h7 : i = k
        · subst h7; simp [hb]
        · exact h4 i (by omega) h6
      · simp at h

/-- A text that stands written in TXT_IN is what is gathered. -/
theorem gatherInput_of_holds {s : State} {text : List Byte} (h : s.HoldsText text) :
    gatherInput s 0 s.textLength = .ok text := by
  obtain ⟨hl, hb⟩ := h
  rw [hl]
  cases hg : gatherInput s 0 text.length with
  | error j =>
    obtain ⟨-, h2, h3, -⟩ := gatherInput_error hg
    have := hb j (by omega)
    rw [h3, List.getElem?_eq_getElem (by omega)] at this
    simp at this
  | ok bs =>
    obtain ⟨h1, h2⟩ := gatherInput_ok hg
    congr 1
    apply List.ext_getElem? fun j => ?_
    by_cases hj : j < text.length
    · have e1 := h2 j hj
      have e2 := hb j hj
      rw [Nat.zero_add] at e1
      rw [← e1, e2]
    · rw [List.getElem?_eq_none (by omega), List.getElem?_eq_none (by omega)]

/-- FROMSTR on a written text shorter than 7000 bytes is its conversion (R120). -/
theorem execFromstr_of_holds {s : State} {text : List Byte} (hlen : text.length < 7000) (h : s.HoldsText text) :
    exec .fromstr s = .next (finishConversion s (convertText text)) := by
  have hl := h.1
  simp only [exec, execFromstr]
  rw [if_neg (by simp only [Config.lenLim]; omega), gatherInput_of_holds h]

/-- Everything FROMSTR can answer: TOO_LONG, the fault of an unwritten byte, or the conversion of the text. -/
theorem execFromstr_cases (s : State) :
    (7000 ≤ s.textLength ∧ exec .fromstr s = .next (raiseError s .tooLong .none)) ∨
    (s.textLength < 7000 ∧ ∃ k, gatherInput s 0 s.textLength = .error k ∧ exec .fromstr s = .fault (.unwrittenInput k)) ∨
    (s.textLength < 7000 ∧ ∃ text, gatherInput s 0 s.textLength = .ok text ∧
      exec .fromstr s = .next (finishConversion s (convertText text))) := by
  simp only [exec, execFromstr, Config.lenLim]
  by_cases h : 7000 ≤ s.textLength
  · simp [h]
  · right
    have h' : s.textLength < 7000 := by omega
    cases hg : gatherInput s 0 s.textLength with
    | error k => exact .inl ⟨h', k, rfl, by simp [h]⟩
    | ok text => exact .inr ⟨h', text, rfl, by simp [h]⟩

/-- A conversion that fails names MALFORMED with a nonzero sub-code, or OVERFLOW with none (R240, R241). -/
theorem convertText_error {text : List Byte} {c : ErrorCode} {k : SubCode} (h : convertText text = .error c k) :
    (c = .malformed ∧ parse text = .err k) ∨ (c = .overflow ∧ k = .none) := by
  simp only [convertText] at h
  split at h
  · simp only [Converted.error.injEq] at h
    exact .inl ⟨h.1.symm, by rw [← h.2]; assumption⟩
  · simp at h
  · simp at h
  · rename_i neg d r e _
    cases hn : normalize neg d r e with
    | fin n c' e' => rw [hn] at h; simp [packNormalized] at h
    | inf n => rw [hn] at h; simp [packNormalized] at h
    | overflow =>
      rw [hn] at h
      simp only [packNormalized, Converted.error.injEq] at h
      exact .inr ⟨h.1.symm, h.2.symm⟩

/-- A scan fails only with one of the five sub-codes (R241). -/
theorem parse_err_ne_none {text : List Byte} {k : SubCode} (h : parse text = .err k) : k ≠ .none := by
  have hm : ∀ (saw : Bool) (t : List Byte) (e : SubCode), scanMantissa saw t = .error e → e ≠ .none := by
    intro saw t
    induction t generalizing saw with
    | nil => intro e h; simp [scanMantissa] at h
    | cons b t ih =>
      intro e h
      simp only [scanMantissa] at h
      split at h
      · split at h
        · simp only [Except.error.injEq] at h; subst h; simp
        · exact ih _ e h
      · split at h
        · split at h
          · rename_i e' he'
            simp only [Except.error.injEq] at h
            subst h
            exact ih _ _ he'
          · simp at h
        · simp at h
  have he : ∀ (d : List Nat) (t : List Byte) (e : SubCode), scanExponent d t = .error e → e ≠ .none := by
    intro d t e h
    cases t with
    | nil => simp [scanExponent] at h
    | cons b t =>
      simp only [scanExponent, exponentDigits] at h
      split at h
      · split at h
        · simp only [Except.error.injEq] at h; subst h; simp
        · split at h
          · simp only [Except.error.injEq] at h; subst h; simp
          · simp at h
      · simp at h
  simp only [parse] at h
  split at h
  · simp at h
  · split at h
    · simp at h
    · simp only [parseNumeral] at h
      split at h
      · rename_i e hs
        simp only [Parsed.err.injEq] at h
        subst h
        exact hm _ _ _ hs
      · split at h
        · rename_i e hs
          simp only [Parsed.err.injEq] at h
          subst h
          exact he _ _ _ hs
        · split at h
          · simp only [Parsed.err.injEq] at h; subst h; simp
          · split at h
            · simp only [Parsed.err.injEq] at h; subst h; simp
            · simp at h

/-- FROMSTR on a written numeral is its normalization, packed (R120). -/
theorem execFromstr_num {s : State} {text : List Byte} {neg : Bool} {D : List Nat} {r : Nat} {E : Int}
    (hl : text.length < 7000) (hh : s.HoldsText text) (hp : parse text = .num neg D r E) {n : Normalized}
    (hn : normalize neg D r E = n) : exec .fromstr s = .next (finishConversion s (packNormalized n)) := by
  rw [execFromstr_of_holds hl hh, convertText, hp]; simp only [hn]

theorem finishConversion_word (s : State) (w : QWord) : finishConversion s (.word w) = complete (s.setX w) := rfl

/-- Whatever a conversion yields, nothing but STATUS and X changes. -/
theorem finishConversion_sameBut (s : State) (c : Converted) :
    SameBut s (finishConversion s c) [.status, .x0, .x1, .x2, .x3] := by
  cases c with
  | word w => exact sameBut_completeX s w
  | error a b =>
    refine ⟨fun r hr => ?_, fun _ => rfl, rfl, rfl, rfl, rfl⟩
    cases r <;> first | rfl | (exact absurd (by decide) hr)

/-! ## The output text -/

/-- TXT_OUT after `WriteOut` (R222). -/
theorem writeOut_outputByte (s : State) (text : List Byte) {k : Nat} (h : k < 64) :
    (s.writeOut text).outputByte k = some (text.getD k 0) := by
  simp only [State.outputByte, writeOut_mem, Memory.read_writeBytes, outputBytes_length, Config.txtOutBase]
  rw [if_pos (by omega), show 0x100 + k - 0x100 = k by omega, outputBytes_getElem? _ _ h]

/-- The rest of the buffers after `WriteOut`. -/
theorem writeOut_read_other (s : State) (text : List Byte) {a : Nat} (h : a < 0x100 ∨ 0x13F < a) :
    (s.writeOut text).mem.read a = s.mem.read a := by
  simp only [writeOut_mem, Memory.read_writeBytes, outputBytes_length, Config.txtOutBase]
  rw [if_neg (by omega)]

/-- The registers after `WriteOut`. -/
theorem writeOut_reg (s : State) (text : List Byte) {r : RegName} (h : r ≠ .outLen) :
    (s.writeOut text).reg r = s.reg r := by
  cases r <;> first | rfl | (exact absurd rfl h)

end Sys2Proof.Machine
end

