-- ==== Sys2Proof/Laws/Commands.lean ====
section
/-! SUPPORT. What the meanings of the arithmetic commands, the encoder and the decoder answer, in natural numbers. -/

namespace Sys2Proof.Machine

/-! ## The register views as numbers (spec/10_state.md R22) -/

theorem opa_toNat (s : State) : s.opa.toNat = s.opaHi.toNat * 2 ^ 32 + s.opaLo.toNat := by
  rw [State.opa, BitVec.toNat_append, ← Nat.shiftLeft_add_eq_or_of_lt s.opaLo.isLt, Nat.shiftLeft_eq]

theorem opb_toNat (s : State) : s.opb.toNat = s.opbHi.toNat * 2 ^ 32 + s.opbLo.toNat := by
  rw [State.opb, BitVec.toNat_append, ← Nat.shiftLeft_add_eq_or_of_lt s.opbLo.isLt, Nat.shiftLeft_eq]

/-- Four words joined, most significant first. -/
theorem quad_toNat (a b c d : Word) :
    (a ++ b ++ c ++ d : BitVec (32 + 32 + 32 + 32)).toNat =
      ((a.toNat * 2 ^ 32 + b.toNat) * 2 ^ 32 + c.toNat) * 2 ^ 32 + d.toNat := by
  rw [BitVec.toNat_append, ← Nat.shiftLeft_add_eq_or_of_lt d.isLt, Nat.shiftLeft_eq, BitVec.toNat_append,
    ← Nat.shiftLeft_add_eq_or_of_lt c.isLt, Nat.shiftLeft_eq, BitVec.toNat_append,
    ← Nat.shiftLeft_add_eq_or_of_lt b.isLt, Nat.shiftLeft_eq]

theorem x_toNat (s : State) :
    s.x.toNat = ((s.x3.toNat * 2 ^ 32 + s.x2.toNat) * 2 ^ 32 + s.x1.toNat) * 2 ^ 32 + s.x0.toNat :=
  quad_toNat _ _ _ _

theorem y_toNat (s : State) :
    s.y.toNat = ((s.y3.toNat * 2 ^ 32 + s.y2.toNat) * 2 ^ 32 + s.y1.toNat) * 2 ^ 32 + s.y0.toNat :=
  quad_toNat _ _ _ _

/-! ## MUL64 and DIV1E9 -/

/-- The product never wraps (spec/41_arith_primitives.md R170). -/
theorem mulWide_toNat (a b : DWord) : (mulWide a b).toNat = a.toNat * b.toNat := by
  rw [mulWide, BitVec.toNat_ofNat]
  apply Nat.mod_eq_of_lt
  calc a.toNat * b.toNat < 2 ^ 64 * 2 ^ 64 := Nat.mul_lt_mul'' a.isLt b.isLt
    _ = 2 ^ 128 := by norm_num

theorem divBillion_toNat (v : QWord) : (divBillion v).toNat = v.toNat / 1000000000 := by
  have := v.isLt
  simp only [divBillion, Config.billion, BitVec.toNat_ofNat]; omega

theorem modBillion_toNat (v : QWord) : (modBillion v).toNat = v.toNat % 1000000000 := by
  simp only [modBillion, Config.billion, BitVec.toNat_ofNat]; omega

/-! ## ENC.FIN (spec/42_encoder.md R190 to R194) -/

theorem joinCoefficient_eq (high low : Nat) : joinCoefficient high low = high * 10 ^ 17 + low := by
  simp only [joinCoefficient, Config.split]

theorem clampExponent_eq (e : Int) : clampExponent e = max (-6176) (min 6111 e) := rfl

theorem clampExponent_of_mem {e : Int} (h1 : -6176 ≤ e) (h2 : e ≤ 6111) : clampExponent e = e := by
  rw [clampExponent_eq]; omega

/-- The words ENC.FIN packs. -/
theorem encodeFinite_ok {neg : Bool} {c : Nat} {e : Int} (hc : c ≤ 10 ^ 34 - 1)
    (h : c = 0 ∨ (-6176 ≤ e ∧ e ≤ 6111)) : encodeFinite neg c e = some (packFinite neg c (clampExponent e)) := by
  simp only [encodeFinite, Config.maxCoef, Config.eMin, Config.eMax]
  rw [if_neg (by omega)]
  split
  · rfl
  · rw [if_neg (by omega), clampExponent_of_mem (by omega) (by omega)]

/-- The values ENC.FIN refuses. -/
theorem encodeFinite_range {neg : Bool} {c : Nat} {e : Int}
    (h : 10 ^ 34 - 1 < c ∨ (c ≠ 0 ∧ (e < -6176 ∨ 6111 < e))) : encodeFinite neg c e = none := by
  simp only [encodeFinite, Config.maxCoef, Config.eMin, Config.eMax]
  split
  · rfl
  · rw [if_neg (by omega), if_pos (by omega)]

/-- ENC.FIN by the answer of its range checks. -/
theorem execEncFin_eq {s : State} {sgn : Bool} {c : Nat} (hc : s.opa.toNat * 10 ^ 17 + s.opb.toNat = c) :
    exec (.encFin sgn) s = .next (finishEncoding s (encodeFinite sgn c s.expIn.toInt)) := by
  simp only [exec, execEncFin, joinCoefficient_eq, hc, State.exponent]

/-- The two ways ENC.FIN ends. -/
theorem execEncFin_ok {s : State} {sgn : Bool} {c : Nat} (hc : s.opa.toNat * 10 ^ 17 + s.opb.toNat = c)
    (hm : c ≤ 10 ^ 34 - 1) (h : c = 0 ∨ (-6176 ≤ s.expIn.toInt ∧ s.expIn.toInt ≤ 6111)) :
    exec (.encFin sgn) s = .next (complete (s.setX (packFinite sgn c (clampExponent s.expIn.toInt)))) := by
  rw [execEncFin_eq hc, encodeFinite_ok hm h]; rfl

theorem execEncFin_range {s : State} {sgn : Bool} {c : Nat} (hc : s.opa.toNat * 10 ^ 17 + s.opb.toNat = c)
    (h : 10 ^ 34 - 1 < c ∨ (c ≠ 0 ∧ (s.expIn.toInt < -6176 ∨ 6111 < s.expIn.toInt))) :
    exec (.encFin sgn) s = .next (raiseError s .range .none) := by
  rw [execEncFin_eq hc, encodeFinite_range h]; rfl

/-! ## The fields of a packed word (spec/42_encoder.md R192) -/

theorem packFinite_sign (neg : Bool) (c : Nat) (e : Int) : (packFinite neg c e).getLsbD 127 = neg := by
  simp only [packFinite, BitVec.getLsbD_append]; simp

theorem packFinite_exponent (neg : Bool) (c : Nat) {e : Int} (h1 : -6176 ≤ e) (h2 : e ≤ 6111) :
    (((packFinite neg c e).extractLsb' 113 14).toNat : Int) = e + 6176 := by
  have h : (packFinite neg c e).extractLsb' 113 14 = BitVec.ofNat 14 (e + 6176).toNat := by
    apply BitVec.eq_of_getLsbD_eq
    intro i hi
    simp only [packFinite, Config.bias, BitVec.getLsbD_extractLsb', BitVec.getLsbD_append]
    simp [hi]
  rw [h, BitVec.toNat_ofNat]; omega

theorem packFinite_coefficient (neg : Bool) {c : Nat} (e : Int) (hc : c ≤ 10 ^ 34 - 1) :
    ((packFinite neg c e).extractLsb' 0 113).toNat = c := by
  have h : (packFinite neg c e).extractLsb' 0 113 = BitVec.ofNat 113 c := by
    apply BitVec.eq_of_getLsbD_eq
    intro i hi
    simp only [packFinite, BitVec.getLsbD_extractLsb', BitVec.getLsbD_append]
    simp [hi]
  rw [h, BitVec.toNat_ofNat]; omega

/-- The special patterns, unpacked (spec/43_decoder_stringifier.md R211). -/
theorem unpack_packInfinity (neg : Bool) : unpack (packInfinity neg) = unpackSpecial neg .inf := by
  cases neg <;> decide +kernel

theorem unpack_packNan : unpack packNan = unpackSpecial false .nan := by decide +kernel

/-- Every class of word keeps its sign bit (spec/43_decoder_stringifier.md R211). -/
theorem unpack_sign (w : QWord) : (unpack w).sign = w.getLsbD 127 := by
  simp only [unpack]
  split
  · rfl
  · split
    · rfl
    · split <;> rfl

/-! ## The fields DECODE reports (spec/10_state.md R36) -/

theorem decInfo_fields (u : Unpacked) :
    (decInfoWord u).getLsbD 0 = u.sign ∧ (decInfoWord u).extractLsb' 1 2 = classCode u.cls ∧
      (decInfoWord u).getLsbD 3 = u.large ∧ (decInfoWord u).extractLsb' 4 12 = 0 ∧
      (decInfoWord u).extractLsb' 16 14 = u.bexp ∧ (decInfoWord u).extractLsb' 30 2 = 0 := by
  refine ⟨?_, ?_, ?_, ?_, ?_, ?_⟩
  all_goals first
    | (simp only [decInfoWord, BitVec.getLsbD_append]; simp; done)
    | (apply BitVec.eq_of_getLsbD_eq
       intro i hi
       simp only [decInfoWord, BitVec.getLsbD_extractLsb', BitVec.getLsbD_append]
       interval_cases i <;> simp)

end Sys2Proof.Machine
end

