-- ==== Sys2Proof/Laws/Normalize.lean ====
section
/-! SUPPORT. The laws of the significand normalizer: what rounding decides, and what each exit of the procedure answers
(spec/40_parse_normalize.md R133 to R141). -/

namespace Sys2Proof.Machine

/-- Removing leading zeros leaves digits. -/
theorem significant_lt {ds : List Nat} (h : ∀ d ∈ ds, d < 10) : ∀ d ∈ significant ds, d < 10 :=
  fun d hd => h d (List.dropWhile_subset _ hd)

/-- Significant digits do not begin with 0. -/
theorem significant_head {ds : List Nat} {d : Nat} {c : List Nat} (h : significant ds = d :: c) : d ≠ 0 := by
  intro h0
  subst h0
  have := List.head?_dropWhile_not (fun x : Nat => x == 0) ds
  rw [show List.dropWhile (fun x : Nat => x == 0) ds = 0 :: c from h] at this
  simp at this

/-- A digit string has a nonzero digit exactly when it denotes a positive number. -/
theorem any_ne_zero_iff (ds : List Nat) : ds.any (· != 0) = true ↔ 0 < intOf ds := by
  induction ds with
  | nil => simp
  | cons d ds ih =>
    rw [intOf_cons, List.any_cons, Bool.or_eq_true, ih]
    by_cases h : d = 0
    · simp [h]
    · have : 0 < d * 10 ^ ds.length := by positivity
      simp [h]; omega

/-- A digit string is odd when its last digit is; the empty one is even (R138). -/
theorem lastOdd_iff (ds : List Nat) : ds.getLast?.any (· % 2 == 1) = true ↔ intOf ds % 2 = 1 := by
  rcases List.eq_nil_or_concat ds with rfl | ⟨xs, x, rfl⟩
  · simp
  · rw [List.concat_eq_append, intOf_append]
    simp [intOf, digitsNumber]; omega

/-- Round half to even (R139): with `t` digits discarded, of value `v`, the kept window is rounded up when twice `v` exceeds
`10^t`, or equals it and the window is odd. -/
theorem roundsUp_iff (kept : List Nat) {discarded : List Nat} (hd : ∀ d ∈ discarded, d < 10) (hn : discarded ≠ []) :
    roundsUp kept discarded = true ↔
      10 ^ discarded.length < 2 * intOf discarded ∨
        (10 ^ discarded.length = 2 * intOf discarded ∧ intOf kept % 2 = 1) := by
  cases discarded with
  | nil => exact absurd rfl hn
  | cons d ds =>
    have hds : intOf ds < 10 ^ ds.length := intOf_lt fun x hx => hd x (by simp [hx])
    have h10 : d < 10 := hd d (by simp)
    simp only [roundsUp, List.getD_cons_zero, List.drop_succ_cons, List.drop_zero, Bool.or_eq_true,
      Bool.and_eq_true, decide_eq_true_eq, beq_iff_eq, any_ne_zero_iff, lastOdd_iff, intOf_cons, List.length_cons, pow_succ]
    generalize 10 ^ ds.length = p at *
    by_cases h5 : 5 < d
    · have : p * 10 < 2 * (d * p + intOf ds) := by nlinarith
      simp [h5, this]
    · by_cases h5' : d = 5
      · subst h5'
        constructor
        · rintro (h | ⟨-, h | h⟩)
          · omega
          · left; omega
          · by_cases hz : 0 < intOf ds
            · left; omega
            · right; exact ⟨by omega, h⟩
        · rintro (h | ⟨h, ho⟩)
          · right; exact ⟨rfl, .inl (by omega)⟩
          · right; exact ⟨rfl, .inr ho⟩
      · have h4 : d ≤ 4 := by omega
        have : 2 * (d * p + intOf ds) < p * 10 := by nlinarith
        constructor
        · rintro (h | ⟨h, -⟩) <;> omega
        · rintro (h | ⟨h, -⟩) <;> omega

/-- The kept window after rounding, before a carry out of it is taken care of (R140). -/
def rounded (kept discarded : List Nat) : Nat := intOf kept + if roundsUp kept discarded then 1 else 0

/-- The rounded window has at most one digit more than the window, and then it is a power of ten. -/
theorem rounded_le {kept : List Nat} (hk : ∀ d ∈ kept, d < 10) (discarded : List Nat) :
    rounded kept discarded ≤ 10 ^ kept.length := by
  have := intOf_lt hk
  unfold rounded
  split <;> omega

/-- What rounding answers (R138 to R141): the rounded window at `q`; or, after a carry out of a nonempty window, a 1
followed by zeros at `q + 1`; or, at EMAX, Infinity. -/
theorem roundKept_cases (neg : Bool) {kept : List Nat} (discarded : List Nat) (q : Int) :
    (roundKept neg kept discarded q = .fin neg (rounded kept discarded) q ∧
      (kept = [] ∨ rounded kept discarded ≠ 10 ^ kept.length ∨ roundsUp kept discarded = false)) ∨
    (kept ≠ [] ∧ rounded kept discarded = 10 ^ kept.length ∧
      ((q ≠ 6111 ∧ roundKept neg kept discarded q = .fin neg (10 ^ (kept.length - 1)) (q + 1)) ∨
        (q = 6111 ∧ roundKept neg kept discarded q = .inf neg))) := by
  unfold roundKept rounded
  cases hr : roundsUp kept discarded
  · simp
  · simp only [if_true]
    by_cases hc : kept ≠ [] ∧ intOf kept + 1 = 10 ^ kept.length
    · rw [if_pos hc]
      right
      refine ⟨hc.1, hc.2, ?_⟩
      by_cases hq : q = 6111
      · rw [if_pos hq]; exact .inr ⟨hq, rfl⟩
      · rw [if_neg hq]; exact .inl ⟨hq, rfl⟩
    · rw [if_neg hc]
      left
      refine ⟨rfl, ?_⟩
      by_cases hk : kept = []
      · exact .inl hk
      · exact .inr (.inl fun h => hc ⟨hk, h⟩)

/-- R133: a run of zeros. -/
theorem normalize_zero {digits : List Nat} (h : significant digits = []) (neg : Bool) (r : Nat) (e : Int) :
    normalize neg digits r e = .fin neg 0 (clampExponent (e - r)) := by simp [normalize, h]

/-- The other digit runs. -/
theorem normalize_nonzero {digits : List Nat} (h : significant digits ≠ []) (neg : Bool) (r : Nat) (e : Int) :
    normalize neg digits r e = normalizeNonzero neg (significant digits) (e - r) := by simp [normalize, h]

/-- The final exponent in numbers (R135). -/
theorem finalExponent_eq (e0 : Int) (n : Nat) : finalExponent e0 n = max (max e0 (-6176)) (e0 + n - 34) := rfl

/-- R134: above the range, the significand is padded if it stays within 34 digits. -/
theorem normalizeNonzero_high {e0 : Int} (h : 6111 < e0) (neg : Bool) (c : List Nat) :
    normalizeNonzero neg c e0 =
      if 34 < c.length + (e0 - 6111).toNat then .overflow
      else .fin neg (intOf c * 10 ^ (e0 - 6111).toNat) 6111 := by
  simp [normalizeNonzero, h]

/-- R136: nothing is trimmed from at most 34 digits in range. -/
theorem normalizeNonzero_exact {e0 : Int} (h1 : -6176 ≤ e0) (h2 : e0 ≤ 6111) (neg : Bool) {c : List Nat}
    (hc : c.length ≤ 34) : normalizeNonzero neg c e0 = .fin neg (intOf c) e0 := by
  have hq : finalExponent e0 c.length = e0 := by simp only [finalExponent, Config.eMin, Config.maxDigits]; omega
  simp only [normalizeNonzero, hq, sub_self, Int.toNat_zero, if_true]
  rw [if_neg (by simpa using h2)]

/-- R135, R137 to R141: digits are trimmed when the final exponent is above the initial one. -/
theorem normalizeNonzero_trim {e0 : Int} (h2 : e0 ≤ 6111) (neg : Bool) {c : List Nat}
    (ht : e0 < finalExponent e0 c.length) :
    normalizeNonzero neg c e0 =
      if 6111 < finalExponent e0 c.length then .overflow
      else if c.length < (finalExponent e0 c.length - e0).toNat then .fin neg 0 (finalExponent e0 c.length)
      else roundKept neg (c.take (c.length - (finalExponent e0 c.length - e0).toNat))
        (c.drop (c.length - (finalExponent e0 c.length - e0).toNat)) (finalExponent e0 c.length) := by
  have h0 : (finalExponent e0 c.length - e0).toNat ≠ 0 := by omega
  simp only [normalizeNonzero]
  rw [if_neg (by simpa using h2), if_neg h0]

/-- The final exponent is at least the initial one; it is the initial one just when nothing need be trimmed (R136). -/
theorem le_finalExponent (e0 : Int) (n : Nat) : e0 ≤ finalExponent e0 n := by simp only [finalExponent, Config.eMin, Config.maxDigits]; omega

/-- What `Normalize` answers for a nonzero significand: overflow exactly when its digits do not fit 34 places at EMAX
(R134, R137), else a finite value, or Infinity at the top of the range (R141). -/
theorem normalizeNonzero_cases (neg : Bool) {c : List Nat} (hc : c ≠ []) (e0 : Int) :
    (6111 < e0 + c.length - 34 ∧ normalizeNonzero neg c e0 = .overflow) ∨
      (¬ 6111 < e0 + c.length - 34 ∧ ((∃ k e, normalizeNonzero neg c e0 = .fin neg k e) ∨
        (normalizeNonzero neg c e0 = .inf neg ∧ e0 + c.length - 34 = 6111))) := by
  have hpos : 0 < c.length := List.length_pos_iff.mpr hc
  by_cases hhi : 6111 < e0
  · rw [normalizeNonzero_high hhi]
    split
    · exact .inl ⟨by omega, rfl⟩
    · exact .inr ⟨by omega, .inl ⟨_, _, rfl⟩⟩
  · have hq := finalExponent_eq e0 c.length
    by_cases ht : e0 < finalExponent e0 c.length
    · rw [normalizeNonzero_trim (by omega) neg ht]
      generalize finalExponent e0 c.length = q at *
      split
      · exact .inl ⟨by omega, rfl⟩
      · refine .inr ⟨by omega, ?_⟩
        split
        · exact .inl ⟨_, _, rfl⟩
        · rcases roundKept_cases neg (kept := c.take (c.length - (q - e0).toNat))
            (c.drop (c.length - (q - e0).toNat)) q with ⟨g1, -⟩ | ⟨-, -, ⟨-, g4⟩ | ⟨g3, g4⟩⟩
          · exact .inl ⟨_, _, g1⟩
          · exact .inl ⟨_, _, g4⟩
          · exact .inr ⟨g4, by omega⟩
    · rw [normalizeNonzero_exact (by omega) (by omega) neg (by omega)]
      exact .inr ⟨by omega, .inl ⟨_, _, rfl⟩⟩

/-- A rounded window reaches `M`, an even number above it, exactly when the value reaches the midpoint of `M - 1` and
`M`. -/
theorem rounded_eq_iff_midpoint (K R u M : Nat) (hM : M % 2 = 0) (hM2 : 2 ≤ M) (hK : K < M) (hR : R < u) (b : Bool)
    (ru : b = true ↔ u < 2 * R ∨ (u = 2 * R ∧ K % 2 = 1)) :
    (K + (if b = true then 1 else 0) = M ↔ (2 * M - 1) * u ≤ 2 * (K * u + R)) := by
  obtain ⟨D, rfl⟩ : ∃ D, M = K + 1 + D := ⟨M - K - 1, by omega⟩
  have e : (2 * (K + 1 + D) - 1) * u = 2 * (K * u) + u + 2 * (D * u) := by
    rw [show 2 * (K + 1 + D) - 1 = 2 * K + 1 + 2 * D by omega]; ring
  rw [e]
  generalize K * u = X
  rcases Nat.eq_zero_or_pos D with rfl | hD
  · have hodd : K % 2 = 1 := by omega
    simp only [hodd, and_true] at ru
    cases b with
    | true => have := ru.mp rfl; simp; omega
    | false =>
      have := mt ru.mpr (by simp)
      simp only [Nat.zero_mul]; simp; omega
  · have : u ≤ D * u := Nat.le_mul_of_pos_left u hD
    generalize D * u = Y at *
    constructor
    · intro h; split at h <;> omega
    · intro h; omega

/-- The first `k` digits, at least one, carry out when the rest are discarded exactly when the whole run reaches the midpoint
between their largest value and the power of ten above it (R138 to R141). -/
theorem rounded_eq_pow_iff {c : List Nat} (hc : ∀ d ∈ c, d < 10) {k : Nat} (hk : 0 < k) (hn : k < c.length) :
    rounded (c.take k) (c.drop k) = 10 ^ k ↔ (2 * 10 ^ k - 1) * 10 ^ (c.length - k) ≤ 2 * intOf c := by
  have hsum : intOf c = intOf (c.take k) * 10 ^ (c.length - k) + intOf (c.drop k) := by
    conv_lhs => rw [← List.take_append_drop k c, intOf_append, List.length_drop]
  have hlen : (c.take k).length = k := by rw [List.length_take]; omega
  have hkept := intOf_lt (ds := c.take k) fun d hd => hc d (List.mem_of_mem_take hd)
  have hdisc := intOf_lt (ds := c.drop k) fun d hd => hc d (List.mem_of_mem_drop hd)
  have hup := roundsUp_iff (c.take k) (discarded := c.drop k) (fun d hd => hc d (List.mem_of_mem_drop hd)) (by
    rw [← List.length_pos_iff, List.length_drop]; omega)
  rw [hlen] at hkept
  rw [List.length_drop] at hdisc hup
  obtain ⟨j, rfl⟩ : ∃ j, k = j + 1 := ⟨k - 1, by omega⟩
  have hpos : 0 < 10 ^ j := by positivity
  rw [hsum, rounded]
  exact rounded_eq_iff_midpoint _ _ _ _ (by rw [pow_succ]; omega) (by rw [pow_succ]; omega) hkept hdisc _ hup

/-- What rounding a nonempty window answers, by whether it carries out (R140, R141). -/
theorem roundKept_of_carry {kept discarded : List Nat} (hk : kept ≠ []) (h : rounded kept discarded = 10 ^ kept.length)
    (hlt : ∀ d ∈ kept, d < 10) (neg : Bool) (q : Int) :
    roundKept neg kept discarded q = if q = 6111 then .inf neg else .fin neg (10 ^ (kept.length - 1)) (q + 1) := by
  rcases roundKept_cases neg (kept := kept) discarded q with ⟨-, g | g | g⟩ | ⟨-, -, ⟨g, e⟩ | ⟨g, e⟩⟩
  · exact absurd g hk
  · exact absurd h g
  · have := intOf_lt hlt
    simp only [rounded, g, Bool.false_eq_true, if_false] at h; omega
  · rw [e, if_neg g]
  · rw [e, if_pos g]

theorem roundKept_of_no_carry {kept discarded : List Nat} (h : kept = [] ∨ rounded kept discarded ≠ 10 ^ kept.length)
    (neg : Bool) (q : Int) : roundKept neg kept discarded q = .fin neg (rounded kept discarded) q := by
  rcases roundKept_cases neg (kept := kept) discarded q with ⟨e, -⟩ | ⟨hk, g, -⟩
  · exact e
  · rcases h with h | h
    · exact absurd h hk
    · exact absurd g h

/-- At the top of the range, with digits to discard, the result is Infinity exactly when the 34 kept digits round up to
10^34 (R141). -/
theorem normalizeNonzero_inf_iff {c : List Nat} (hc : ∀ d ∈ c, d < 10) (neg : Bool) (hn : 34 < c.length) {e0 : Int}
    (he : e0 + c.length - 34 = 6111) :
    normalizeNonzero neg c e0 = .inf neg ↔ (2 * 10 ^ 34 - 1) * 10 ^ (c.length - 34) ≤ 2 * intOf c := by
  have hq : finalExponent e0 c.length = 6111 := by rw [finalExponent_eq]; omega
  have hk : c.length - ((6111 : Int) - e0).toNat = 34 := by omega
  have hlen : (c.take 34).length = 34 := by rw [List.length_take]; omega
  rw [normalizeNonzero_trim (by omega) neg (by omega), hq, if_neg (by omega), if_neg (by omega), hk,
    ← rounded_eq_pow_iff hc (by norm_num) hn]
  by_cases hr : rounded (c.take 34) (c.drop 34) = 10 ^ 34
  · rw [roundKept_of_carry (by rw [← List.length_pos_iff, hlen]; norm_num) (by rw [hlen]; exact hr)
      fun d hd => hc d (List.mem_of_mem_take hd)]
    simp [hr]
  · rw [roundKept_of_no_carry (.inr (by rw [hlen]; exact hr))]
    simp only [reduceCtorEq, hr]

end Sys2Proof.Machine
end

