-- ==== Sys2Proof/Laws/Parse.lean ====
section
/-! SUPPORT. The laws of the numeral parser: what each scan reads, forwards (a text of a known shape) and backwards (a scan
that succeeded). -/

namespace Sys2Proof.Machine

/-- A text that does not go on with a digit. -/
def NoDigit (t : List Byte) : Prop := ∀ b ∈ t.head?, isDigit b = false

/-- A text that does not go on with a digit or a radix point. -/
def NoMantissa (t : List Byte) : Prop := ∀ b ∈ t.head?, isDigit b = false ∧ b ≠ byteRadix

theorem NoMantissa.noDigit {t : List Byte} (h : NoMantissa t) : NoDigit t := fun b hb => (h b hb).1

@[simp] theorem noMantissa_nil : NoMantissa [] := by simp [NoMantissa]
@[simp] theorem noDigit_nil : NoDigit [] := by simp [NoDigit]

theorem digitByte_ne_radix {d : Nat} (h : d < 10) : digitByte d ≠ byteRadix := digitByte_ne h (by decide)
theorem digitByte_ne_plus {d : Nat} (h : d < 10) : digitByte d ≠ bytePlus := digitByte_ne h (by decide)
theorem digitByte_ne_minus {d : Nat} (h : d < 10) : digitByte d ≠ byteMinus := digitByte_ne h (by decide)

theorem isMarker_digitByte {d : Nat} (h : d < 10) : isMarker (digitByte d) = false := by
  have h1 : digitByte d ≠ byteE := digitByte_ne h (by decide)
  have h2 : digitByte d ≠ byteSmallE := digitByte_ne h (by decide)
  simp [isMarker, h1, h2]

theorem isSign_digitByte {d : Nat} (h : d < 10) : isSign (digitByte d) = false := by
  simp [isSign, digitByte_ne_plus h, digitByte_ne_minus h]

theorem isDigit_of_isMarker {b : Byte} (h : isMarker b = true) : isDigit b = false ∧ b ≠ byteRadix := by
  simp only [isMarker, Bool.or_eq_true, beq_iff_eq] at h
  rcases h with rfl | rfl <;> decide

theorem isDigit_of_isSign {b : Byte} (h : isSign b = true) : isDigit b = false ∧ b ≠ byteRadix := by
  simp only [isSign, Bool.or_eq_true, beq_iff_eq] at h
  rcases h with rfl | rfl <;> decide

/-! ## Digit runs -/

/-- A digit run is read whole when no digit follows. -/
theorem takeDigits_text {ds : List Nat} (h : ∀ d ∈ ds, d < 10) {rest : List Byte} (hr : NoDigit rest) :
    takeDigits (digitText ds ++ rest) = (ds, rest) := by
  induction ds with
  | nil =>
    cases rest with
    | nil => rfl
    | cons b rest =>
      have := hr b (by simp)
      simp [takeDigits, this]
  | cons d ds ih =>
    have hd := h d (by simp)
    have := ih (fun x hx => h x (by simp [hx]))
    simp [takeDigits, isDigit_digitByte hd, digitValue_digitByte hd, this]

/-- What a digit run's scan says of its text. -/
theorem takeDigits_spec (t : List Byte) :
    t = digitText (takeDigits t).1 ++ (takeDigits t).2 ∧ (∀ d ∈ (takeDigits t).1, d < 10) := by
  induction t with
  | nil => simp [takeDigits]
  | cons b t ih =>
    simp only [takeDigits]
    split
    · rename_i hb
      refine ⟨?_, ?_⟩
      · simp only [digitText_cons, digitByte_digitValue hb, List.cons_append, List.cons.injEq, true_and]
        exact ih.1
      · intro d hd
        rcases List.mem_cons.mp hd with rfl | hd
        · exact digitValue_lt hb
        · exact ih.2 d hd
    · simp

/-! ## The mantissa -/

/-- Digits before the radix point (or after it) are read into the run. -/
theorem scanMantissa_digits {ds : List Nat} (h : ∀ d ∈ ds, d < 10) (saw : Bool) (rest : List Byte) :
    scanMantissa saw (digitText ds ++ rest) =
      match scanMantissa saw rest with
      | .error e => .error e
      | .ok m => .ok ⟨ds ++ m.digits, (if saw then m.radix + ds.length else m.radix), m.rest⟩ := by
  induction ds with
  | nil =>
    simp only [digitText_nil, List.nil_append]
    split
    · assumption
    · rename_i m hm
      rw [hm]; cases saw <;> rfl
  | cons d ds ih =>
    have hd := h d (by simp)
    have hi := ih (fun x hx => h x (by simp [hx]))
    rw [digitText_cons, List.cons_append, scanMantissa, if_neg (digitByte_ne_radix hd), if_pos (isDigit_digitByte hd),
      hi]
    cases scanMantissa saw rest with
    | error e => rfl
    | ok m => cases saw <;> (simp [digitValue_digitByte hd]; try omega)

/-- The scan stops at a byte that is no digit and no radix point. -/
theorem scanMantissa_stop {rest : List Byte} (h : NoMantissa rest) (saw : Bool) :
    scanMantissa saw rest = .ok ⟨[], 0, rest⟩ := by
  cases rest with
  | nil => rfl
  | cons b rest =>
    obtain ⟨h1, h2⟩ := h b (by simp)
    simp [scanMantissa, h1, h2]

/-- A mantissa without a radix point. -/
theorem scanMantissa_integer {a : List Nat} (ha : ∀ d ∈ a, d < 10) {rest : List Byte} (hr : NoMantissa rest) :
    scanMantissa false (digitText a ++ rest) = .ok ⟨a, 0, rest⟩ := by
  rw [scanMantissa_digits ha, scanMantissa_stop hr]; simp

/-- A mantissa with a radix point. -/
theorem scanMantissa_point {a b : List Nat} (ha : ∀ d ∈ a, d < 10) (hb : ∀ d ∈ b, d < 10) {rest : List Byte}
    (hr : NoMantissa rest) :
    scanMantissa false (digitText a ++ byteRadix :: (digitText b ++ rest)) = .ok ⟨a ++ b, b.length, rest⟩ := by
  rw [scanMantissa_digits ha, scanMantissa, if_pos rfl]
  simp only [Bool.false_eq_true, if_false]
  rw [scanMantissa_digits hb, scanMantissa_stop hr]; simp

/-- What a mantissa scan after the radix point says of its text. -/
theorem scanMantissa_true_ok {t : List Byte} {m : Mantissa} (h : scanMantissa true t = .ok m) :
    t = digitText m.digits ++ m.rest ∧ (∀ d ∈ m.digits, d < 10) ∧ m.radix = m.digits.length ∧ NoMantissa m.rest := by
  induction t generalizing m with
  | nil => simp only [scanMantissa, Except.ok.injEq] at h; subst h; simp
  | cons b t ih =>
    simp only [scanMantissa, if_true] at h
    split at h
    · simp at h
    · rename_i hb
      split at h
      · rename_i hd
        split at h
        · simp at h
        · rename_i m' hm'
          simp only [Except.ok.injEq] at h
          subst h
          obtain ⟨h1, h2, h3, h4⟩ := ih hm'
          refine ⟨by simp [digitByte_digitValue hd, ← h1], ?_, by simp [h3], h4⟩
          intro d hm
          rcases List.mem_cons.mp hm with rfl | hm
          · exact digitValue_lt hd
          · exact h2 d hm
      · rename_i hd
        simp only [Except.ok.injEq] at h
        subst h
        refine ⟨rfl, by simp, rfl, ?_⟩
        intro c hc
        simp only [List.head?_cons, Option.mem_def, Option.some.injEq] at hc
        subst hc
        exact ⟨by simpa using hd, hb⟩

/-- What a mantissa scan says of its text: digits without a point, or digits around one. -/
theorem scanMantissa_false_ok {t : List Byte} {m : Mantissa} (h : scanMantissa false t = .ok m) :
    (∀ d ∈ m.digits, d < 10) ∧ NoMantissa m.rest ∧
      ((t = digitText m.digits ++ m.rest ∧ m.radix = 0) ∨
        ∃ a b, m.digits = a ++ b ∧ m.radix = b.length ∧ t = digitText a ++ byteRadix :: (digitText b ++ m.rest)) := by
  induction t generalizing m with
  | nil => simp only [scanMantissa, Except.ok.injEq] at h; subst h; simp
  | cons b t ih =>
    simp only [scanMantissa, Bool.false_eq_true, if_false] at h
    split at h
    · rename_i hb
      subst hb
      obtain ⟨h1, h2, h3, h4⟩ := scanMantissa_true_ok h
      exact ⟨h2, h4, .inr ⟨[], m.digits, rfl, h3, by simpa using h1⟩⟩
    · rename_i hb
      split at h
      · rename_i hd
        split at h
        · simp at h
        · rename_i m' hm'
          simp only [Except.ok.injEq] at h
          subst h
          obtain ⟨h2, h4, h5⟩ := ih hm'
          refine ⟨?_, h4, ?_⟩
          · intro d hm
            rcases List.mem_cons.mp hm with rfl | hm
            · exact digitValue_lt hd
            · exact h2 d hm
          · rcases h5 with ⟨h5, h6⟩ | ⟨a, c, h5, h6, h7⟩
            · exact .inl ⟨by simp [digitByte_digitValue hd, ← h5], h6⟩
            · exact .inr ⟨digitValue b :: a, c, by simp [h5], h6, by simp [digitByte_digitValue hd, ← h7]⟩
      · rename_i hd
        simp only [Except.ok.injEq] at h
        subst h
        refine ⟨by simp, ?_, .inl ⟨rfl, rfl⟩⟩
        intro c hc
        simp only [List.head?_cons, Option.mem_def, Option.some.injEq] at hc
        subst hc
        exact ⟨by simpa using hd, hb⟩

/-- The longest run of digits and radix points, and the rest: the mantissa scan fails exactly at a second radix point, and
else reads the run's digits (R124). -/
theorem scanMantissa_run {run tail : List Byte} (hr : ∀ b ∈ run, isDigit b = true ∨ b = byteRadix) (ht : NoMantissa tail)
    (saw : Bool) :
    (2 ≤ run.count byteRadix + saw.toNat → scanMantissa saw (run ++ tail) = .error .multipleRadix) ∧
    (¬ 2 ≤ run.count byteRadix + saw.toNat →
      ∃ r, scanMantissa saw (run ++ tail) = .ok ⟨(run.filter isDigit).map digitValue, r, tail⟩) := by
  induction run generalizing saw with
  | nil =>
    have := saw.toNat_le
    refine ⟨fun h => ?_, fun _ => ⟨0, scanMantissa_stop ht saw⟩⟩
    simp only [List.count_nil] at h; omega
  | cons b run ih =>
    have hr' : ∀ c ∈ run, isDigit c = true ∨ c = byteRadix := fun c hc => hr c (by simp [hc])
    rw [List.cons_append, scanMantissa]
    by_cases hb : b = byteRadix
    · subst hb
      simp only [if_true, List.count_cons_self]
      cases saw with
      | true =>
        refine ⟨fun _ => rfl, fun h => absurd ?_ h⟩
        simp only [Bool.toNat_true]; omega
      | false =>
        have h := ih hr' true
        simp only [Bool.toNat_true, Bool.toNat_false, Nat.add_zero] at h ⊢
        simpa [show isDigit byteRadix = false by decide] using h
    · have hd : isDigit b = true := (hr b (by simp)).resolve_right hb
      obtain ⟨h1, h2⟩ := ih hr' saw
      rw [if_neg hb, if_pos hd, List.count_cons_of_ne (Ne.symm (Ne.symm hb))]
      refine ⟨fun h => by rw [h1 h], fun h => ?_⟩
      obtain ⟨r, h⟩ := h2 h
      exact ⟨_, by rw [h, List.filter_cons_of_pos hd, List.map_cons]⟩

/-- Every text is its longest run of digits and radix points and a rest that goes on with neither. -/
theorem exists_mantissaRun (t : List Byte) : ∃ run tail, t = run ++ tail ∧
    (∀ b ∈ run, isDigit b = true ∨ b = byteRadix) ∧ NoMantissa tail := by
  induction t with
  | nil => exact ⟨[], [], rfl, by simp, noMantissa_nil⟩
  | cons b t ih =>
    by_cases hb : isDigit b = true ∨ b = byteRadix
    · obtain ⟨run, tail, rfl, h1, h2⟩ := ih
      exact ⟨b :: run, tail, rfl, by simpa using ⟨hb, h1⟩, h2⟩
    · refine ⟨[], b :: t, rfl, by simp, ?_⟩
      intro c hc
      simp only [List.head?_cons, Option.mem_def, Option.some.injEq] at hc
      subst hc
      simpa using hb

/-! ## The exponent -/

/-- The exponent's integer (R127). -/
def signedExponent (neg : Bool) (ds : List Nat) : Int := if neg then -(intOf ds : Int) else (intOf ds : Int)

/-- The digits of an exponent, read whole. -/
theorem exponentDigits_text {ds : List Nat} (hd : ∀ d ∈ ds, d < 10) (hn : ds ≠ []) (neg : Bool) {rest : List Byte}
    (hr : NoDigit rest) : exponentDigits neg (digitText ds ++ rest) = .ok (signedExponent neg ds, rest) := by
  rw [exponentDigits, takeDigits_text hd hr]
  cases ds with
  | nil => exact absurd rfl hn
  | cons d ds => rfl

/-- No marker, no exponent. -/
theorem scanExponent_none {t : List Byte} (h : ∀ b ∈ t.head?, isMarker b = false) (digits : List Nat) :
    scanExponent digits t = .ok (0, t) := by
  cases t with
  | nil => rfl
  | cons b t => simp [scanExponent, h b (by simp)]

/-- A marker, an optional sign and digits. -/
theorem scanExponent_some {digits ds : List Nat} (hdig : digits ≠ []) (hd : ∀ d ∈ ds, d < 10) (hn : ds ≠ []) {m : Byte}
    (hm : isMarker m = true) {sg : List Byte} (hs : sg = [] ∨ sg = [bytePlus] ∨ sg = [byteMinus]) {rest : List Byte}
    (hr : NoDigit rest) :
    scanExponent digits (m :: (sg ++ (digitText ds ++ rest))) =
      .ok (signedExponent (decide (sg = [byteMinus])) ds, rest) := by
  have hsplit : splitSign (sg ++ (digitText ds ++ rest)) = (decide (sg = [byteMinus]), digitText ds ++ rest) := by
    rcases hs with rfl | rfl | rfl
    · cases ds with
      | nil => exact absurd rfl hn
      | cons d ds => simp [splitSign, isSign_digitByte (hd d (by simp))]
    · rfl
    · rfl
  rw [scanExponent, if_pos hm, if_neg hdig, hsplit, exponentDigits_text hd hn _ hr]

/-- A marker without a digit in the mantissa (R124). -/
theorem scanExponent_missingBase {m : Byte} (hm : isMarker m = true) (t : List Byte) :
    scanExponent [] (m :: t) = .error .missingExpBase := by simp [scanExponent, hm]

/-- A marker and an optional sign without a digit after them (R124). -/
theorem scanExponent_missingDigits {digits : List Nat} (hdig : digits ≠ []) {m : Byte} (hm : isMarker m = true)
    {sg rest : List Byte} (hs : sg = [] ∨ sg = [bytePlus] ∨ sg = [byteMinus])
    (hn : sg = [] → ∀ b ∈ rest.head?, isSign b = false) (hr : NoDigit rest) :
    scanExponent digits (m :: (sg ++ rest)) = .error .missingExpDigits := by
  have hsplit : (splitSign (sg ++ rest)).2 = rest := by
    rcases hs with rfl | rfl | rfl
    · cases rest with
      | nil => rfl
      | cons b rest => simp [splitSign, hn rfl b (by simp)]
    · rfl
    · rfl
  have htake := takeDigits_text (ds := []) (by simp) hr
  rw [digitText_nil, List.nil_append] at htake
  rw [scanExponent, if_pos hm, if_neg hdig, hsplit, exponentDigits, htake]

/-- What an exponent scan says of its text. -/
theorem scanExponent_ok {digits : List Nat} {t rest : List Byte} {e : Int} (h : scanExponent digits t = .ok (e, rest)) :
    (e = 0 ∧ rest = t ∧ ∀ b ∈ t.head?, isMarker b = false) ∨
      ∃ m sg ds, isMarker m = true ∧ (sg = [] ∨ sg = [bytePlus] ∨ sg = [byteMinus]) ∧ (∀ d ∈ ds, d < 10) ∧ ds ≠ [] ∧
        digits ≠ [] ∧ t = m :: (sg ++ (digitText ds ++ rest)) := by
  cases t with
  | nil =>
    simp only [scanExponent, Except.ok.injEq, Prod.mk.injEq] at h
    exact .inl ⟨h.1.symm, h.2.symm, by simp⟩
  | cons b t =>
    simp only [scanExponent] at h
    split at h
    · rename_i hb
      split at h
      · simp at h
      · rename_i hdig
        right
        have key : ∀ sg u neg, t = sg ++ u → (sg = [] ∨ sg = [bytePlus] ∨ sg = [byteMinus]) →
            exponentDigits neg u = .ok (e, rest) → ∃ m sg ds, isMarker m = true ∧
              (sg = [] ∨ sg = [bytePlus] ∨ sg = [byteMinus]) ∧ (∀ d ∈ ds, d < 10) ∧ ds ≠ [] ∧ digits ≠ [] ∧
                b :: t = m :: (sg ++ (digitText ds ++ rest)) := by
          intro sg u neg ht hs hx
          have hspec := takeDigits_spec u
          rw [exponentDigits] at hx
          split at hx
          · simp at hx
          · rename_i d ds r htk
            simp only [Except.ok.injEq, Prod.mk.injEq] at hx
            rw [htk] at hspec
            refine ⟨b, sg, d :: ds, hb, hs, hspec.2, by simp, hdig, ?_⟩
            rw [ht, hspec.1, ← hx.2]
        cases t with
        | nil => exact key [] [] false rfl (.inl rfl) (by simpa [splitSign] using h)
        | cons c t =>
          by_cases hc : isSign c = true
          · have hs : [c] = [bytePlus] ∨ [c] = [byteMinus] := by
              simpa [isSign] using hc
            exact key [c] t (c == byteMinus) rfl (.inr hs) (by simpa [splitSign, hc] using h)
          · exact key [] (c :: t) false rfl (.inl rfl) (by simpa [splitSign, hc] using h)
    · rename_i hb
      simp only [Except.ok.injEq, Prod.mk.injEq] at h
      refine .inl ⟨h.1.symm, h.2.symm, ?_⟩
      intro c hc
      simp only [List.head?_cons, Option.mem_def, Option.some.injEq] at hc
      subst hc
      simpa using hb

/-! ## The whole text -/

/-- A text that begins with no sign has none. -/
theorem splitSign_none {t : List Byte} (h : ∀ b ∈ t.head?, isSign b = false) : splitSign t = (false, t) := by
  cases t with
  | nil => rfl
  | cons b t => simp [splitSign, h b (by simp)]

/-- An optional sign before a text that begins with none. -/
theorem splitSign_text {sg t : List Byte} (hs : sg = [] ∨ sg = [bytePlus] ∨ sg = [byteMinus])
    (h : ∀ b ∈ t.head?, isSign b = false) : splitSign (sg ++ t) = (decide (sg = [byteMinus]), t) := by
  rcases hs with rfl | rfl | rfl
  · simpa using splitSign_none h
  · rfl
  · rfl

/-- What the sign scan says of its text. -/
theorem splitSign_spec (t : List Byte) : ∃ sg, (sg = [] ∨ sg = [bytePlus] ∨ sg = [byteMinus]) ∧
    t = sg ++ (splitSign t).2 := by
  cases t with
  | nil => exact ⟨[], .inl rfl, rfl⟩
  | cons b t =>
    by_cases hb : isSign b = true
    · have hs : [b] = [bytePlus] ∨ [b] = [byteMinus] := by simpa [isSign] using hb
      exact ⟨[b], .inr hs, by simp [splitSign, hb]⟩
    · exact ⟨[], .inl rfl, by simp [splitSign, hb]⟩

/-- A text that begins with a digit or a radix point is parsed as a numeral. -/
theorem parse_numeral {sg t : List Byte} (hs : sg = [] ∨ sg = [bytePlus] ∨ sg = [byteMinus]) {b : Byte}
    (hb : t.head? = some b) (hd : isDigit b = true ∨ b = byteRadix) :
    parse (sg ++ t) = parseNumeral (decide (sg = [byteMinus])) t := by
  have hsign : ∀ c ∈ t.head?, isSign c = false := by
    intro c hc
    rw [hb, Option.mem_def, Option.some.injEq] at hc
    subst hc
    rcases hd with hd | rfl
    · by_contra h
      have := (isDigit_of_isSign (by simpa using h)).1
      simp [hd] at this
    · decide
  cases t with
  | nil => simp at hb
  | cons c t =>
    simp only [List.head?_cons, Option.some.injEq] at hb
    subst hb
    have hf : foldByte c = c := by
      rcases hd with hd | rfl
      · simp only [isDigit, decide_eq_true_eq] at hd
        simp only [foldByte]; rw [if_neg (by omega)]
      · decide
    have hi : c ≠ 0x69#8 := by rintro rfl; revert hd; decide
    have hn : c ≠ 0x6E#8 := by rintro rfl; revert hd; decide
    simp only [parse, splitSign_text hs hsign, List.map_cons, hf, foldedInfinity, foldedInf, foldedNan, List.cons.injEq]
    simp [hi, hn]

/-- What a successful parse of a numeral says of its text (R123, R128). -/
theorem parseNumeral_num {neg neg' : Bool} {t : List Byte} {digits : List Nat} {r : Nat} {e : Int}
    (h : parseNumeral neg t = .num neg' digits r e) :
    neg' = neg ∧ digits ≠ [] ∧ ∃ m, scanMantissa false t = .ok m ∧ m.digits = digits ∧ m.radix = r ∧
      scanExponent m.digits m.rest = .ok (e, []) := by
  simp only [parseNumeral] at h
  split at h
  · simp at h
  · rename_i m hm
    split at h
    · simp at h
    · rename_i x rest hx
      split at h
      · simp at h
      · rename_i hrest
        split at h
        · simp at h
        · rename_i hd
          simp only [Parsed.num.injEq] at h
          obtain ⟨h1, h2, h3, h4⟩ := h
          refine ⟨h1.symm, h2 ▸ hd, m, hm, h2, h3, ?_⟩
          simp only [ne_eq, not_not] at hrest
          rw [hx, h4, hrest]

end Sys2Proof.Machine
end

