-- ==== Sys2Proof/Laws/PerInstr.lean ====
section
/-! SUPPORT. The statement families made per instruction: one lemma per constructor of Instr. -/

namespace Sys2Proof.Laws

/-- A well-formed instruction's encoding is none of the four illegal cases of spec/30_encoding.md R110: its opcode is one of
R92, its reserved bits are 0, SGN and CLS are 0 outside ENCODE, and CLS is not 11 in it. -/
def EncodingIsLegal.Statement (i : Instr) : Prop :=
  i.wellFormed = true →
    (1 ≤ (opField (encode i)).toNat ∧ (opField (encode i)).toNat ≤ 7) ∧ resField (encode i) = 0 ∧
      (opField (encode i) ≠ 5 → sgnField (encode i) = false ∧ clsField (encode i) = 0) ∧
      (opField (encode i) = 5 → clsField (encode i) ≠ 3)

theorem EncodingIsLegal.fromstr : EncodingIsLegal.Statement .fromstr := by intro _; decide
theorem EncodingIsLegal.mul64 : EncodingIsLegal.Statement .mul64 := by intro _; decide
theorem EncodingIsLegal.div1e9 : EncodingIsLegal.Statement .div1e9 := by intro _; decide
theorem EncodingIsLegal.ltu64 : EncodingIsLegal.Statement .ltu64 := by intro _; decide
theorem EncodingIsLegal.encFin (sgn : Bool) : EncodingIsLegal.Statement (.encFin sgn) := by
  intro _; revert sgn; decide
theorem EncodingIsLegal.encInf (sgn : Bool) : EncodingIsLegal.Statement (.encInf sgn) := by
  intro _; revert sgn; decide
theorem EncodingIsLegal.encNan (sgn : Bool) : EncodingIsLegal.Statement (.encNan sgn) := by
  intro _; revert sgn; decide
theorem EncodingIsLegal.decode : EncodingIsLegal.Statement .decode := by intro _; decide
theorem EncodingIsLegal.tostr : EncodingIsLegal.Statement .tostr := by intro _; decide

end Sys2Proof.Laws
end

