-- ==== Sys2Proof/Laws/Step.lean ====
section
/-! SUPPORT. What a step can do, said once: of the unit (a completion) and of the host (a turn). -/

namespace Sys2Proof.Machine

/-- The block after a host's turn, whatever became of the host agent: unchanged, read while a command is in progress,
written at a legal place while none is, reset, or marked with a fault. -/
inductive TurnEffect (s : State) : State → Prop where
  | none : TurnEffect s s
  | read : TurnEffect s s.afterRead
  | write (offset width : Nat) (p : Place) (v : Word) (hp : legalPlace offset width = some p)
      (hb : busyBit s.status = false) : TurnEffect s (s.poke p v)
  | reset : TurnEffect s s.resetInput
  | fault (f : Fault) : TurnEffect s (s.mark f)

/-- What one operation of a statement can do to the block. -/
theorem runOp_effect {s t : State} {op : HostOp} {more : List HostOp} (h : runOp s op more = .ok t) :
    ∃ b host, TurnEffect s b ∧ t = { b with host := host } := by
  have hread : ∀ offset width, observedRead s offset width more = .ok t →
      ∃ b host, TurnEffect s b ∧ t = { b with host := host } := by
    intro offset width h
    simp only [observedRead] at h
    split at h
    · simp at h
    · rename_i v u hu
      obtain ⟨p, -, -, rfl⟩ := hostRead_ok hu
      simp only [Except.ok.injEq] at h
      exact ⟨_, _, .read, h.symm⟩
  have hwrite : ∀ offset width v u, hostWrite s offset width v = .ok u → TurnEffect s u := by
    intro offset width v u hu
    obtain ⟨p, hp, hb, rfl⟩ := hostWrite_ok hu
    exact .write _ _ _ _ hp hb
  cases op with
  | write offset v =>
    simp only [runOp] at h
    split at h
    · simp at h
    · rename_i u hu
      simp only [Except.ok.injEq] at h
      exact ⟨u, _, hwrite _ _ _ _ hu, h.symm⟩
  | read offset => exact hread _ _ h
  | readLength =>
    simp only [runOp] at h
    split at h
    · simp at h
    · rename_i v u hu
      obtain ⟨p, -, -, rfl⟩ := hostRead_ok hu
      simp only [Except.ok.injEq] at h
      exact ⟨_, _, .read, h.symm⟩
  | poll =>
    simp only [runOp] at h
    split at h
    · simp at h
    · rename_i v u hu
      obtain ⟨p, -, -, rfl⟩ := hostRead_ok hu
      simp only [Except.ok.injEq] at h
      exact ⟨_, _, .read, h.symm⟩
  | readPrivate offset =>
    simp only [runOp] at h
    split at h
    · simp at h
    · rename_i v u hu
      obtain ⟨p, -, -, rfl⟩ := hostRead_ok hu
      simp only [Except.ok.injEq] at h
      exact ⟨_, _, .read, h.symm⟩
  | writePrivate offset =>
    simp only [runOp] at h
    split at h
    · simp at h
    · rename_i u hu
      simp only [Except.ok.injEq] at h
      exact ⟨u, _, hwrite _ _ _ _ hu, h.symm⟩
  | branchNonzero l =>
    simp only [runOp, Except.ok.injEq] at h
    exact ⟨s, _, .none, h.symm⟩
  | bus dir address width v =>
    simp only [runOp, busTurn] at h
    split at h
    · simp only [Except.ok.injEq] at h
      exact ⟨s, _, .none, h.symm⟩
    · split at h
      · exact hread _ _ h
      · split at h
        · simp at h
        · rename_i u hu
          simp only [Except.ok.injEq] at h
          exact ⟨u, _, hwrite _ _ _ _ hu, h.symm⟩
  | resetInput =>
    simp only [runOp, Except.ok.injEq] at h
    exact ⟨_, _, .reset, h.symm⟩

/-- What a turn of the host can do to the block. -/
theorem hostTurn_effect (s : State) : ∃ b host, TurnEffect s b ∧ hostTurn s = { b with host := host } := by
  simp only [hostTurn]
  split
  · simp only [beginStatement]
    split
    · exact ⟨s, s.host, .none, rfl⟩
    · exact ⟨s, _, .none, rfl⟩
  · split
    · exact ⟨_, s.host, .fault _, rfl⟩
    · rename_i t ht
      exact runOp_effect ht

/-- Everything a step can do: complete the command in progress, with its next state, its fault mark or ILLEGAL_CMD; or a
turn of the host, while a command is in progress or while none is. -/
theorem step_cases {s t : State} (h : step s = .next t) :
    s.fault = none ∧
      ((busyBit s.status = true ∧ s.turns = 0 ∧
          ((∃ i, decode s.cmd = .ok i ∧ exec i s = .next t) ∨
            (∃ i f, decode s.cmd = .ok i ∧ exec i s = .fault f ∧ t = s.mark f) ∨
            ∃ e, decode s.cmd = .error e ∧ t = completeIllegal s)) ∨
        (busyBit s.status = true ∧ s.turns ≠ 0 ∧ t = hostTurn { s with turns := s.turns - 1 }) ∨
        (busyBit s.status = false ∧ t = hostTurn s)) := by
  unfold step at h
  split at h
  · simp at h
  · rename_i hf
    refine ⟨hf, ?_⟩
    split at h
    · rename_i hb
      split at h
      · rename_i ht
        refine .inl ⟨hb, ht, ?_⟩
        unfold completeCommand fetchCommand at h
        split at h
        · rename_i i hi
          cases hx : exec i s with
          | next u =>
            rw [hx] at h
            simp only [markFault, Host.Outcome.next.injEq] at h
            exact .inl ⟨i, hi, by rw [hx, h]⟩
          | fault f =>
            rw [hx] at h
            simp only [markFault, Host.Outcome.next.injEq] at h
            exact .inr (.inl ⟨i, f, hi, hx, h.symm⟩)
          | refused r => rw [hx] at h; simp [markFault] at h
        · rename_i e he
          simp only [Host.Outcome.next.injEq] at h
          exact .inr (.inr ⟨e, he, h.symm⟩)
      · rename_i ht
        simp only [Host.Outcome.next.injEq] at h
        exact .inr (.inl ⟨hb, ht, h.symm⟩)
    · rename_i hb
      simp only [Host.Outcome.next.injEq] at h
      exact .inr (.inr ⟨by simpa using hb, h.symm⟩)

end Sys2Proof.Machine
end

