-- ==== Sys2Proof/Laws/Stringify.lean ====
section
/-! SUPPORT. The laws of `Format` (spec/43_decoder_stringifier.md R224 to R227): its length, its first byte, and what the
parser reads from it; and the two ways TOSTR ends. -/

namespace Sys2Proof.Machine

/-- The text of zeros is a run of '0'. -/
theorem digitText_replicate_zero (k : Nat) : digitText (List.replicate k 0) = List.replicate k byteZero := by
  simp [digitText, digitByte, byteZero]

/-- The choice of R224, in numbers. -/
theorem isScientific_iff (n : Nat) (e : Int) :
    isScientific n e = true ↔ 34 ≤ (n : Int) - 1 + e ∨ (n : Int) - 1 + e ≤ -7 ∨ 0 < e := by
  rw [isScientific, decide_eq_true_eq]; rfl

/-- The digits of a number are its decimal text (R223). -/
theorem decimalText_decDigits (n : Nat) : DecimalText n (digitText (decDigits n)) := by
  obtain ⟨h1, h2, h3, h4, h5⟩ := decDigits_spec n
  have hm : (digitText (decDigits n)).map (fun b => b.toNat - 0x30) = decDigits n := by
    simp only [digitText, List.map_map]
    conv_rhs => rw [← List.map_id (decDigits n)]
    apply List.map_congr_left
    intro d hd; simp [digitByte_toNat (h1 d hd)]
  refine ⟨?_, by simpa [digitText] using h3, by rw [hm, h2], ?_⟩
  · intro b hb; simp only [digitText, List.mem_map] at hb
    obtain ⟨d, hd, rfl⟩ := hb; rw [digitByte_toNat (h1 d hd)]; have := h1 d hd; omega
  · intro h
    by_cases h0 : n = 0
    · rw [h5 h0]; rfl
    · exfalso; have := h4 h0
      cases hd : decDigits n with
      | nil => exact h3 hd
      | cons d ds =>
        rw [hd] at h this
        simp only [digitText_cons, List.head?_cons, Option.some.injEq] at h
        have hlt := h1 d (by rw [hd]; simp)
        have := congrArg BitVec.toNat h
        rw [digitByte_toNat hlt] at this
        have : d = 0 := by simp at this; omega
        subst this; simp at *

/-! ## Length (R231) -/

theorem scientificText_length_le {d : List Nat} {sci : Int} {k : Nat} (hd : d.length ≤ k) (hk : 1 ≤ k)
    (hs : sci.natAbs < 10 ^ 4) : (scientificText d sci).length ≤ k + 7 := by
  have h4 := decDigits_length_le (k := 4) (by norm_num) hs
  simp only [scientificText, List.length_append, digitText_length, List.length_cons, List.length_nil, List.length_take]
  split
  · simp only [List.length_cons, digitText_length, List.length_drop]; omega
  · simp only [List.length_nil]; omega

theorem pointText_length_le {d : List Nat} {e : Int} {k : Nat} (hd : d.length ≤ k) (he : e < 0)
    (hs : -7 < (d.length : Int) - 1 + e) : (pointText d e).length ≤ k + 7 := by
  simp only [pointText]
  split
  · simp only [List.length_append, List.length_cons, digitText_length, List.length_take, List.length_drop]; omega
  · simp only [List.length_append, List.length_cons, List.length_nil, List.length_replicate, digitText_length]; omega

/-- A formatted canonical value has at most 41 bytes, 42 with its sign. -/
theorem formatFinite_length_le {c : Nat} {e : Int} (hc : c < 10 ^ 34) (h1 : -6176 ≤ e) (h2 : e ≤ 6111) :
    (formatFinite c e).length ≤ 41 := by
  have hd := decDigits_length_le (k := 34) (by norm_num) hc
  have hp := decDigits_length_pos c
  simp only [formatFinite]
  by_cases hs : isScientific (decDigits c).length e = true
  · rw [if_pos hs]
    refine scientificText_length_le hd (by norm_num) ?_
    simp only [scientificExponent]; omega
  · rw [if_neg hs]
    rw [isScientific_iff] at hs
    split
    · rw [digitText_length]; omega
    · exact pointText_length_le hd (by omega) (by omega)

/-! ## First byte (R229) -/

/-- A formatted value begins with a digit. -/
theorem formatFinite_head (c : Nat) (e : Int) : ∃ d rest, d < 10 ∧ formatFinite c e = digitByte d :: rest := by
  have hlt : ∀ x ∈ decDigits c, x < 10 := fun x hx => decDigits_lt hx
  simp only [formatFinite]
  cases hd : decDigits c with
  | nil => exact absurd hd (decDigits_ne_nil c)
  | cons d ds =>
    have h : d < 10 := hlt d (by rw [hd]; simp)
    split
    · exact ⟨d, _, h, rfl⟩
    · split
      · exact ⟨d, _, h, rfl⟩
      · simp only [pointText]
        split
        · rename_i hrp
          obtain ⟨k, hk⟩ : ∃ k, (((d :: ds).length : Int) + e).toNat = k + 1 := ⟨_, (Nat.succ_pred (by omega)).symm⟩
          rw [hk]
          exact ⟨d, _, h, rfl⟩
        · exact ⟨0, _, by norm_num, rfl⟩

/-! ## What the parser reads (R232) -/

theorem noDigit_marker (t : List Byte) : NoMantissa (byteE :: t) := by
  intro b hb
  simp only [List.head?_cons, Option.mem_def, Option.some.injEq] at hb
  subst hb
  decide

/-- A text after its sign, read as a numeral. -/
theorem parseNumeral_of_scans {neg : Bool} {t rest : List Byte} {digits : List Nat} {r : Nat} {E : Int}
    (hm : scanMantissa false t = .ok ⟨digits, r, rest⟩) (he : scanExponent digits rest = .ok (E, []))
    (hd : digits ≠ []) : parseNumeral neg t = .num neg digits r E := by
  simp [parseNumeral, hm, he, hd]

/-- The exponent the scientific form writes is read back. -/
theorem scanExponent_scientific {digits : List Nat} (hd : digits ≠ []) (sci : Int) :
    scanExponent digits (byteE :: (if 0 ≤ sci then bytePlus else byteMinus) :: digitText (decDigits sci.natAbs)) =
      .ok (sci, []) := by
  have h := scanExponent_some hd (fun x hx => decDigits_lt hx) (decDigits_ne_nil sci.natAbs)
    (m := byteE) (by decide) (sg := [if 0 ≤ sci then bytePlus else byteMinus]) (rest := []) (by split <;> simp)
    noDigit_nil
  simp only [List.append_nil, List.cons_append, List.nil_append] at h
  rw [h]
  congr 2
  by_cases hs : 0 ≤ sci
  · simp only [hs, if_true, signedExponent, intOf_decDigits]
    rw [show decide ([bytePlus] = [byteMinus]) = false by decide]
    simp only [Bool.false_eq_true, if_false]; omega
  · simp only [hs, if_false, signedExponent, intOf_decDigits, decide_true, if_true]; omega

/-- The scientific form is read as all its digits, with `n - 1` of them after the point. -/
theorem parseNumeral_scientific {neg : Bool} {d : List Nat} (hd : ∀ x ∈ d, x < 10) (hn : d ≠ []) (sci : Int) :
    parseNumeral neg (scientificText d sci) = .num neg d (d.length - 1) sci := by
  have he := scanExponent_scientific hn sci
  cases d with
  | nil => exact absurd rfl hn
  | cons x ds =>
    have hx : ∀ y ∈ [x], y < 10 := by intro y hy; exact hd y (by simp at hy; simp [hy])
    have hds : ∀ y ∈ ds, y < 10 := fun y hy => hd y (by simp [hy])
    refine parseNumeral_of_scans (rest := byteE :: (if 0 ≤ sci then bytePlus else byteMinus) ::
      digitText (decDigits sci.natAbs)) ?_ he hn
    simp only [scientificText]
    cases ds with
    | nil =>
      have := scanMantissa_integer hx (noDigit_marker ((if 0 ≤ sci then bytePlus else byteMinus) ::
        digitText (decDigits sci.natAbs)))
      simpa using this
    | cons y ds =>
      have := scanMantissa_point hx hds (noDigit_marker ((if 0 ≤ sci then bytePlus else byteMinus) ::
        digitText (decDigits sci.natAbs)))
      simpa using this

/-- The plain form with a point is read with `-e` digits after the point. -/
theorem parseNumeral_point {neg : Bool} {d : List Nat} (hd : ∀ x ∈ d, x < 10) (hn : d ≠ []) {e : Int} (he : e < 0) :
    ∃ z, parseNumeral neg (pointText d e) = .num neg (List.replicate z 0 ++ d) (-e).toNat 0 := by
  have hend : ∀ digits : List Nat, scanExponent digits [] = .ok (0, []) := fun _ => rfl
  simp only [pointText]
  split
  · rename_i hrp
    refine ⟨0, ?_⟩
    have ht : ∀ x ∈ d.take ((d.length : Int) + e).toNat, x < 10 := fun x hx => hd x (List.mem_of_mem_take hx)
    have hr : ∀ x ∈ d.drop ((d.length : Int) + e).toNat, x < 10 := fun x hx => hd x (List.mem_of_mem_drop hx)
    have := scanMantissa_point ht hr noMantissa_nil
    simp only [List.take_append_drop, List.append_nil, List.length_drop] at this
    rw [show d.length - ((d.length : Int) + e).toNat = (-e).toNat by omega] at this
    simpa using parseNumeral_of_scans this (hend _) hn
  · rename_i hrp
    refine ⟨1 + (-((d.length : Int) + e)).toNat, ?_⟩
    have h0 : ∀ x ∈ [0], x < 10 := by simp
    have hz : ∀ x ∈ List.replicate (-((d.length : Int) + e)).toNat 0 ++ d, x < 10 := by
      intro x hx
      rcases List.mem_append.mp hx with hx | hx
      · rw [List.eq_of_mem_replicate hx]; norm_num
      · exact hd x hx
    have := scanMantissa_point h0 hz noMantissa_nil
    simp only [digitText_append, digitText_replicate_zero, digitText_cons, digitText_nil, List.append_nil,
      List.length_append, List.length_replicate] at this
    rw [show (-((d.length : Int) + e)).toNat + d.length = (-e).toNat by omega] at this
    have hp := parseNumeral_of_scans (neg := neg) this (hend _) (by simp)
    rw [List.replicate_add]
    simpa [digitByte, byteZero] using hp

/-- What `Parse` reads from a formatted value with its sign: a numeral whose digits denote the coefficient and whose
initial exponent is the value's. -/
theorem parse_formatFinite {sg : List Byte} (hs : sg = [] ∨ sg = [bytePlus] ∨ sg = [byteMinus]) (c : Nat) (e : Int) :
    ∃ D r E, parse (sg ++ formatFinite c e) = .num (decide (sg = [byteMinus])) D r E ∧ (∀ x ∈ D, x < 10) ∧
      significant D = significant (decDigits c) ∧ intOf D = c ∧ E - r = e := by
  obtain ⟨x, rest, hx, hf⟩ := formatFinite_head c e
  have hp := parse_numeral hs (t := formatFinite c e) (b := digitByte x) (by rw [hf]; rfl) (.inl (isDigit_digitByte hx))
  have hlt : ∀ x ∈ decDigits c, x < 10 := fun x hx => decDigits_lt hx
  have hpos := decDigits_length_pos c
  rw [hp]
  simp only [formatFinite]
  by_cases hsci : isScientific (decDigits c).length e = true
  · rw [if_pos hsci, parseNumeral_scientific hlt (decDigits_ne_nil c)]
    refine ⟨_, _, _, rfl, hlt, rfl, intOf_decDigits c, ?_⟩
    simp only [scientificExponent]; omega
  · rw [if_neg hsci]
    rw [isScientific_iff] at hsci
    split
    · rename_i h0
      have := scanMantissa_integer hlt noMantissa_nil
      rw [List.append_nil] at this
      rw [parseNumeral_of_scans this rfl (decDigits_ne_nil c)]
      exact ⟨_, _, _, rfl, hlt, rfl, intOf_decDigits c, by simp [h0]⟩
    · obtain ⟨z, hz⟩ := parseNumeral_point (neg := decide (sg = [byteMinus])) hlt (decDigits_ne_nil c) (e := e) (by omega)
      rw [hz]
      refine ⟨_, _, _, rfl, ?_, ?_, ?_, by omega⟩
      · intro y hy
        rcases List.mem_append.mp hy with hy | hy
        · rw [List.eq_of_mem_replicate hy]; norm_num
        · exact hlt y hy
      · clear hz
        induction z with
        | zero => rfl
        | succ z ih => simp [List.replicate_succ, significant]
      · rw [intOf_append, intOf_decDigits]
        have : ∀ z, intOf (List.replicate z 0) = 0 := by
          intro z
          induction z with
          | zero => rfl
          | succ z ih => rw [List.replicate_succ, intOf_cons, ih, Nat.zero_mul]
        rw [this]; simp

/-! ## TOSTR (R220 to R222, R231) -/

/-- A word that is special or canonical has a text of 1 to 42 bytes. -/
theorem render_some {w : QWord} (h : (unpack w).cls ≠ .noncanon) :
    ∃ text, render (unpack w) = some text ∧ 1 ≤ text.length ∧ text.length ≤ 42 := by
  have hsg : ∀ b, (signText b).length ≤ 1 := by intro b; cases b <;> decide
  obtain ⟨h1, h2, -⟩ := unpack_range w
  have hcoef := fun h => unpack_coef_lt (w := w) h
  generalize hu : unpack w = u at *
  simp only [render]
  split
  · exact absurd (by assumption) h
  · exact ⟨_, rfl, by decide, by decide⟩
  · refine ⟨_, rfl, ?_, ?_⟩ <;> simp only [List.length_append, textInfinity, List.length_cons, List.length_nil]
    · omega
    · have := hsg u.sign; omega
  · rename_i hf
    have hlen := formatFinite_length_le (hcoef hf) h1 h2
    obtain ⟨d, r, hd, he⟩ := formatFinite_head u.coef u.exp
    refine ⟨_, rfl, ?_, ?_⟩ <;> rw [List.length_append]
    · rw [he, List.length_cons]; omega
    · have := hsg u.sign; omega

theorem execTostr_some {s : State} {text : List Byte} (h : render (unpack s.x) = some text) :
    exec .tostr s = .next (complete (s.writeOut text)) := by simp only [exec, execTostr, h, finishText]

theorem execTostr_none {s : State} (h : render (unpack s.x) = none) :
    exec .tostr s = .next (raiseError s .noncanon .none) := by simp only [exec, execTostr, h, finishText]

/-- The state after TOSTR wrote a text that fits TXT_OUT. -/
theorem showsText_writeOut (s : State) {text : List Byte} (h : text.length ≤ 64) :
    (complete (s.writeOut text)).ShowsText text := by
  constructor
  · rw [show (complete (s.writeOut text)).outLen = BitVec.ofNat 32 text.length by simp only [complete, State.writeOut],
      BitVec.toNat_ofNat]
    omega
  · intro k hk
    rw [show (complete (s.writeOut text)).outputByte k = (s.writeOut text).outputByte k by
      simp only [State.outputByte, complete]]
    exact writeOut_outputByte s text hk

end Sys2Proof.Machine
end

