-- ==== Sys2Proof/Tests/Slice0.lean ====
section
/-! SUPPORT. The model's own tests: ill-formed terms refused, command words written out from the spec, one or two steps of
each command against the vectors of spec/95_test_vectors.md and the examples of the rules, and for every statement of
Obligations.lean with hypotheses a witness that meets them. -/

namespace Sys2Proof.Tests

open Sys2Proof.Machine

/-! ## Ill-formed terms (spec/30_encoding.md R113 to R115, spec/20_memory.md R65) -/

theorem test_wf_refuses_misaligned_word : (HostStmt.wr (.txtIn 2) 0).wellFormed [] = false := by decide
theorem test_wf_refuses_word_past_txtIn : (HostStmt.rd (.txtIn 7000)).wellFormed [] = false := by decide
theorem test_wf_refuses_word_past_txtOut : (HostStmt.rd (.txtOut 64)).wellFormed [] = false := by decide
theorem test_wf_refuses_write_of_txtOut : (HostStmt.wr (.txtOut 0) 0).wellFormed [] = false := by decide
theorem test_wf_refuses_mnemonic_not_in_table : (HostStmt.cmd (.encNan true)).wellFormed [] = false := by decide
theorem test_wf_refuses_text_past_txtIn : (HostStmt.wrtext (List.replicate 7001 0x31)).wellFormed [] = false := by
  simp only [HostStmt.wellFormed, List.length_replicate]; decide
theorem test_wf_refuses_branch_to_no_label : programWellFormed [.label 1, .bnz128 2] = false := by decide
theorem test_wf_refuses_label_defined_twice : programWellFormed [.label 1, .label 1] = false := by decide
theorem test_wf_accepts_loop : programWellFormed [.label 1, .cmd .div1e9, .wait, .mov128, .bnz128 1] = true := by decide

/-! ## Command words, written out bit by bit from opcode_table.json and spec/30_encoding.md R91, R92 -/

theorem test_decode_fromstr : decode 0b00000000000000000000000000000001#32 = .ok .fromstr := by decide
theorem test_decode_mul64 : decode 0b00000000000000000000000000000010#32 = .ok .mul64 := by decide
theorem test_decode_div1e9 : decode 0b00000000000000000000000000000011#32 = .ok .div1e9 := by decide
theorem test_decode_ltu64 : decode 0b00000000000000000000000000000100#32 = .ok .ltu64 := by decide
theorem test_decode_encFin_plus : decode 0b00000000000000000000000000000101#32 = .ok (.encFin false) := by decide
theorem test_decode_encFin_minus : decode 0b00000000000000000000000100000101#32 = .ok (.encFin true) := by decide
theorem test_decode_encInf_plus : decode 0b00000000000000000000001000000101#32 = .ok (.encInf false) := by decide
theorem test_decode_encInf_minus : decode 0b00000000000000000000001100000101#32 = .ok (.encInf true) := by decide
theorem test_decode_encNan : decode 0b00000000000000000000010000000101#32 = .ok (.encNan false) := by decide
theorem test_decode_encNan_sgn : decode 0b00000000000000000000010100000101#32 = .ok (.encNan true) := by decide
theorem test_decode_decode : decode 0b00000000000000000000000000000110#32 = .ok .decode := by decide
theorem test_decode_tostr : decode 0b00000000000000000000000000000111#32 = .ok .tostr := by decide

/-- R110: the illegal words, at the ends of the ranges of opcodes and at each field. -/
theorem test_decode_refuses :
    decode 0x00000000#32 = .error .reservedOpcode ∧ decode 0x00000008#32 = .error .reservedOpcode ∧
    decode 0x000000FF#32 = .error .reservedOpcode ∧ decode 0x00000801#32 = .error .reservedBits ∧
    decode 0x80000007#32 = .error .reservedBits ∧ decode 0x00000102#32 = .error .fieldOutsideEncode ∧
    decode 0x00000401#32 = .error .fieldOutsideEncode ∧ decode 0x00000605#32 = .error .reservedClass ∧
    decode 0x00000705#32 = .error .reservedClass := by decide

/-! ## Small states -/

/-- A command accepted on a state, its latency used up. -/
def issued (i : Instr) (s : State) : State := { s with cmd := encode i, status := 0x1#32 }

/-- A state that holds an input text. -/
def textState (text : List Byte) : State :=
  { State.reset with txtLen := BitVec.ofNat 32 text.length, mem := Memory.writeBytes [] 0x2000 text }

/-- A state with operands OPA, OPB and EXP_IN. -/
def operandState (a b : DWord) (e : Word) : State :=
  { State.reset with
    opaLo := a.extractLsb' 0 32, opaHi := a.extractLsb' 32 32
    opbLo := b.extractLsb' 0 32, opbHi := b.extractLsb' 32 32, expIn := e }

/-- A state whose host is about to take one turn. -/
def turnState (op : HostOp) (s : State) : State := { s with host := { s.host with ops := [op] } }

/-- The state a command leaves when it completes. -/
def after (i : Instr) (s : State) : Option State :=
  match exec i (issued i s) with
  | .next t => some t
  | _ => none

/-- STATUS and X after a command. -/
def statusX (i : Instr) (s : State) : Option (Word × QWord) := (after i s).map fun t => (t.status, t.x)

/-- STATUS and Y after a command. -/
def statusY (i : Instr) (s : State) : Option (Word × QWord) := (after i s).map fun t => (t.status, t.y)

/-- The text a state shows. -/
def shownText (s : State) : List (Option Byte) := (List.range s.outLen.toNat).map s.outputByte

/-! ## Each command (expected values from the rules' examples and spec/95_test_vectors.md) -/

/-- R120's example: "-1.5". -/
theorem test_fromstr_example :
    statusX .fromstr (textState [0x2D, 0x31, 0x2E, 0x35]) = some (0x2, 0xB03E000000000000000000000000000F) := by
  decide +kernel

/-- P4: "1..2" is MALFORMED with MULTIPLE_RADIX and leaves X as it was. -/
theorem test_fromstr_malformed :
    statusX .fromstr ((textState [0x31, 0x2E, 0x2E, 0x32]).setX 0x303C00000000000000000000000002D5) =
      some (0x236, 0x303C00000000000000000000000002D5) := by decide +kernel

/-- R170's corner: the square of 2^64 - 1. -/
theorem test_mul64_corner :
    statusY .mul64 (operandState 0xFFFFFFFFFFFFFFFF 0xFFFFFFFFFFFFFFFF 0) =
      some (0x2, 0xFFFFFFFFFFFFFFFE0000000000000001) := by decide +kernel

/-- P5: 12345678901234567 x 10^17. -/
theorem test_mul64_vector :
    statusY .mul64 (operandState 12345678901234567 100000000000000000 0) =
      some (0x2, 0x00003CDE6FFF9732DD46208EC1C60000) := by decide +kernel

/-- R175's corner: 2^128 - 1. -/
theorem test_div1e9_corner :
    (after .div1e9 (State.reset.setX 0xFFFFFFFFFFFFFFFFFFFFFFFFFFFFFFFF)).map (fun t => (t.y, t.aux)) =
      some (0x000000044B82FA09B5A52CB98B405447, 0x2DC9F9FF) := by decide +kernel

/-- R175's example: 10^34 - 1. -/
theorem test_div1e9_example :
    (after .div1e9 (State.reset.setX 0x0001ED09BEAD87C0378D8E63FFFFFFFF)).map (fun t => (t.y, t.aux)) =
      some (0x00000000000845951614014849FFFFFF, 999999999) := by decide +kernel

/-- R180's corners: the compare is unsigned, and the high word decides. -/
theorem test_ltu64_corners :
    (after .ltu64 (operandState 0x7FFFFFFFFFFFFFFF 0x8000000000000000 0)).map (·.aux) = some 1 ∧
      (after .ltu64 (operandState 0x100000000 0xFFFFFFFF 0)).map (·.aux) = some 0 := by decide +kernel

/-- R199: the largest finite value. -/
theorem test_encFin_largest :
    statusX (.encFin false) (operandState 99999999999999999 99999999999999999 6111) =
      some (0x2, 0x5FFFED09BEAD87C0378D8E63FFFFFFFF) := by decide +kernel

/-- R199: exponent 6112 is RANGE for a nonzero coefficient and is clamped for zero. -/
theorem test_encFin_range_and_clamp :
    statusX (.encFin false) (operandState 0 1 6112) = some (0x56, 0) ∧
      statusX (.encFin true) (operandState 0 0 6112) = some (0x2, 0xDFFE0000000000000000000000000000) := by
  decide +kernel

/-- R196's example. -/
theorem test_encInf_minus :
    statusX (.encInf true) State.reset = some (0x2, 0xF8000000000000000000000000000000) := by decide +kernel

/-- R197's corner: SGN = 1 still gives sign bit 0. -/
theorem test_encNan_sgn :
    statusX (.encNan true) State.reset = some (0x2, 0x7C000000000000000000000000000000) := by decide +kernel

/-- R210's example. -/
theorem test_decode_example :
    (after .decode (State.reset.setX 0xB03E000000000000000000000000000F)).map
      (fun t => (t.decInfo, t.decExp, t.y)) = some (0x181F0001, 0xFFFFFFFF, 15) := by decide +kernel

/-- R210's corner: the large form with every stored bit 0. -/
theorem test_decode_large_form :
    (after .decode (State.reset.setX 0x60000000000000000000000000000000)).map
      (fun t => (t.decInfo, t.decExp.toInt, t.y.toNat)) = some (0xE, -6176, 2 ^ 113) := by decide +kernel

/-- R220's example: "123.450", 7 bytes. -/
theorem test_tostr_example :
    (after .tostr (State.reset.setX 0x303A000000000000000000000001E23A)).map shownText =
      some [some 0x31, some 0x32, some 0x33, some 0x2E, some 0x34, some 0x35, some 0x30] := by decide +kernel

/-- R221: a non-canonical word is NONCANON, and OUT_LEN is not written. -/
theorem test_tostr_noncanonical :
    (after .tostr (State.reset.setX 0x60000000000000000000000000000000)).map (fun t => (t.status, t.outLen, t.mem)) =
      some (0x66, 0, []) := by decide +kernel

/-- R145: the corner cases of rounding. -/
theorem test_normalize_corners :
    normalize false [1] 0 6112 = .fin false 10 6111 ∧ normalize false [1] 0 6145 = .overflow ∧
    normalize false [1] 0 (-6177) = .fin false 0 (-6176) ∧ normalize false [6] 0 (-6177) = .fin false 1 (-6176) ∧
    normalize false [5] 0 (-6177) = .fin false 0 (-6176) ∧ normalize false [1, 5] 0 (-6177) = .fin false 2 (-6176) ∧
    normalize false [2, 5] 0 (-6177) = .fin false 2 (-6176) ∧ normalize false [9, 5] 1 (-6176) = .fin false 1 (-6175) ∧
    normalize false (List.replicate 34 9 ++ [5]) 0 6110 = .inf false ∧
    normalize false (List.replicate 34 9 ++ [5]) 0 6111 = .overflow ∧
    normalize true [0] 0 (-7000) = .fin true 0 (-6176) := by decide +kernel

/-- The interface: a table word placed as the next instruction is run by the next step. -/
theorem test_fetch_word_runs :
    (match step (State.reset.withFetchWord 32 0x405) with
      | .next t => some (t.cmd, t.status, t.x)
      | _ => none) = some (0x405, 0x2, 0x7C000000000000000000000000000000) := by decide +kernel

/-- Reset memory has the canonical form. -/
theorem test_reset_memory_wf : State.reset.mem.wf = true := by decide

/-! ## Witnesses: concrete states and operands that meet the hypotheses of each statement of Obligations.lean -/

/-- A text state holds its text. -/
theorem textState_holds {text : List Byte} (h : text.length < 2 ^ 32) : (textState text).HoldsText text := by
  constructor
  · simp only [State.textLength, textState, BitVec.toNat_ofNat]; omega
  · intro k hk
    simp only [State.inputByte, textState, Memory.read_writeBytes, Config.txtInBase]
    rw [if_pos (by omega), Nat.add_sub_cancel_left]

/-- So does the state on which FROMSTR is issued. -/
theorem issued_holds {i : Instr} {text : List Byte} (h : text.length < 2 ^ 32) :
    (issued i (textState text)).HoldsText text := textState_holds h

/-- A long text of ones. -/
def ones (n : Nat) : List Byte := List.replicate n 0x31

theorem ones_length (n : Nat) : (ones n).length = n := List.length_replicate

theorem witness_DecodeInvertsEncode :
    (Instr.encNan true).wellFormed = true ∧ decode 0x505#32 = .ok (.encNan true) := by decide

/-- Each of R110's four cases, at the ends of its range. -/
theorem witness_IllegalWordCompletesWithError :
    ∀ w ∈ [0x00000000#32, 0x00000008#32, 0x00000801#32, 0x00000101#32, 0x00000401#32, 0x00000605#32],
      (∃ e, decode w = .error e) ∧ ({ State.reset with cmd := w, status := 0x1#32 } : State).fault = none ∧
        busyBit 0x1#32 = true ∧ State.reset.turns = 0 := by
  intro w hw
  simp only [List.mem_cons, List.not_mem_nil, or_false] at hw
  rcases hw with rfl | rfl | rfl | rfl | rfl | rfl <;> exact ⟨⟨_, by rfl⟩, rfl, by decide, rfl⟩

theorem witness_StepRunsTheDecodedCommand_next :
    (issued .ltu64 State.reset).fault = none ∧ busyBit (issued .ltu64 State.reset).status = true ∧
      (issued .ltu64 State.reset).turns = 0 ∧ decode (issued .ltu64 State.reset).cmd = .ok .ltu64 ∧
      Instr.ltu64.wellFormed = true ∧ ∃ t, exec .ltu64 (issued .ltu64 State.reset) = .next t :=
  ⟨rfl, by decide, rfl, by decide, rfl, _, rfl⟩

theorem witness_StepRunsTheDecodedCommand_fault :
    (issued .fromstr { State.reset with txtLen := 1 }).fault = none ∧
      busyBit (issued .fromstr { State.reset with txtLen := 1 }).status = true ∧
      decode (issued .fromstr { State.reset with txtLen := 1 }).cmd = .ok .fromstr ∧
      ∃ f, exec .fromstr (issued .fromstr { State.reset with txtLen := 1 }) = .fault f :=
  ⟨rfl, by decide, by decide, .unwrittenInput 0, by rfl⟩

theorem witness_MarkedStateTakesNoStep :
    (State.reset.mark (.hostHazard 0)).fault = some (.hostHazard 0) := rfl

theorem witness_CommandAcceptance : busyBit State.reset.status = false := by decide

theorem witness_CommandCompletesInBoundedTime :
    let s := { issued .ltu64 State.reset with turns := 2 }
    s.fault = none ∧ busyBit s.status = true ∧ s.host.ops = [] ∧ s.host.rest = [] ∧ decode s.cmd = .ok .ltu64 ∧
      ∃ t, exec .ltu64 { s with turns := 0 } = .next t :=
  ⟨rfl, by decide, rfl, rfl, by decide, _, rfl⟩

theorem witness_IdleBlockKeepsItsState : State.reset.Settled := ⟨rfl, by decide, rfl, rfl⟩

/-- An access at a bus offset, on an idle block and while a command is in progress. -/
theorem witness_IllegalAccessIsBusError (offset width : Nat) (h : offset < 0x4000) :
    (let s := turnState (.bus .read (Config.codecBase + offset) width 0) State.reset;
      offset < 0x4000 ∧ s.fault = none ∧ (busyBit s.status = true → s.turns ≠ 0) ∧
        s.host.ops = [.bus .read (Config.codecBase + offset) width 0]) ∧
    (let s := turnState (.bus .write (Config.codecBase + offset) width 0) { issued .mul64 State.reset with turns := 1 };
      s.fault = none ∧ (busyBit s.status = true → s.turns ≠ 0) ∧
        s.host.ops = [.bus .write (Config.codecBase + offset) width 0]) :=
  ⟨⟨h, rfl, fun hb => absurd hb (show ¬ busyBit State.reset.status = true by decide), rfl⟩,
    rfl, fun _ => show (1 : Nat) ≠ 0 by decide, rfl⟩

/-- Illegal accesses of each kind of R65, at the ends of the unmapped ranges of R66; and legal ones beside them. -/
theorem witness_IllegalAccessIsBusError_offsets :
    (∀ o ∈ [0x050, 0x0FC, 0x140, 0x1FFC, 0x3B58, 0x3FFC], IllegalAccess o 32) ∧ IllegalAccess 0x008 16 ∧
      IllegalAccess 0x009 32 ∧ ∀ o ∈ [0x000, 0x04C, 0x100, 0x13C, 0x2000, 0x3B54], ¬ IllegalAccess o 32 := by
  simp only [IllegalAccess, Unmapped]; decide

theorem witness_WriteWhileBusyIsHazard :
    ∀ o ∈ [0x000, 0x004, 0x13C, 0x3B54], (o < 0x4000 ∧ ¬ IllegalAccess o 32) ∧
      (let s := turnState (.write o 0) { issued .mul64 State.reset with turns := 1 };
        s.fault = none ∧ busyBit s.status = true ∧ s.turns ≠ 0 ∧ s.host.ops = [.write o 0]) := by
  simp only [IllegalAccess, Unmapped]; decide

theorem witness_ReadOnlyWritesAreIgnored :
    ∀ o ∈ [0x004, 0x030, 0x04C, 0x100, 0x13C], busyBit State.reset.status = false ∧ o % 4 = 0 ∧
      (o = 0x004 ∨ (0x030 ≤ o ∧ o ≤ 0x04C) ∨ (0x100 ≤ o ∧ o ≤ 0x13C)) := by decide

theorem witness_HostAccessEffects_read :
    (∃ v, hostRead State.reset 0x000 32 = .ok (v, State.reset)) ∧ busyBit State.reset.status = false ∧
      (∃ v t, hostRead (issued .mul64 State.reset) 0x3B54 32 = .ok (v, t)) :=
  ⟨⟨_, rfl⟩, by decide, _, _, hostRead_of_place (legalPlace_txtIn (m := 1749) (by decide))⟩

theorem witness_HostAccessEffects_write :
    RegName.opaLo.writable = true ∧ RegName.opaLo ≠ .cmd ∧ RegName.x3.writable = true ∧ RegName.x3 ≠ .cmd ∧
      busyBit State.reset.status = false := by decide

theorem witness_HostAccessEffects_issue : ∃ t, hostWrite State.reset 0x000 32 0x2 = .ok t :=
  ⟨_, hostWrite_of_place (legalPlace_reg .cmd) (by decide)⟩

theorem witness_TextWordsAreLittleEndian : busyBit State.reset.status = false ∧ 0 < 1750 ∧ 1749 < 1750 := by decide

theorem witness_InterchangeBytesInOrder : busyBit State.reset.status = false ∧ 0 < 16 ∧ 15 < 16 := by decide

theorem witness_ReadsWhileBusyOfStableState :
    busyBit (issued .mul64 (textState [1, 2, 3, 4])).status = true ∧
      decode (issued .mul64 (textState [1, 2, 3, 4])).cmd = .ok .mul64 ∧ RegName.x0 ∉ resultRegs .mul64 ∧
      (List.range 4).map (issued .mul64 (textState [1, 2, 3, 4])).inputByte = [some 1, some 2, some 3, some 4] := by
  decide

/-- The last word of TXT_OUT, written, while a command other than TOSTR runs and while an illegal word does; the ends of
the window's mapped ranges. -/
theorem witness_ReadsWhileBusyOfStableState_output :
    (List.range 4).map (fun j => ({ issued .mul64 State.reset with
      mem := Memory.writeBytes [] 0x13C [1, 2, 3, 4] } : State).outputByte (4 * 15 + j)) =
        [some 1, some 2, some 3, some 4] ∧
    decode (issued .mul64 State.reset).cmd ≠ .ok .tostr ∧ decode 0x605#32 = .error .reservedClass ∧
    ∀ o ∈ [0x000, 0x04C, 0x100, 0x13C, 0x2000, 0x3B54], o < 0x4000 ∧ ¬ IllegalAccess o 32 := by
  simp only [IllegalAccess, Unmapped]; decide

/-- The last word of TXT_IN, written. -/
theorem witness_ReadsWhileBusyOfStableState_last :
    (List.range 4).map (fun j => ({ issued .fromstr State.reset with
      mem := Memory.writeBytes [] 0x3B54 [1, 2, 3, 4] } : State).inputByte (4 * 1749 + j)) =
        [some 1, some 2, some 3, some 4] := by decide

theorem witness_WaitPollsUntilIdle :
    (turnState .poll State.reset).host.ops = [.poll] ∧ busyBit (turnState .poll State.reset).status = false ∧
      (turnState .poll (issued .mul64 State.reset)).host.ops = [.poll] ∧
      busyBit (turnState .poll (issued .mul64 State.reset)).status = true := by decide

/-- A host that begins its program, on an idle block. -/
def startState (program : List HostStmt) (s : State) : State := { s with host := HostAgent.start program }

/-- The shortest and the longest text. -/
theorem witness_WriteTextPlacesTheText :
    ∀ n ∈ [0, 7000],
      busyBit (startState [.wrtext (ones n)] State.reset).status = false ∧ (ones n).length ≤ 7000 ∧
        (startState [.wrtext (ones n)] State.reset).host.ops = [] ∧
        (startState [.wrtext (ones n)] State.reset).host.rest = [.wrtext (ones n)] := by
  intro n h
  have hn : n ≤ 7000 := by
    simp only [List.mem_cons, List.not_mem_nil, or_false] at h
    omega
  exact ⟨show busyBit State.reset.status = false by decide, by rw [ones_length]; exact hn, rfl, rfl⟩

theorem witness_MoveCopiesResultToOperand :
    let s := startState [.mov128] State.reset
    busyBit s.status = false ∧ s.host.ops = [] ∧ s.host.got = [] ∧ s.host.rest = [.mov128] := by decide

/-- Y zero, and Y nonzero in its last word only. -/
theorem witness_BranchIfResultNonzero :
    ∀ s ∈ [startState [.bnz128 0] State.reset, startState [.bnz128 0] { State.reset with y3 := 1 }],
      busyBit s.status = false ∧ s.host.ops = [] ∧ s.host.got = [] ∧ s.host.rest = [.bnz128 0] := by decide

theorem witness_ResetAbandonsTheCommand :
    let s := turnState .resetInput { issued .mul64 State.reset with turns := 1 }
    s.fault = none ∧ busyBit s.status = true ∧ s.turns ≠ 0 ∧ s.host.ops = [.resetInput] := by decide

theorem witness_Mul64ByPartialProducts :
    ∃ t, exec .mul64 (operandState 0xFFFFFFFFFFFFFFFF 0xFFFFFFFFFFFFFFFF 0) = .next t := ⟨_, rfl⟩

/-- Two issues with the operands exchanged; a factor 1; a factor 0. -/
theorem witness_Mul64Laws :
    (∃ t, exec .mul64 (operandState 3 5 0) = .next t) ∧ (∃ v, exec .mul64 (operandState 5 3 0) = .next v) ∧
      (operandState 3 5 0).opa = (operandState 5 3 0).opb ∧ (operandState 3 5 0).opb = (operandState 5 3 0).opa ∧
      (operandState 0xFFFFFFFFFFFFFFFF 1 0).opb = 1 ∧ (operandState 0xFFFFFFFFFFFFFFFF 0 0).opb = 0 :=
  ⟨⟨_, rfl⟩, ⟨_, rfl⟩, by decide, by decide, by decide, by decide⟩

theorem witness_Div1e9ByLongDivision :
    ∃ t, exec .div1e9 (State.reset.setX 0xFFFFFFFFFFFFFFFFFFFFFFFFFFFFFFFF) = .next t := ⟨_, rfl⟩

/-- A chain of four issues from any X; X = 10^36 - 1 and X = 10^36 stand on the two sides of the last clause. -/
theorem witness_FourDivisionsDivideByTenTo36 (v : QWord) : ∃ s1 s2 s3 s4 t1 t2 t3 t4 : State, s1.x = v ∧
    exec .div1e9 s1 = .next t1 ∧ s2.x = t1.y ∧ exec .div1e9 s2 = .next t2 ∧ s3.x = t2.y ∧ exec .div1e9 s3 = .next t3 ∧
    s4.x = t3.y ∧ exec .div1e9 s4 = .next t4 :=
  ⟨State.reset.setX v, State.reset.setX _, State.reset.setX _, State.reset.setX _, _, _, _, _, setX_x _ _, rfl,
    setX_x _ _, rfl, setX_x _ _, rfl, setX_x _ _, rfl⟩

theorem witness_FourDivisionsDivideByTenTo36_sides :
    (10 ^ 36 - 1 < 10 ^ 36) ∧ ¬ (10 ^ 36 < 10 ^ 36) ∧ 10 ^ 36 < 2 ^ 128 := by norm_num

/-- The largest coefficient at both ends of the exponents; zero far outside them. -/
theorem witness_EncFinPacksTheValue :
    ∀ s ∈ [operandState 99999999999999999 99999999999999999 6111,
        operandState 99999999999999999 99999999999999999 (BitVec.ofInt 32 (-6176)), operandState 0 0 0x80000000],
      s.opa.toNat * 10 ^ 17 + s.opb.toNat ≤ 10 ^ 34 - 1 ∧
        (s.opa.toNat * 10 ^ 17 + s.opb.toNat = 0 ∨ (-6176 ≤ s.expIn.toInt ∧ s.expIn.toInt ≤ 6111)) := by
  decide +kernel

/-- The coefficient 10^34; the exponents just outside the range. -/
theorem witness_EncFinRangeErrors :
    ∀ s ∈ [operandState 100000000000000000 0 0, operandState 0 1 6112, operandState 0 1 (BitVec.ofInt 32 (-6177))],
      10 ^ 34 - 1 < s.opa.toNat * 10 ^ 17 + s.opb.toNat ∨
        (s.opa.toNat * 10 ^ 17 + s.opb.toNat ≠ 0 ∧ (s.expIn.toInt < -6176 ∨ 6111 < s.expIn.toInt)) := by
  decide +kernel

theorem witness_DecodeInvertsEncFin : ∃ t v : State,
    (operandState 0 15 (BitVec.ofInt 32 (-6176))).opa.toNat * 10 ^ 17 +
        (operandState 0 15 (BitVec.ofInt 32 (-6176))).opb.toNat ≤ 10 ^ 34 - 1 ∧
      -6176 ≤ (operandState 0 15 (BitVec.ofInt 32 (-6176))).expIn.toInt ∧
      (operandState 0 15 (BitVec.ofInt 32 (-6176))).expIn.toInt ≤ 6111 ∧
      exec (.encFin true) (operandState 0 15 (BitVec.ofInt 32 (-6176))) = .next t ∧
      (State.reset.setX t.x).x = t.x ∧ exec .decode (State.reset.setX t.x) = .next v :=
  ⟨_, _, by decide +kernel, by decide +kernel, by decide +kernel, rfl, setX_x _ _, rfl⟩

/-- Each of the four commands completes without error. -/
theorem witness_WrittenWordsAreCanonical :
    ∀ i ∈ [Instr.fromstr, .encFin true, .encInf true, .encNan true],
      (issued i (textState [0x31])).status = 0x1#32 ∧
        (after i (textState [0x31])).map (fun t => errBit t.status) = some false := by decide +kernel

/-- A word on each side: canonical, and non-canonical in the small and in the large form. -/
theorem witness_TostrRejectsNoncanonicalWords :
    (issued .tostr State.reset).status = 0x1#32 ∧
      (unpack 0x3041ED09BEAD87C0378D8E6400000000#128).cls = .noncanon ∧
      (unpack 0x60000000000000000000000000000000#128).cls = .noncanon := by decide +kernel

/-- The largest coefficient, negative Infinity, and a NaN with a payload. -/
theorem witness_TostrWritesTheText :
    (unpack (State.reset.setX 0x5FFFED09BEAD87C0378D8E63FFFFFFFF#128).x).cls = .finite ∧
      (unpack (State.reset.setX 0xF8000000000000000000000000000000#128).x).cls = .inf ∧
      (unpack (State.reset.setX 0x7C000000000000000000000000000001#128).x).cls ≠ .noncanon := by decide +kernel

theorem witness_SpecialAndSignedTexts :
    (0xF8000000000000000000000000000001#128).extractLsb' 122 5 = 0b11110 ∧
      (0xFC000000000000000000000000000000#128).extractLsb' 122 5 = 0b11111 ∧
      (unpack 0x80000000000000000000000000000000#128).cls = .finite := by decide +kernel

theorem witness_DigitsByBillions : 1000000000 ≤ 1000000000 := le_refl _

/-- "0E-6176", written by TOSTR from X = 0 and read again. -/
theorem witness_TostrFromstrRoundTrip :
    ∃ t, (unpack State.reset.x).cls = .finite ∧ exec .tostr State.reset = .next t ∧
      t.ShowsText [0x30, 0x45, 0x2D, 0x36, 0x31, 0x37, 0x36] ∧
      (textState [0x30, 0x45, 0x2D, 0x36, 0x31, 0x37, 0x36]).HoldsText [0x30, 0x45, 0x2D, 0x36, 0x31, 0x37, 0x36] := by
  refine ⟨_, by decide +kernel, rfl, ⟨by decide +kernel, ?_⟩, textState_holds (by decide)⟩
  decide +kernel

/-- The three special words meet the other hypotheses too: each has a text TOSTR writes. -/
theorem witness_TostrFromstrRoundTrip_special :
    render (unpack 0x78000000000000000000000000000000#128) = some textInfinity ∧
      render (unpack 0xF8000000000000000000000000000000#128) = some (0x2D :: textInfinity) ∧
      render (unpack 0x7C000000000000000000000000000000#128) = some textNan := by
  decide +kernel

/-- Length 7000 on the one side; the length 6999 of a written text on the other. -/
theorem witness_TooLongIsRejected :
    7000 ≤ ({ State.reset with txtLen := 7000 } : State).txtLen.toNat ∧
      (issued .fromstr (textState (ones 6999))).txtLen.toNat ≤ 6999 ∧
      (issued .fromstr (textState (ones 6999))).status = 0x1#32 ∧
      ∃ t, exec .fromstr (issued .fromstr (textState (ones 6999))) = .next t := by
  have hlt : (ones 6999).length < 2 ^ 32 := by rw [ones_length]; decide
  have hh := issued_holds (i := .fromstr) hlt
  refine ⟨by decide, ?_, rfl, _, execFromstr_of_holds ?_ hh⟩
  · have := hh.1
    rw [ones_length] at this
    exact le_of_eq this
  · rw [ones_length]; decide

/-- Byte 0 of the longest text; byte 1 of a text whose byte 0 is written. -/
theorem witness_UnwrittenInputFaults :
    (let s : State := { State.reset with txtLen := 6999 };
      s.txtLen.toNat < 7000 ∧ 0 < s.txtLen.toNat ∧ s.inputByte 0 = none ∧ ∀ j, j < 0 → s.inputByte j ≠ none) ∧
    (let s : State := { textState [0x31] with txtLen := 2 };
      s.txtLen.toNat < 7000 ∧ 1 < s.txtLen.toNat ∧ s.inputByte 1 = none ∧ ∀ j, j < 1 → s.inputByte j ≠ none) := by
  decide

/-- The empty text, which is outside the language, "1", which is inside, and the longest text. -/
theorem witness_MalformedTextsAreThoseOutsideTheLanguage :
    ∀ n ∈ [0, 1, 6999], (ones n).length < 7000 ∧ (issued .fromstr (textState (ones n))).status = 0x1#32 ∧
      (issued .fromstr (textState (ones n))).HoldsText (ones n) := by
  intro n h
  have hn : n < 7000 := by
    simp only [List.mem_cons, List.not_mem_nil, or_false] at h
    omega
  exact ⟨by rw [ones_length]; exact hn, rfl, issued_holds (by rw [ones_length]; omega)⟩

/-- R126's examples "1..2", "-e1", "1E-", "1e5x" and ".", each with its sub-code. -/
theorem witness_MalformedTextsAreThoseOutsideTheLanguage_subCodes :
    MalformedAs [0x31, 0x2E, 0x2E, 0x32] 2 ∧ MalformedAs [0x2D, 0x65, 0x31] 4 ∧ MalformedAs [0x31, 0x45, 0x2D] 3 ∧
      MalformedAs [0x31, 0x65, 0x35, 0x78] 5 ∧ MalformedAs [0x2E] 1 := by
  have led : ∀ (p : Byte → Prop) (b : Byte) (t : List Byte), ¬ p b → ¬ LedBy p (b :: t) := by
    rintro p b t h ⟨c, u, e, hc⟩; simp only [List.cons.injEq] at e; exact h (e.1 ▸ hc)
  have nil : ∀ p : Byte → Prop, ¬ LedBy p [] := by rintro p ⟨c, u, e, -⟩; simp at e
  refine ⟨⟨[], [0x31, 0x2E, 0x2E, 0x32], [], .inl rfl, rfl, fun _ => led _ _ _ ?_, ?_, ?_, nil _,
      by rw [FirstFailure, if_pos (by decide)]⟩,
    ⟨[0x2D], [], [0x65, 0x31], .inr (.inr rfl), rfl, fun h => absurd h (by decide), ?_, ?_, led _ _ _ ?_, .inl ⟨⟨_, _, rfl, ?_⟩, ?_, rfl⟩⟩,
    ⟨[], [0x31], [0x45, 0x2D], .inl rfl, rfl, fun _ => led _ _ _ ?_, ?_, ?_, led _ _ _ ?_,
      .inr (.inl ⟨0x45, [0x2D], [], rfl, ?_, .inr (.inr rfl), fun _ => nil _, ?_, .inl ⟨nil _, rfl⟩⟩)⟩,
    ⟨[], [0x31], [0x65, 0x35, 0x78], .inl rfl, rfl, fun _ => led _ _ _ ?_, ?_, ?_, led _ _ _ ?_,
      .inr (.inl ⟨0x65, [], [0x35, 0x78], rfl, ?_, .inl rfl, fun _ => led _ _ _ ?_, ?_,
        .inr ⟨[0x35], [0x78], rfl, ?_, ?_, led _ _ _ ?_, ?_, rfl⟩⟩)⟩,
    ⟨[], [0x2E], [], .inl rfl, rfl, fun _ => led _ _ _ ?_, ?_, ?_, nil _, .inr (.inr (.inr ⟨rfl, ?_, rfl⟩))⟩⟩
  all_goals first
    | decide
    | (simp only [SignByte, MarkerByte, DigitByte, SpecialText, Digits]; decide)

/-- "-Infinity", "+iNf" and "NaN". -/
theorem witness_SpecialWordsComplete :
    (SignText [0x2D] ∧ SpecialText textInfinity ∧ (textState ([0x2D] ++ textInfinity)).HoldsText ([0x2D] ++ textInfinity)) ∧
    (SignText [0x2B] ∧ SpecialText [0x69, 0x4E, 0x66] ∧
      (textState [0x2B, 0x69, 0x4E, 0x66]).HoldsText ([0x2B] ++ [0x69, 0x4E, 0x66])) ∧
    (SignText [] ∧ SpecialText textNan ∧ (textState textNan).HoldsText ([] ++ textNan)) :=
  ⟨⟨by simp [SignText], by left; decide, textState_holds (by decide)⟩,
    ⟨by simp [SignText], by right; left; decide, textState_holds (text := [0x2B, 0x69, 0x4E, 0x66]) (by decide)⟩,
    by simp [SignText], by right; right; decide, textState_holds (text := textNan) (by decide)⟩

/-- "-1.5E+3"; ".0" (no integer digit) and "9" (no fraction digit). -/
theorem witness_NumeralTuple :
    SignText [0x2D] ∧ SignText [0x2B] ∧ Digits [0x31] ∧ Digits [0x35] ∧ Digits [0x33] ∧ Digits [0x30] ∧ Digits [0x39] ∧
      Digits [] ∧ [(0x31 : Byte)] ++ [0x35] ≠ [] ∧ ([] : List Byte) ++ [0x30] ≠ [] ∧ [(0x39 : Byte)] ++ [] ≠ [] ∧
      [(0x33 : Byte)] ≠ [] ∧ ((0x45 : Byte) = 0x45 ∨ (0x45 : Byte) = 0x65) := by
  simp only [SignText, Digits]; decide

/-- "0", "-1.5" and "1E6111": the three clauses, the last of them with "1E6112" and "1E6144" at the ends of its range. -/
theorem witness_ExactNumeralsComplete :
    (textState [0x30]).HoldsText [0x30] ∧ parse [0x30] = .num false [0] 0 0 ∧
    (textState [0x2D, 0x31, 0x2E, 0x35]).HoldsText [0x2D, 0x31, 0x2E, 0x35] ∧
    parse [0x2D, 0x31, 0x2E, 0x35] = .num true [1, 5] 1 0 ∧
    parse [0x31, 0x45, 0x36, 0x31, 0x31, 0x31] = .num false [1] 0 6111 ∧
    parse [0x31, 0x45, 0x2D, 0x36, 0x31, 0x37, 0x36] = .num false [1] 0 (-6176) ∧
    parse [0x31, 0x45, 0x36, 0x31, 0x31, 0x32] = .num false [1] 0 6112 ∧
    parse [0x31, 0x45, 0x36, 0x31, 0x34, 0x34] = .num false [1] 0 6144 ∧
    (textState [0x31, 0x45, 0x36, 0x31, 0x34, 0x34]).HoldsText [0x31, 0x45, 0x36, 0x31, 0x34, 0x34] := by
  refine ⟨textState_holds (by decide), by decide +kernel, textState_holds (by decide), ?_⟩
  exact ⟨by decide +kernel, by decide +kernel, by decide +kernel, by decide +kernel, by decide +kernel,
    textState_holds (by decide)⟩

/-- "1E6145" overflows, "1E6144" does not. -/
theorem witness_NumeralsOverflowOrComplete :
    ∀ text ∈ [[(0x31 : Byte), 0x45, 0x36, 0x31, 0x34, 0x35], [0x31, 0x45, 0x36, 0x31, 0x34, 0x34]],
      text.length < 7000 ∧ (textState text).HoldsText text ∧
        (parse text = .num false [1] 0 6145 ∨ parse text = .num false [1] 0 6144) ∧ ∀ d ∈ [1], d < 10 := by
  intro text h
  simp only [List.mem_cons, List.not_mem_nil, or_false] at h
  rcases h with rfl | rfl
  · exact ⟨by decide, textState_holds (by decide), .inl (by decide +kernel), by decide⟩
  · exact ⟨by decide, textState_holds (by decide), .inr (by decide +kernel), by decide⟩

/-- 34 nines and a 5 at exponent 6110 round to Infinity; with a 4 they do not. -/
theorem witness_NumeralsOverflowOrComplete_top :
    ∀ d ∈ [4, 5], parse (digitText (List.replicate 34 9 ++ [d]) ++ [0x45, 0x36, 0x31, 0x31, 0x30]) =
        .num false (List.replicate 34 9 ++ [d]) 0 6110 ∧
      (6110 : Int) - (0 : Nat) + ((List.replicate 34 9 ++ [d]).dropWhile (· == 0)).length - 34 = 6111 ∧
      ((2 * 10 ^ 34 - 1) * 10 ^ (35 - 34) ≤ 2 * intOf (List.replicate 34 9 ++ [d]) ↔ d = 5) ∧
      (textState (digitText (List.replicate 34 9 ++ [d]) ++ [0x45, 0x36, 0x31, 0x31, 0x30])).HoldsText
        (digitText (List.replicate 34 9 ++ [d]) ++ [0x45, 0x36, 0x31, 0x31, 0x30]) := by
  intro d hd
  simp only [List.mem_cons, List.not_mem_nil, or_false] at hd
  rcases hd with rfl | rfl <;>
    exact ⟨by decide +kernel, by decide +kernel, by decide +kernel, textState_holds (by decide)⟩

/-- 9.5E-6176 carries out of its window of one digit, 9.4E-6176 does not, and 9E-6177 has an empty window; a run of zeros;
1E6112, above the range. -/
theorem witness_NormalizedValuesInRange :
    normalize false [9, 5] 1 (-6176) = .fin false 1 (-6175) ∧
      (2 * 10 ^ (2 - 1) - 1) * 10 ^ 1 ≤ 2 * intOf [9, 5] ∧
    normalize false [9, 4] 1 (-6176) = .fin false 9 (-6176) ∧
      ¬ (2 * 10 ^ (2 - 1) - 1) * 10 ^ 1 ≤ 2 * intOf [9, 4] ∧
    normalize false [9] 0 (-6177) = .fin false 1 (-6176) ∧
    normalize true [0, 0] 0 7000 = .fin true 0 6111 ∧ normalize false [1] 0 6112 = .fin false 10 6111 ∧
    (∀ d ∈ [9, 5, 4, 0, 1], d < 10) := by decide +kernel

/-- 15E-6177, a tie; 1E6112, above the range. -/
theorem witness_RoundsToNearestEven :
    (∀ d ∈ [1, 5], d < 10) ∧ [1, 5].dropWhile (· == 0) ≠ [] ∧ normalize false [1, 5] 0 (-6177) = .fin false 2 (-6176) ∧
      [1].dropWhile (· == 0) ≠ [] ∧ normalize false [1] 0 6112 = .fin false 10 6111 := by decide +kernel

/-- The least bound, with the longest text of a fraction. -/
theorem witness_SaturatingExponentIsEnough : ∃ D : List Nat,
    (13176 : Int) ≤ 13176 ∧ (6998 : Int) ≤ 6998 ∧ D.length ≤ 6999 ∧ (6998 : Int) ≤ D.length :=
  ⟨List.replicate 6998 1, le_refl _, le_refl _, by rw [List.length_replicate]; decide, by rw [List.length_replicate]; decide⟩

/-- "1.5": FROMSTR's coefficient 15 in two halves, at exponent -1. -/
theorem witness_EncFinAgreesWithFromstr :
    ∃ t, (textState [0x31, 0x2E, 0x35]).HoldsText [0x31, 0x2E, 0x35] ∧ parse [0x31, 0x2E, 0x35] = .num false [1, 5] 1 0 ∧
      normalize false [1, 5] 1 0 = .fin false 15 (-1) ∧ exec .fromstr (textState [0x31, 0x2E, 0x35]) = .next t ∧
      (operandState 0 15 0xFFFFFFFF).opa.toNat = 15 / 10 ^ 17 ∧ (operandState 0 15 0xFFFFFFFF).opb.toNat = 15 % 10 ^ 17 ∧
      (operandState 0 15 0xFFFFFFFF).expIn.toInt = -1 :=
  ⟨_, textState_holds (by decide), by decide +kernel, by decide +kernel,
    execFromstr_of_holds (text := [0x31, 0x2E, 0x35]) (by decide) (textState_holds (by decide)), by decide +kernel,
    by decide +kernel, by decide +kernel⟩

/-- Every command has a next state from a small state. -/
theorem witness_CommandsWriteOnlyTheirRow :
    ∀ i ∈ [Instr.fromstr, .mul64, .div1e9, .ltu64, .encFin true, .encInf true, .encNan true, .decode, .tostr],
      (after i (textState [0x31])).isSome = true := by decide +kernel

/-- Two states that differ in a register the command does not read. -/
theorem witness_CommandsReadOnlyTheirRow :
    AgreeOnReads .mul64 (issued .mul64 (operandState 3 5 0)) (issued .mul64 (operandState 3 5 7)) ∧
      (issued .mul64 (operandState 3 5 0)).status = 0x1#32 ∧ (issued .mul64 (operandState 3 5 7)).status = 0x1#32 ∧
      issued .mul64 (operandState 3 5 0) ≠ issued .mul64 (operandState 3 5 7) :=
  ⟨⟨rfl, rfl⟩, rfl, rfl, by decide⟩

theorem witness_ErrorsChangeOnlyStatus :
    (issued (.encFin false) (operandState 0 1 6112)).status = 0x1#32 ∧
      (after (.encFin false) (operandState 0 1 6112)).map (fun t => errBit t.status) = some true := by decide +kernel

theorem witness_ErrorsByCommand :
    (after .fromstr State.reset).map (fun t => (ecodeField t.status, esubField t.status)) = some (3, 1) ∧
      (after .decode State.reset).map (fun t => ecodeField t.status) = some 0 := by decide +kernel

/-- The reset state meets the invariant and has a step. -/
theorem witness_EveryStepKeepsInvariant : State.reset.Inv ∧ step State.reset = .next State.reset := by
  refine ⟨⟨rfl, fun a h => absurd rfl h, fun _ _ => rfl, ⟨by decide, by decide⟩, fun _ _ => rfl, .inl rfl, fun _ => rfl,
    by decide, by decide⟩, rfl⟩

end Sys2Proof.Tests
end

/-! R47: the result of a command is a pure function of the state it reads (R44). Two issues are compared command by
command: both are completions with equal results, or the same error, or the same fault. -/

namespace Sys2Proof.Machine

/-! ## FROMSTR by the length of its text and by what is gathered -/

theorem execFromstr_tooLong {s : State} (h : 7000 ≤ s.textLength) :
    exec .fromstr s = .next (raiseError s .tooLong .none) := by
  simp [exec, execFromstr, Config.lenLim, h]

theorem execFromstr_unwritten {s : State} {k : Nat} (h : s.textLength < 7000)
    (hg : gatherInput s 0 s.textLength = .error k) : exec .fromstr s = .fault (.unwrittenInput k) := by
  simp [exec, execFromstr, Config.lenLim, Nat.not_le.mpr h, hg]

theorem execFromstr_gathered {s : State} {text : List Byte} (h : s.textLength < 7000)
    (hg : gatherInput s 0 s.textLength = .ok text) :
    exec .fromstr s = .next (finishConversion s (convertText text)) := by
  simp [exec, execFromstr, Config.lenLim, Nat.not_le.mpr h, hg]

/-- Gathering reads the bytes of its range and nothing else, so states that agree there gather the same text or stop at
the same byte. -/
theorem gatherInput_congr {s u : State} {k n : Nat} (h : ∀ j, k ≤ j → j < k + n → s.inputByte j = u.inputByte j) :
    gatherInput s k n = gatherInput u k n := by
  induction n generalizing k with
  | zero => rfl
  | succ n ih =>
    have head : s.inputByte k = u.inputByte k := h k le_rfl (by omega)
    have tail : gatherInput s (k + 1) n = gatherInput u (k + 1) n := ih fun j h1 h2 => h j (by omega) (by omega)
    simp only [gatherInput, head, tail]

/-! ## Two issues that end alike -/

/-- Issued on `s` and on `u`, the command ends with the same STATUS and, without an error, the same results; or with the
same fault. -/
def EndsAlike (i : Instr) (s u : State) : Prop :=
  (∃ t v, exec i s = .next t ∧ exec i u = .next v ∧ t.status = v.status ∧
    (errBit t.status = false → AgreeOnResults i t v)) ∨
  ∃ f, exec i s = .fault f ∧ exec i u = .fault f

/-- `complete()` writes no result (R26). -/
theorem AgreeOnResults.complete {i : Instr} {t v : State} (h : AgreeOnResults i t v) :
    AgreeOnResults i (complete t) (complete v) := by
  cases i <;> exact h

/-- Both issues complete without a new error. -/
theorem endsAlike_of_complete {i : Instr} {s u t v : State} (hs : exec i s = .next (complete t))
    (hu : exec i u = .next (complete v)) (hst : t.status = v.status) (hr : AgreeOnResults i t v) :
    EndsAlike i s u :=
  .inl ⟨_, _, hs, hu, by simp [hst], fun _ => hr.complete⟩

/-- Both issues write the same word to X and complete. Stated for every word: on a literal one, matching the two STATUS
hypotheses would compute its four words. -/
theorem endsAlike_of_completeX {i : Instr} {s u : State} {w : QWord} (hs : exec i s = .next (complete (s.setX w)))
    (hu : exec i u = .next (complete (u.setX w))) (hst : s.status = u.status)
    (hr : AgreeOnResults i (s.setX w) (u.setX w)) : EndsAlike i s u :=
  endsAlike_of_complete hs hu hst hr

/-- Both issues raise the same error (R242). -/
theorem endsAlike_of_raiseError {i : Instr} {s u : State} {code : ErrorCode} {sub : SubCode}
    (hs : exec i s = .next (raiseError s code sub)) (hu : exec i u = .next (raiseError u code sub)) :
    EndsAlike i s u := by
  refine .inl ⟨_, _, hs, hu, rfl, fun hok => ?_⟩
  simp [raiseError] at hok

/-! ## The commands -/

section
variable {s u : State}

/-- FROMSTR reads TXT_LEN and, of a text that is not too long, its bytes (R44, R120, R121, R272). -/
theorem endsAlike_fromstr (hst : s.status = u.status) (hlen : s.txtLen = u.txtLen)
    (hbytes : ∀ k, k < s.textLength → s.textLength < 7000 → s.inputByte k = u.inputByte k) :
    EndsAlike .fromstr s u := by
  have hl : u.textLength = s.textLength := congrArg BitVec.toNat hlen.symm
  have gather_eq (h : s.textLength < 7000) : gatherInput u 0 u.textLength = gatherInput s 0 s.textLength := by
    rw [hl]
    exact gatherInput_congr fun j _ hj => (hbytes j (by omega) h).symm
  rcases execFromstr_cases s with ⟨hlong, hs⟩ | ⟨hlt, k, hg, hs⟩ | ⟨hlt, text, hg, hs⟩
  · exact endsAlike_of_raiseError hs (execFromstr_tooLong (hl ▸ hlong))
  · exact .inr ⟨_, hs, execFromstr_unwritten (hl ▸ hlt) ((gather_eq hlt).trans hg)⟩
  · have hu := execFromstr_gathered (hl ▸ hlt) ((gather_eq hlt).trans hg)
    cases hc : convertText text with
    | word w =>
      rw [hc] at hs hu
      exact endsAlike_of_completeX hs hu hst (by simp [AgreeOnResults])
    | error code sub =>
      rw [hc] at hs hu
      exact endsAlike_of_raiseError hs hu

/-- MUL64 reads OPA and OPB (R44, R170). -/
theorem endsAlike_mul64 (hst : s.status = u.status) (ha : s.opa = u.opa) (hb : s.opb = u.opb) :
    EndsAlike .mul64 s u :=
  endsAlike_of_complete rfl rfl hst (by simp [AgreeOnResults, ha, hb])

/-- DIV1E9 reads X (R44, R175). -/
theorem endsAlike_div1e9 (hst : s.status = u.status) (hx : s.x = u.x) : EndsAlike .div1e9 s u :=
  endsAlike_of_complete rfl rfl hst (by simp [AgreeOnResults, hx])

/-- LTU64 reads OPA and OPB (R44, R180). -/
theorem endsAlike_ltu64 (hst : s.status = u.status) (ha : s.opa = u.opa) (hb : s.opb = u.opb) :
    EndsAlike .ltu64 s u :=
  endsAlike_of_complete rfl rfl hst (by simp [AgreeOnResults, ha, hb])

/-- ENC.FIN reads OPA, OPB and EXP_IN: both issues pack the same word, or both are out of RANGE (R44, R190). -/
theorem endsAlike_encFin (sgn : Bool) (hst : s.status = u.status) (ha : s.opa = u.opa) (hb : s.opb = u.opb)
    (he : s.expIn = u.expIn) : EndsAlike (.encFin sgn) s u := by
  have hs : exec (.encFin sgn) s = _ := execEncFin_eq rfl
  have hu : exec (.encFin sgn) u = _ := execEncFin_eq rfl
  rw [← ha, ← hb, ← he] at hu
  cases hw : encodeFinite sgn (s.opa.toNat * 10 ^ 17 + s.opb.toNat) s.expIn.toInt with
  | none =>
    rw [hw] at hs hu
    exact endsAlike_of_raiseError hs hu
  | some w =>
    rw [hw] at hs hu
    exact endsAlike_of_completeX hs hu hst (by simp [AgreeOnResults])

/-- ENC.INF reads no register (R44, R196). -/
theorem endsAlike_encInf (sgn : Bool) (hst : s.status = u.status) : EndsAlike (.encInf sgn) s u :=
  endsAlike_of_completeX (w := packInfinity sgn) rfl rfl hst (by simp [AgreeOnResults])

/-- ENC.NAN reads no register (R44, R197). -/
theorem endsAlike_encNan (sgn : Bool) (hst : s.status = u.status) : EndsAlike (.encNan sgn) s u :=
  endsAlike_of_completeX (w := packNan) rfl rfl hst (by simp [AgreeOnResults])

/-- DECODE reads X (R44, R210). -/
theorem endsAlike_decode (hst : s.status = u.status) (hx : s.x = u.x) : EndsAlike .decode s u :=
  endsAlike_of_complete rfl rfl hst (by simp [AgreeOnResults, hx])

/-- The same text written out shows the same OUT_LEN and the same 64 bytes (R222). -/
theorem agreeOnResults_writeOut (s u : State) (text : List Byte) :
    AgreeOnResults .tostr (s.writeOut text) (u.writeOut text) :=
  ⟨rfl, fun k hk => by rw [writeOut_outputByte s text hk, writeOut_outputByte u text hk]⟩

/-- TOSTR reads X: both issues show the same text, or both find X non-canonical (R44, R220, R221). -/
theorem endsAlike_tostr (hst : s.status = u.status) (hx : s.x = u.x) : EndsAlike .tostr s u := by
  have hs : exec .tostr s = .next (finishText s (render (unpack s.x))) := rfl
  have hu : exec .tostr u = .next (finishText u (render (unpack u.x))) := rfl
  rw [← hx] at hu
  cases hr : render (unpack s.x) with
  | none =>
    rw [hr] at hs hu
    exact endsAlike_of_raiseError hs hu
  | some text =>
    rw [hr] at hs hu
    exact endsAlike_of_complete hs hu hst (agreeOnResults_writeOut s u text)

/-- R47: states that agree on what the command reads end alike, whatever STATUS they hold in common. -/
theorem endsAlike_of_agreeOnReads {i : Instr} (h : AgreeOnReads i s u) (hst : s.status = u.status) :
    EndsAlike i s u := by
  cases i with
  | fromstr => exact endsAlike_fromstr hst h.1 h.2
  | mul64 => exact endsAlike_mul64 hst h.1 h.2
  | div1e9 => exact endsAlike_div1e9 hst h
  | ltu64 => exact endsAlike_ltu64 hst h.1 h.2
  | encFin sgn =>
    obtain ⟨ha, hb, he⟩ := h
    exact endsAlike_encFin sgn hst ha hb he
  | encInf sgn => exact endsAlike_encInf sgn hst
  | encNan sgn => exact endsAlike_encNan sgn hst
  | decode => exact endsAlike_decode hst h
  | tostr => exact endsAlike_tostr hst h

end

/-- Settles O56: command by command, from the agreement of the two states on what the command reads. -/
theorem commandsReadOnlyTheirRow : Obligations.CommandsReadOnlyTheirRow :=
  fun _ _ _ hreads hs hu => endsAlike_of_agreeOnReads hreads (hs.trans hu.symm)

end Sys2Proof.Machine

/-! R61, R63, R68: what a host access does to the block. Of an idle block a read returns the word held and leaves the state
as it is; a write of an RW register or of a TXT_IN word stores the value, which then reads back; a write of CMD issues. -/

namespace Sys2Proof.Machine

section
variable {s : State}

/-! ## Reads and hazards -/

/-- On an idle block a legal read returns the word held, drawing nothing (R68). -/
theorem hostRead_of_idle {offset width : Nat} {p : Place} (hp : legalPlace offset width = some p)
    (hb : busyBit s.status = false) : hostRead s offset width = .ok (s.held p, s) := by
  rw [hostRead_of_place hp, peek_of_not_inFlux (inFlux_idle hb p), afterRead_idle s hb]

/-- A legal write while a command is in progress is a HostHazard (R280). -/
theorem hostWrite_of_busy {offset width : Nat} {p : Place} {v : Word} (hp : legalPlace offset width = some p)
    (hb : busyBit s.status = true) : hostWrite s offset width v = .error (.hostHazard offset) := by
  simp [hostWrite, hp, hb]

/-- R68 for reads: no register, buffer byte or flag changes, and on an idle block a second read answers as the first. -/
theorem hostRead_effect {t : State} {offset width : Nat} {v : Word} (h : hostRead s offset width = .ok (v, t)) :
    (busyBit s.status = false → t = s ∧ hostRead t offset width = .ok (v, t)) ∧
      (∀ r, t.reg r = s.reg r) ∧ (∀ a, t.mem.read a = s.mem.read a) ∧ t.fault = s.fault := by
  obtain ⟨p, -, -, rfl⟩ := hostRead_ok h
  refine ⟨fun hb => ?_, fun r => afterRead_reg s r, fun a => by rw [afterRead_mem], afterRead_fault s⟩
  have same : s.afterRead = s := afterRead_idle s hb
  rw [same] at h ⊢
  exact ⟨rfl, h⟩

/-! ## Writes of registers -/

/-- An RW register other than CMD takes the value, and nothing else changes (R68). -/
theorem sameBut_writeReg {r : RegName} (hw : r.writable = true) (hc : r ≠ .cmd) (v : Word) :
    SameBut s (s.writeReg r v) [r] := by
  obtain ⟨hmem, hfault, hhost, hturns, hdraws, -⟩ := writeReg_frame (s := s) hc v
  refine ⟨fun q hq => ?_, fun a => by rw [hmem], hfault, hhost, hturns, hdraws⟩
  rw [writeReg_reg hw hc, if_neg (List.ne_of_not_mem_cons hq)]

/-- R68 for writes of RW registers other than CMD. -/
theorem hostWrite_reg_effect {r : RegName} (hb : busyBit s.status = false) (hw : r.writable = true) (hc : r ≠ .cmd)
    (v : Word) :
    ∃ t, hostWrite s r.offset 32 v = .ok t ∧ t.reg r = v ∧ SameBut s t [r] ∧ hostRead t r.offset 32 = .ok (v, t) := by
  have stored : (s.writeReg r v).reg r = v := by rw [writeReg_reg hw hc, if_pos rfl]
  have idle : busyBit (s.writeReg r v).status = false := by
    obtain ⟨-, -, -, -, -, hstatus⟩ := writeReg_frame (s := s) hc v
    rw [hstatus, hb]
  refine ⟨s.writeReg r v, hostWrite_of_place (legalPlace_reg r) hb, stored, sameBut_writeReg hw hc v, ?_⟩
  rw [hostRead_of_idle (legalPlace_reg r) idle, State.held, stored]

/-- R68 for writes of CMD: the word is accepted, and BUSY makes the next write a hazard. -/
theorem hostWrite_cmd_effect (hb : busyBit s.status = false) (w w' : Word) :
    ∃ t, hostWrite s RegName.cmd.offset 32 w = .ok t ∧ t.cmd = w ∧ busyBit t.status = true ∧
      hostWrite t RegName.cmd.offset 32 w' = .error (.hostHazard RegName.cmd.offset) :=
  have busy : busyBit (s.accept w).status = true := busyBit_statusAccepted
  ⟨s.accept w, hostWrite_of_place (legalPlace_reg .cmd) hb, accept_cmd s w, busy, hostWrite_of_busy (legalPlace_reg .cmd) busy⟩

/-! ## Writes of TXT_IN words -/

/-- A buffer word whose four bytes are written holds them packed: no byte of it is drawn (R61, R272). -/
theorem bufferWord_of_written {offset : Nat} {b : Nat → Byte} (h : ∀ j, j < 4 → s.mem.read (offset + j) = some (b j)) :
    s.bufferWord offset = packBytes b := by
  have read_zero : s.mem.read offset = some (b 0) := h 0 (by decide)
  simp [State.bufferWord, packBytes, h, read_zero]

/-- The whole of a TXT_IN write on the buffers: its four bytes, little-endian, and every other byte as before. -/
theorem poke_txtIn_read (k a : Nat) (v : Word) :
    (s.poke (.txtIn k) v).mem.read a =
      if 0x2000 + k ≤ a ∧ a < 0x2000 + k + 4 then some (unpackByte v (a - (0x2000 + k))) else s.mem.read a :=
  Memory.read_writeWord s.mem (0x2000 + k) a v

/-- Byte `j` of the word written at byte `k` of TXT_IN is input byte `k + j` (R61, R63). -/
theorem poke_txtIn_inputByte {j : Nat} (k : Nat) (v : Word) (hj : j < 4) :
    (s.poke (.txtIn k) v).inputByte (k + j) = some (unpackByte v j) := by
  simp only [State.inputByte, Config.txtInBase, ← Nat.add_assoc]
  rw [poke_txtIn_read, if_pos (by omega), Nat.add_sub_cancel_left]

/-- The TXT_IN word written is the word held. -/
theorem poke_txtIn_held (k : Nat) (v : Word) : (s.poke (.txtIn k) v).held (.txtIn k) = v := by
  have written : ∀ j, j < 4 →
      (s.poke (.txtIn k) v).mem.read (Config.txtInBase + k + j) = some (unpackByte v j) := fun j hj => by
    rw [Nat.add_assoc]
    exact poke_txtIn_inputByte k v hj
  rw [State.held, bufferWord_of_written written, packBytes_unpackByte]

end

/-! ## The statements -/

/-- Settles O12, clause by clause: reads, writes of RW registers, writes of CMD. -/
theorem hostAccessEffects : Obligations.HostAccessEffects :=
  ⟨fun _ _ _ _ h => hostRead_effect h, fun _ _ v hb hw hc => hostWrite_reg_effect hb hw hc v,
    fun _ w w' hb => hostWrite_cmd_effect hb w w'⟩

/-- Settles O13: the bytes and their frame from the write of the word, the read back from the word then held. -/
theorem textWordsAreLittleEndian : Obligations.TextWordsAreLittleEndian := by
  intro s m v hb hm
  have place : legalPlace (0x2000 + 4 * m) 32 = some (.txtIn (4 * m)) := legalPlace_txtIn hm
  refine ⟨s.poke (.txtIn (4 * m)) v, hostWrite_of_place place hb,
    poke_txtIn_inputByte (j := 0) _ v (by decide), poke_txtIn_inputByte (j := 1) _ v (by decide),
    poke_txtIn_inputByte (j := 2) _ v (by decide), poke_txtIn_inputByte (j := 3) _ v (by decide),
    fun a ha => ?_, fun r => poke_txtIn_reg s (4 * m) v r, ?_⟩
  · rw [poke_txtIn_read, if_neg (by omega)]
  · have idle : busyBit (s.poke (.txtIn (4 * m)) v).status = false := hb
    rw [hostRead_of_idle place idle, poke_txtIn_held]

end Sys2Proof.Machine

/-! R91 to R93, R110, R113: the command word. Which words the decoder refuses, field by field; the step that completes a
refused word; and the words the assembler emits, which decode back to their commands. -/

namespace Sys2Proof.Machine

/-! ## What the decoder refuses -/

/-- The opcodes of R92 without ENCODE are 0x01 to 0x04, 0x06 and 0x07. -/
theorem plainCommand_eq_none_iff (op : BitVec 8) :
    plainCommand op = none ↔ op.toNat = 0 ∨ op.toNat = 5 ∨ 8 ≤ op.toNat := by
  unfold plainCommand
  split
  case h_7 => simp only [imp_false, true_iff] at *; omega
  all_goals simp only [reduceCtorEq, false_iff]; omega

/-- ENCODE refuses the class 11 and no other (R93). -/
theorem encodeCommand_error_iff (cls : BitVec 2) (sgn : Bool) :
    (∃ e, encodeCommand cls sgn = .error e) ↔ cls = 3 := by
  have class_cases : cls = 0 ∨ cls = 1 ∨ cls = 2 ∨ cls = 3 := by revert cls; decide
  rcases class_cases with rfl | rfl | rfl | rfl <;> simp [encodeCommand]

/-- Bits 10..8 are CLS and SGN (R91): they are not all 0 when one of the two is not. -/
theorem extractLsb'_8_3_ne_zero_iff (w : Word) : w.extractLsb' 8 3 ≠ 0 ↔ sgnField w = true ∨ clsField w ≠ 0 := by
  have join : w.extractLsb' 8 3 = clsField w ++ BitVec.ofBool (sgnField w) := by
    apply BitVec.eq_of_getLsbD_eq
    intro i hi
    obtain rfl | rfl | rfl : i = 0 ∨ i = 1 ∨ i = 2 := by omega
    all_goals simp only [clsField, sgnField, BitVec.getLsbD_append, BitVec.getLsbD_extractLsb']; simp
  have zero_iff : ∀ (cls : BitVec 2) (sgn : Bool), cls ++ BitVec.ofBool sgn ≠ 0 ↔ sgn = true ∨ cls ≠ 0 := by decide
  rw [join]
  exact zero_iff _ _

section
variable {w : Word}

theorem decode_of_resField_ne (hr : resField w ≠ 0) : decode w = .error .reservedBits := if_pos hr

theorem decode_of_encodeOpcode (hr : resField w = 0) (ho : opField w = 5) :
    decode w = encodeCommand (clsField w) (sgnField w) := by
  rw [decode, if_neg (not_not.mpr hr), if_pos ho]

theorem decode_of_reservedOpcode (hr : resField w = 0) (ho : opField w ≠ 5) (hp : plainCommand (opField w) = none) :
    decode w = .error .reservedOpcode := by
  rw [decode, if_neg (not_not.mpr hr), if_neg ho, hp]

theorem decode_of_plainCommand {i : Instr} (hr : resField w = 0) (ho : opField w ≠ 5)
    (hp : plainCommand (opField w) = some i) :
    decode w = if sgnField w = true ∨ clsField w ≠ 0 then .error .fieldOutsideEncode else .ok i := by
  rw [decode, if_neg (not_not.mpr hr), if_neg ho, hp]

/-- Of the opcodes other than ENCODE, those outside R92 are refused, and those of R92 with SGN or CLS set. -/
theorem decode_error_iff_of_ne_encodeOpcode (hr : resField w = 0) (ho : opField w ≠ 5) :
    (∃ e, decode w = .error e) ↔
      ((opField w).toNat = 0 ∨ 8 ≤ (opField w).toNat) ∨ sgnField w = true ∨ clsField w ≠ 0 := by
  have not_five : (opField w).toNat ≠ 5 := fun h => ho (BitVec.eq_of_toNat_eq h)
  have reserved_iff := plainCommand_eq_none_iff (opField w)
  simp only [not_five, false_or] at reserved_iff
  rw [← reserved_iff]
  cases hp : plainCommand (opField w) with
  | none => simp [decode_of_reservedOpcode hr ho hp]
  | some i =>
    rw [decode_of_plainCommand hr ho hp]
    split
    · next hset => exact ⟨fun _ => .inr hset, fun _ => ⟨_, rfl⟩⟩
    · next hclear => simp only [reduceCtorEq, exists_false, hclear, or_false]

/-- R110 in the fields of the word. -/
theorem decode_error_iff :
    (∃ e, decode w = .error e) ↔
      ((opField w).toNat = 0 ∨ 8 ≤ (opField w).toNat) ∨ resField w ≠ 0 ∨
        (opField w ≠ 5 ∧ (sgnField w = true ∨ clsField w ≠ 0)) ∨ (opField w = 5 ∧ clsField w = 3) := by
  by_cases hr : resField w = 0
  · by_cases ho : opField w = 5
    · have five : (opField w).toNat = 5 := congrArg BitVec.toNat ho
      rw [decode_of_encodeOpcode hr ho, encodeCommand_error_iff, five]
      tauto
    · rw [decode_error_iff_of_ne_encodeOpcode hr ho]
      tauto
  · exact ⟨fun _ => .inr (.inl hr), fun _ => ⟨_, decode_of_resField_ne hr⟩⟩

end

/-! ## The completion of an illegal word -/

/-- With a command in progress whose turns are used up, the step is its completion (R26, R290). -/
theorem step_of_due {s : State} (hf : s.fault = none) (hb : busyBit s.status = true) (ht : s.turns = 0) :
    step s = completeCommand s := by
  simp [step, hf, hb, ht]

theorem completeCommand_of_illegal {s : State} {e : IllegalWord} (h : decode s.cmd = .error e) :
    completeCommand s = .next (completeIllegal s) := by
  simp [completeCommand, fetchCommand, h]

/-- ILLEGAL_CMD in STATUS: DONE, ERR and ECODE 1 (R110, R240). -/
theorem completeIllegal_eq (s : State) : completeIllegal s = { s with status := 0x16#32 } := by
  rw [completeIllegal, raiseError, show statusFailed .illegalCmd .none = 0x16#32 by decide]

/-- Settles O3: the cases from the fields of the word, the step from the completion of an illegal word. -/
theorem illegalWordCompletesWithError : Obligations.IllegalWordCompletesWithError := by
  intro w
  refine ⟨?_, ?_⟩
  · rw [extractLsb'_8_3_ne_zero_iff]
    exact decode_error_iff
  · rintro ⟨e, he⟩ s hf hb ht rfl
    rw [step_of_due hf hb ht, completeCommand_of_illegal he, completeIllegal_eq]

/-! ## The words the assembler emits -/

/-- R92, R93: the decoder reads back the command that was encoded. -/
@[simp] theorem decode_encode (i : Instr) : decode (encode i) = .ok i := by
  cases i with
  | encFin sgn | encInf sgn | encNan sgn => cases sgn <;> rfl
  | fromstr | mul64 | div1e9 | ltu64 | decode | tostr => rfl

/-- A table row that holds a command's encoding is read as the command. -/
theorem decodeTableWord_of_encode {nbits w : Nat} (i : Instr) (h : tableWord nbits w = encode i) :
    decodeTableWord nbits w = some i := by
  simp [decodeTableWord, h]

/-- SGN has no effect in ENC.NAN (R93, R197). -/
theorem exec_encNan_sgn (a b : Bool) (s : State) : exec (.encNan a) s = exec (.encNan b) s := rfl

/-- Settles O1: the words by evaluating the encoder, their decodings because decoding inverts it. -/
theorem assembledWordsOfTheTable : Obligations.AssembledWordsOfTheTable :=
  ⟨rfl, rfl, rfl, rfl, rfl, rfl, rfl, rfl, fun _ => rfl, rfl, rfl,
    decodeTableWord_of_encode .fromstr rfl, decodeTableWord_of_encode .mul64 rfl,
    decodeTableWord_of_encode .div1e9 rfl, decodeTableWord_of_encode .ltu64 rfl,
    decodeTableWord_of_encode (.encFin false) rfl, decodeTableWord_of_encode (.encFin true) rfl,
    decodeTableWord_of_encode (.encInf false) rfl, decodeTableWord_of_encode (.encInf true) rfl,
    decodeTableWord_of_encode (.encNan false) rfl, decodeTableWord_of_encode (.encNan true) rfl,
    decodeTableWord_of_encode .decode rfl, decodeTableWord_of_encode .tostr rfl,
    exec_encNan_sgn true false⟩

end Sys2Proof.Machine

/-! R121, R142, R143: FROMSTR's length check, and the finite results of the normalizer. Every finite result of a nonzero
significand is padded, untrimmed, vanished, rounded or carried out; its range and its correct rounding are read off these five
cases. -/

namespace Sys2Proof.Machine

/-! ## The length check -/

/-- A conversion ends with MALFORMED or OVERFLOW, or leaves ECODE as it was (R120, R240). -/
theorem finishConversion_ecode (s : State) (text : List Byte) :
    ecodeField (finishConversion s (convertText text)).status ∈ [ecodeField s.status, 3, 4] := by
  cases h : convertText text with
  | word w => simp [finishConversion, statusCompleted, State.setX]
  | error code sub =>
    obtain ⟨rfl, -⟩ | ⟨rfl, -⟩ := convertText_error h <;> simp [finishConversion, errorNumber]

/-- Settles O43: the check comes first; past it, no end of the conversion is TOO_LONG. -/
theorem tooLongIsRejected : Obligations.TooLongIsRejected := by
  refine ⟨fun s h => ?_, fun s t hlen hst ht => ?_⟩
  · rw [execFromstr_tooLong h, raiseError_eq]; rfl
  · have hshort : s.textLength < 7000 := Nat.lt_succ_of_le hlen
    cases hg : gatherInput s 0 s.textLength with
    | error k =>
      rw [execFromstr_unwritten hshort hg] at ht
      cases ht
    | ok text =>
      rw [execFromstr_gathered hshort hg] at ht
      cases ht
      have code := finishConversion_ecode s text
      rw [hst] at code
      intro htwo
      rw [htwo] at code
      exact absurd code (by decide)

/-! ## Rounding away the last digits -/

/-- The significand `c` with its last `t` digits rounded away, before a carry out is taken care of (R138 to R140). -/
def roundedAt (c : List Nat) (t : Nat) : Nat := rounded (c.take (c.length - t)) (c.drop (c.length - t))

/-- `multiple * unit` is a multiple of `unit` nearest to `value`, and the even one at a tie (R143). -/
structure NearestEven (value unit multiple : Nat) : Prop where
  below : 2 * multiple * unit ≤ 2 * value + unit
  above : 2 * value ≤ 2 * multiple * unit + unit
  tie : 2 * multiple * unit = 2 * value + unit ∨ 2 * value = 2 * multiple * unit + unit → multiple % 2 = 0

/-- A number is the nearest multiple of 1 to itself. -/
theorem NearestEven.self (v : Nat) : NearestEven v 1 v := ⟨by omega, by omega, by omega⟩

theorem NearestEven.eq_of_unit_one {v m : Nat} (h : NearestEven v 1 m) : m = v := by
  obtain ⟨below, above, -⟩ := h
  omega

/-- A number below half the unit rounds to 0. -/
theorem NearestEven.zero {v u : Nat} (h : 2 * v ≤ u) : NearestEven v u 0 := ⟨by omega, by omega, fun _ => rfl⟩

/-- Half to even on the remainder, as `roundsUp_iff` states it, rounds the whole to nearest. -/
theorem NearestEven.of_remainder {K R u : Nat} (hR : R < u) {up : Bool}
    (hup : up = true ↔ u < 2 * R ∨ (u = 2 * R ∧ K % 2 = 1)) :
    NearestEven (K * u + R) u (K + if up then 1 else 0) := by
  cases up with
  | true =>
    have half : u < 2 * R ∨ (u = 2 * R ∧ K % 2 = 1) := hup.mp rfl
    have expand : 2 * (K + 1) * u = 2 * (K * u) + 2 * u := by ring
    simp only [if_true]
    constructor <;> rw [expand] <;> omega
  | false =>
    have half : ¬ (u < 2 * R ∨ (u = 2 * R ∧ K % 2 = 1)) := fun h => Bool.false_ne_true (hup.mpr h)
    have expand : 2 * K * u = 2 * (K * u) := by ring
    simp only [Bool.false_eq_true, if_false, Nat.add_zero]
    constructor <;> rw [expand] <;> omega

section
variable {c : List Nat} {t : Nat}

/-- Rounding away digits rounds the number to nearest, ties to even (R139). -/
theorem nearestEven_roundedAt (hc : ∀ d ∈ c, d < 10) (ht : 0 < t) (htn : t ≤ c.length) :
    NearestEven (intOf c) (10 ^ t) (roundedAt c t) := by
  have hlen : (c.drop (c.length - t)).length = t := by rw [List.length_drop]; omega
  have hdigits : ∀ d ∈ c.drop (c.length - t), d < 10 := fun d hd => hc d (List.mem_of_mem_drop hd)
  have hrest := intOf_lt hdigits
  have hup := roundsUp_iff (c.take (c.length - t)) hdigits (List.ne_nil_of_length_pos (by omega))
  have hsplit : intOf c = intOf (c.take (c.length - t)) * 10 ^ t + intOf (c.drop (c.length - t)) := by
    conv_lhs => rw [← List.take_append_drop (c.length - t) c, intOf_append, hlen]
  rw [hlen] at hrest hup
  rw [hsplit]
  exact .of_remainder hrest hup

/-- What is kept of `c` has at most one digit more than the window. -/
theorem roundedAt_le (hc : ∀ d ∈ c, d < 10) : roundedAt c t ≤ 10 ^ (c.length - t) := by
  have h := rounded_le (kept := c.take (c.length - t)) (fun d hd => hc d (List.mem_of_mem_take hd))
    (c.drop (c.length - t))
  rwa [List.length_take_of_le (Nat.sub_le _ _)] at h

/-- A nonempty window carries out exactly when the whole run reaches the midpoint below the next power of ten (R141). -/
theorem roundedAt_eq_pow_iff (hc : ∀ d ∈ c, d < 10) (ht : 0 < t) (htn : t < c.length) :
    roundedAt c t = 10 ^ (c.length - t) ↔ (2 * 10 ^ (c.length - t) - 1) * 10 ^ t ≤ 2 * intOf c := by
  have h := rounded_eq_pow_iff hc (k := c.length - t) (by omega) (by omega)
  rwa [Nat.sub_sub_self htn.le] at h

/-- The run reaches the midpoint at which dropping its last `t` digits carries out of the window kept (R141, R142). -/
def CarriesOut (c : List Nat) (t : Nat) : Prop :=
  0 < t ∧ t < c.length ∧ (2 * 10 ^ (c.length - t) - 1) * 10 ^ t ≤ 2 * intOf c

theorem carriesOut_iff (hc : ∀ d ∈ c, d < 10) :
    CarriesOut c t ↔ 0 < t ∧ t < c.length ∧ roundedAt c t = 10 ^ (c.length - t) :=
  and_congr_right fun ht => and_congr_right fun htn => (roundedAt_eq_pow_iff hc ht htn).symm

end

/-! ## The finite results -/

/-- The finite results of a nonzero significand `c` at the initial exponent `e0`. In the last three, `t` is the number of
digits dropped to reach the final exponent of R135. -/
inductive FiniteResult (c : List Nat) (e0 : Int) : Nat → Int → Prop
  /-- Above the range: zeros appended (R134). -/
  | padded (high : 6111 < e0) (fits : c.length + (e0 - 6111).toNat ≤ 34) :
    FiniteResult c e0 (intOf c * 10 ^ (e0 - 6111).toNat) 6111
  /-- Nothing dropped (R136). -/
  | untrimmed (inRange : e0 ≤ 6111) (final : finalExponent e0 c.length = e0) : FiniteResult c e0 (intOf c) e0
  /-- Even the round digit lies above the significand (R138). -/
  | vanished (t : Nat) (final : finalExponent e0 c.length = e0 + t) (inRange : e0 + t ≤ 6111) (all : c.length < t) :
    FiniteResult c e0 0 (e0 + t)
  /-- Rounded within the window (R139, R140). -/
  | rounded (t : Nat) (final : finalExponent e0 c.length = e0 + t) (inRange : e0 + t ≤ 6111) (drops : 0 < t)
    (within : t ≤ c.length) (stays : t < c.length → roundedAt c t ≠ 10 ^ (c.length - t)) :
    FiniteResult c e0 (roundedAt c t) (e0 + t)
  /-- Rounded to the next power of ten, whose exponent is still in range (R141). -/
  | carried (t : Nat) (final : finalExponent e0 c.length = e0 + t) (inRange : e0 + t < 6111) (drops : 0 < t)
    (within : t < c.length) (carry : roundedAt c t = 10 ^ (c.length - t)) :
    FiniteResult c e0 (10 ^ (c.length - t - 1)) (e0 + t + 1)

section
variable {neg neg' : Bool} {c : List Nat} {e0 e : Int} {k : Nat}

/-- What rounding answers for the first digits of `c`, the last `t` being dropped (R139 to R141). -/
theorem finiteResult_of_roundKept (hc : ∀ d ∈ c, d < 10) {t : Nat} (hq : finalExponent e0 c.length = e0 + t)
    (hle : e0 + t ≤ 6111) (ht : 0 < t) (htn : t ≤ c.length)
    (h : roundKept neg (c.take (c.length - t)) (c.drop (c.length - t)) (e0 + t) = .fin neg' k e) :
    neg' = neg ∧ FiniteResult c e0 k e := by
  have hlen : (c.take (c.length - t)).length = c.length - t := List.length_take_of_le (Nat.sub_le _ _)
  by_cases hcarry : t < c.length ∧ roundedAt c t = 10 ^ (c.length - t)
  · obtain ⟨hlt, hpow⟩ := hcarry
    rw [roundKept_of_carry (List.ne_nil_of_length_pos (by omega)) (by rw [hlen]; exact hpow)
      (fun d hd => hc d (List.mem_of_mem_take hd)), hlen] at h
    split at h
    · cases h
    · next hmax =>
      cases h
      exact ⟨rfl, .carried t hq (by omega) ht hlt hpow⟩
  · have stays : t < c.length → roundedAt c t ≠ 10 ^ (c.length - t) := fun hlt hpow => hcarry ⟨hlt, hpow⟩
    have no_carry : c.take (c.length - t) = [] ∨
        rounded (c.take (c.length - t)) (c.drop (c.length - t)) ≠ 10 ^ (c.take (c.length - t)).length := by
      rcases htn.lt_or_eq with hlt | rfl
      · rw [hlen]; exact .inr (stays hlt)
      · simp
    rw [roundKept_of_no_carry no_carry] at h
    cases h
    exact ⟨rfl, .rounded t hq hle ht htn stays⟩

/-- The trimming step: `t` digits are dropped to reach the final exponent `e0 + t` (R137, R138). -/
theorem finiteResult_of_trim (hc : ∀ d ∈ c, d < 10) {t : Nat} (hq : finalExponent e0 c.length = e0 + t) (ht : 0 < t)
    (h6111 : e0 ≤ 6111) (h : normalizeNonzero neg c e0 = .fin neg' k e) : neg' = neg ∧ FiniteResult c e0 k e := by
  rw [normalizeNonzero_trim h6111 neg (by omega), hq, show (e0 + t - e0).toNat = t by omega] at h
  split at h
  · cases h
  · next hle =>
    split at h
    · next hall =>
      cases h
      exact ⟨rfl, .vanished t hq (by omega) hall⟩
    · next hwithin => exact finiteResult_of_roundKept hc hq (by omega) ht (by omega) h

/-- Every finite answer of the normalizer for a nonzero significand is one of the five, with the sign given (R130). -/
theorem finiteResult_of_normalizeNonzero (hc : ∀ d ∈ c, d < 10) (h : normalizeNonzero neg c e0 = .fin neg' k e) :
    neg' = neg ∧ FiniteResult c e0 k e := by
  by_cases hhigh : 6111 < e0
  · rw [normalizeNonzero_high hhigh] at h
    split at h
    · cases h
    · next hfits =>
      cases h
      exact ⟨rfl, .padded hhigh (by omega)⟩
  · obtain ⟨t, hq⟩ := Int.le.dest (le_finalExponent e0 c.length)
    rcases Nat.eq_zero_or_pos t with rfl | ht
    · have final : finalExponent e0 c.length = e0 := by omega
      have eq := finalExponent_eq e0 c.length
      rw [normalizeNonzero_exact (by omega) (by omega) neg (by omega)] at h
      cases h
      exact ⟨rfl, .untrimmed (by omega) final⟩
    · exact finiteResult_of_trim hc hq.symm ht (by omega) h

/-! ## Range (R142) -/

/-- At most 34 digits. -/
theorem FiniteResult.coefficient_le (hc : ∀ d ∈ c, d < 10) (h : FiniteResult c e0 k e) : k ≤ 10 ^ 34 - 1 := by
  have hq := finalExponent_eq e0 c.length
  have hint := intOf_lt hc
  suffices k < 10 ^ 34 by omega
  cases h with
  | padded high fits =>
    calc intOf c * 10 ^ (e0 - 6111).toNat < 10 ^ c.length * 10 ^ (e0 - 6111).toNat :=
          Nat.mul_lt_mul_of_pos_right hint (by positivity)
      _ = 10 ^ (c.length + (e0 - 6111).toNat) := (pow_add _ _ _).symm
      _ ≤ 10 ^ 34 := Nat.pow_le_pow_right (by decide) fits
  | untrimmed inRange final => exact hint.trans_le (Nat.pow_le_pow_right (by decide) (by omega))
  | vanished => decide
  | rounded t final inRange drops within stays =>
    have window : 10 ^ (c.length - t) ≤ 10 ^ 34 := Nat.pow_le_pow_right (by decide) (by omega)
    rcases within.lt_or_eq with hlt | rfl
    · exact ((roundedAt_le hc).lt_of_ne (stays hlt)).trans_le window
    · exact (roundedAt_le hc).trans_lt (by simp)
  | carried t final inRange drops within carry =>
    exact Nat.pow_lt_pow_right (by decide) (by omega)

/-- An exponent in range. -/
theorem FiniteResult.exponent_mem (h : FiniteResult c e0 k e) : -6176 ≤ e ∧ e ≤ 6111 := by
  have hq := finalExponent_eq e0 c.length
  cases h <;> omega

/-- Above the range, the exponent is 6111 (R134). -/
theorem FiniteResult.exponent_of_high (h : FiniteResult c e0 k e) (high : 6111 < e0) : e = 6111 := by
  cases h <;> omega

/-- With `t` digits dropped to reach the final exponent, a carry-out raises it by 1 and leaves a power of ten (R141); else
it stands (R139, R140). -/
theorem FiniteResult.exponent_of_drop (hc : ∀ d ∈ c, d < 10) (h : FiniteResult c e0 k e) (h6111 : e0 ≤ 6111) {t : Nat}
    (hq : finalExponent e0 c.length = e0 + t) :
    (CarriesOut c t → e = e0 + t + 1 ∧ k = 10 ^ (c.length - t - 1)) ∧ (¬ CarriesOut c t → e = e0 + t) := by
  rw [carriesOut_iff hc]
  cases h with
  | padded high fits => omega
  | untrimmed inRange final => exact ⟨by omega, by omega⟩
  | vanished t' final inRange all =>
    obtain rfl : t' = t := by omega
    exact ⟨by omega, fun _ => rfl⟩
  | rounded t' final inRange drops within stays =>
    obtain rfl : t' = t := by omega
    exact ⟨fun ⟨_, hlt, carry⟩ => absurd carry (stays hlt), fun _ => rfl⟩
  | carried t' final inRange drops within carry =>
    obtain rfl : t' = t := by omega
    exact ⟨fun _ => ⟨rfl, rfl⟩, fun hno => absurd ⟨drops, within, carry⟩ hno⟩

end

/-- Settles O51: a run of zeros by R133, a nonzero one by the cases of its finite result. -/
theorem normalizedValuesInRange : Obligations.NormalizedValuesInRange := by
  intro neg neg' D r E c e hD h n e0 q t _
  by_cases hz : significant D = []
  · have hn : n = 0 := congrArg List.length hz
    rw [normalize_zero hz] at h
    cases h
    have range := clampExponent_eq (E - r)
    exact ⟨by decide, by omega, by omega, rfl, fun _ => ⟨rfl, range⟩, by omega, by omega⟩
  · have hn : 0 < n := List.length_pos_iff.mpr hz
    have hC := significant_lt hD
    rw [normalize_nonzero hz] at h
    obtain ⟨rfl, result⟩ := finiteResult_of_normalizeNonzero hC h
    obtain ⟨low, high⟩ := result.exponent_mem
    refine ⟨result.coefficient_le hC, low, high, rfl, by omega, fun _ => result.exponent_of_high, fun _ hle => ?_⟩
    have hq : q = e0 + t := by omega
    have drop := result.exponent_of_drop hC hle (t := t) hq
    rw [CarriesOut, intOf_significant] at drop
    rw [hq]
    exact drop

/-! ## Correct rounding (R143) -/

section
variable {c : List Nat} {e0 e : Int} {k : Nat}

/-- The exponent of R135, or 6111 above the range (R134): the value is rounded to a multiple of `10^targetExponent`. -/
def targetExponent (e0 : Int) (n : Nat) : Int := if 6111 < e0 then 6111 else finalExponent e0 n

theorem FiniteResult.targetExponent_le (h : FiniteResult c e0 k e) : targetExponent e0 c.length ≤ e := by
  unfold targetExponent
  cases h <;> split <;> omega

theorem targetExponent_of_high {n : Nat} (h : 6111 < e0) : targetExponent e0 n = 6111 := if_pos h

theorem targetExponent_of_final {n t : Nat} (h : e0 ≤ 6111) (hq : finalExponent e0 n = e0 + t) :
    targetExponent e0 n = e0 + t := by
  rw [targetExponent, if_neg (by omega), hq]

/-- The result is the value rounded to the nearest multiple of the unit `10^q`, ties to even. -/
theorem FiniteResult.nearestEven (hc : ∀ d ∈ c, d < 10) (h : FiniteResult c e0 k e) :
    NearestEven (intOf c * 10 ^ (e0 - targetExponent e0 c.length).toNat) (10 ^ (targetExponent e0 c.length - e0).toNat)
      (k * 10 ^ (e - targetExponent e0 c.length).toNat) := by
  cases h with
  | padded high fits =>
    have unit_one : (6111 - e0).toNat = 0 := by omega
    rw [targetExponent_of_high high, unit_one]
    simpa using NearestEven.self _
  | untrimmed inRange final =>
    rw [targetExponent_of_final (t := 0) inRange (by simpa using final)]
    simpa using NearestEven.self (intOf c)
  | vanished t final inRange all =>
    have small : 2 * intOf c ≤ 10 ^ t :=
      calc 2 * intOf c ≤ 10 * 10 ^ c.length := Nat.mul_le_mul (by decide) (intOf_lt hc).le
        _ = 10 ^ (c.length + 1) := by ring
        _ ≤ 10 ^ t := Nat.pow_le_pow_right (by decide) all
    rw [targetExponent_of_final (by omega) final]
    simpa using NearestEven.zero small
  | rounded t final inRange drops within stays =>
    rw [targetExponent_of_final (by omega) final]
    simpa using nearestEven_roundedAt hc drops within
  | carried t final inRange drops within carry =>
    have shift : 10 ^ (c.length - t - 1) * 10 = roundedAt c t := by
      rw [carry, ← pow_succ, Nat.sub_add_cancel (by omega)]
    rw [targetExponent_of_final (by omega) final]
    simpa [shift] using nearestEven_roundedAt hc drops within.le

/-- No digit discarded: the unit is 1, and the result is the value. -/
theorem FiniteResult.eq_value (hc : ∀ d ∈ c, d < 10) (h : FiniteResult c e0 k e)
    (keeps : targetExponent e0 c.length ≤ e0) :
    k * 10 ^ (e - targetExponent e0 c.length).toNat = intOf c * 10 ^ (e0 - targetExponent e0 c.length).toNat := by
  have nearest := h.nearestEven hc
  rw [Int.toNat_of_nonpos (z := targetExponent e0 c.length - e0) (by omega)] at nearest
  exact nearest.eq_of_unit_one

end

/-- Settles O52: the cases of the finite result, each rounded to nearest. -/
theorem roundsToNearestEven : Obligations.RoundsToNearestEven := by
  intro neg neg' D r E c e hD hz h
  have hC := significant_lt hD
  rw [normalize_nonzero hz] at h
  obtain ⟨-, result⟩ := finiteResult_of_normalizeNonzero hC h
  have nearest := result.nearestEven hC
  have exact_of := result.eq_value hC
  rw [intOf_significant] at nearest exact_of
  exact ⟨result.targetExponent_le, exact_of, nearest.below, nearest.above, nearest.tie⟩

end Sys2Proof.Machine

/-! R170 to R181: MUL64, DIV1E9 and LTU64. Each ends in one known state; the procedures the spec gives for them, on 32-bit
limbs, are arithmetic on natural numbers, read against the words of Y and AUX. -/

namespace Sys2Proof.Machine

/-! ## The state each command ends in -/

section
variable {s t : State}

theorem exec_mul64 (s : State) : exec .mul64 s = .next (complete (s.setY (mulWide s.opa s.opb))) := rfl

theorem exec_div1e9 (s : State) :
    exec .div1e9 s = .next (complete ((s.setY (divBillion s.x)).setAux (modBillion s.x))) := rfl

theorem exec_ltu64 (s : State) : exec .ltu64 s = .next (complete (s.setAux (lessThanUnsigned s.opa s.opb))) := rfl

/-- Y after MUL64. -/
theorem y_of_exec_mul64 (h : exec .mul64 s = .next t) : t.y = mulWide s.opa s.opb := by
  rw [exec_mul64] at h
  cases h
  rw [complete_y, setY_y]

/-- Y after MUL64, as a number (R170). -/
theorem y_toNat_of_exec_mul64 (h : exec .mul64 s = .next t) : t.y.toNat = s.opa.toNat * s.opb.toNat := by
  rw [y_of_exec_mul64 h, mulWide_toNat]

/-- Y after DIV1E9, as a number (R175). -/
theorem y_toNat_of_exec_div1e9 (h : exec .div1e9 s = .next t) : t.y.toNat = s.x.toNat / 1000000000 := by
  rw [exec_div1e9] at h
  cases h
  rw [complete_y, setAux_y, setY_y, divBillion_toNat]

/-- AUX after DIV1E9, as a number (R175). -/
theorem aux_toNat_of_exec_div1e9 (h : exec .div1e9 s = .next t) : t.aux.toNat = s.x.toNat % 1000000000 := by
  rw [exec_div1e9] at h
  cases h
  rw [complete_aux, setAux_aux, modBillion_toNat]

end

/-! ## The two halves of Y -/

theorem lowHalf_toNat (v : QWord) : (v.extractLsb' 0 64).toNat = v.toNat % 2 ^ 64 := by
  rw [BitVec.extractLsb'_toNat, Nat.shiftRight_zero]

theorem highHalf_toNat (v : QWord) : (v.extractLsb' 64 64).toNat = v.toNat / 2 ^ 64 := by
  rw [BitVec.extractLsb'_toNat, Nat.shiftRight_eq_div_pow]
  exact Nat.mod_eq_of_lt (Nat.div_lt_of_lt_mul v.isLt)

/-! ## MUL64 -/

/-- R171: the middle column takes the carry of the lowest product and the low words of the two cross products, and hands
its own carry to the high word. -/
theorem mul_by_limbs (aLo aHi bLo bHi : Nat) :
    let p0 := aLo * bLo
    let p1 := aLo * bHi
    let p2 := aHi * bLo
    let p3 := aHi * bHi
    let mid := p0 / 2 ^ 32 + p1 % 2 ^ 32 + p2 % 2 ^ 32
    (aHi * 2 ^ 32 + aLo) * (bHi * 2 ^ 32 + bLo) =
      (p3 + p1 / 2 ^ 32 + p2 / 2 ^ 32 + mid / 2 ^ 32) * 2 ^ 64 + (mid % 2 ^ 32 * 2 ^ 32 + p0 % 2 ^ 32) := by
  intro p0 p1 p2 p3 mid
  have columns : (aHi * 2 ^ 32 + aLo) * (bHi * 2 ^ 32 + bLo) = p3 * 2 ^ 64 + (p1 + p2) * 2 ^ 32 + p0 := by
    ring
  rw [columns]
  omega

/-- Settles O23: the product of the operands fits Y, which completes the command. -/
theorem mul64WritesTheProduct : Obligations.Mul64WritesTheProduct :=
  ⟨decode_encode .mul64, fun s => ⟨_, exec_mul64 s, y_toNat_of_exec_mul64 rfl, succeeded_complete rfl,
    sameBut_complete (sameBut_setY (sameBut_refl s _) _ (by decide)) (by decide)⟩⟩

/-- Settles O24: the halves of the product, its limbs multiplied out. -/
theorem mul64ByPartialProducts : Obligations.Mul64ByPartialProducts := by
  intro s t h p0 p1 p2 p3 mid
  have product : t.y.toNat = (p3 + p1 / 2 ^ 32 + p2 / 2 ^ 32 + mid / 2 ^ 32) * 2 ^ 64 +
      (mid % 2 ^ 32 * 2 ^ 32 + p0 % 2 ^ 32) := by
    rw [y_toNat_of_exec_mul64 h, opa_toNat, opb_toNat]
    exact mul_by_limbs _ _ _ _
  rw [lowHalf_toNat, highHalf_toNat, product]
  omega

/-- The product of two 64-bit numbers leaves the high word below its maximum (R172). -/
theorem product_highWord_le (a b : DWord) : a.toNat * b.toNat / 2 ^ 64 ≤ 2 ^ 64 - 2 := by
  have bound : a.toNat * b.toNat ≤ (2 ^ 64 - 1) * (2 ^ 64 - 1) :=
    Nat.mul_le_mul (Nat.le_pred_of_lt a.isLt) (Nat.le_pred_of_lt b.isLt)
  omega

/-- Settles O25: each law is one of the product of natural numbers. -/
theorem mul64Laws : Obligations.Mul64Laws := by
  intro s u t v hs hu
  have hy := y_toNat_of_exec_mul64 hs
  refine ⟨fun hab hba => ?_, fun hone => ?_, fun hzero => ?_, ?_⟩
  · apply BitVec.eq_of_toNat_eq
    rw [hy, y_toNat_of_exec_mul64 hu, hab, hba, Nat.mul_comm]
  · have identity : t.y.toNat = s.opa.toNat := by rw [hy, hone]; exact Nat.mul_one _
    constructor <;> apply BitVec.eq_of_toNat_eq
    · rw [highHalf_toNat, identity]
      exact Nat.div_eq_of_lt s.opa.isLt
    · rw [lowHalf_toNat, identity]
      exact Nat.mod_eq_of_lt s.opa.isLt
  · apply BitVec.eq_of_toNat_eq
    rw [hy, hzero]
    exact Nat.mul_zero _
  · rw [highHalf_toNat, hy]
    exact product_highWord_le _ _

/-! ## DIV1E9 -/

/-- R176, one step: with `c` already divided, the remainder and the next limb `w` give the next limb of the quotient, and
the remainder of the whole. -/
theorem div_limb_step (c w : Nat) :
    (c * 2 ^ 32 + w) / 1000000000 = c / 1000000000 * 2 ^ 32 + (c % 1000000000 * 2 ^ 32 + w) / 1000000000 ∧
      (c * 2 ^ 32 + w) % 1000000000 = (c % 1000000000 * 2 ^ 32 + w) % 1000000000 := by
  omega

/-- R176: four limbs divided one after the other, the remainder of each carried into the next. -/
theorem div_by_limbs (l3 l2 l1 l0 : Nat) :
    let cur1 := l3 % 1000000000 * 2 ^ 32 + l2
    let cur2 := cur1 % 1000000000 * 2 ^ 32 + l1
    let cur3 := cur2 % 1000000000 * 2 ^ 32 + l0
    (((l3 * 2 ^ 32 + l2) * 2 ^ 32 + l1) * 2 ^ 32 + l0) / 1000000000 =
        ((l3 / 1000000000 * 2 ^ 32 + cur1 / 1000000000) * 2 ^ 32 + cur2 / 1000000000) * 2 ^ 32 + cur3 / 1000000000 ∧
      (((l3 * 2 ^ 32 + l2) * 2 ^ 32 + l1) * 2 ^ 32 + l0) % 1000000000 = cur3 % 1000000000 := by
  intro cur1 cur2 cur3
  obtain ⟨quotient1, remainder1⟩ := div_limb_step l3 l2
  obtain ⟨quotient2, remainder2⟩ := div_limb_step (l3 * 2 ^ 32 + l2) l1
  obtain ⟨quotient3, remainder3⟩ := div_limb_step ((l3 * 2 ^ 32 + l2) * 2 ^ 32 + l1) l0
  rw [remainder1, quotient1] at quotient2
  rw [remainder1] at remainder2
  rw [remainder2, quotient2] at quotient3
  rw [remainder2] at remainder3
  exact ⟨quotient3, remainder3⟩

/-- The quotient of a remainder and a limb is a limb. -/
theorem div_limb_lt (c : Nat) (w : Word) : (c % 1000000000 * 2 ^ 32 + w.toNat) / 1000000000 < 2 ^ 32 := by
  have limb := w.isLt
  omega

/-- Four words are determined by the number they make, most significant first. -/
theorem words_eq_of_sum_eq {a b c d : Word} {q3 q2 q1 q0 : Nat} (h2 : q2 < 2 ^ 32) (h1 : q1 < 2 ^ 32) (h0 : q0 < 2 ^ 32)
    (h : ((a.toNat * 2 ^ 32 + b.toNat) * 2 ^ 32 + c.toNat) * 2 ^ 32 + d.toNat =
      ((q3 * 2 ^ 32 + q2) * 2 ^ 32 + q1) * 2 ^ 32 + q0) :
    a.toNat = q3 ∧ b.toNat = q2 ∧ c.toNat = q1 ∧ d.toNat = q0 := by
  have hb := b.isLt
  have hc := c.isLt
  have hd := d.isLt
  omega

/-- Bits 127..99 of a number below 2^99 are 0. -/
theorem topBits_eq_zero_of_lt {v : QWord} (h : v.toNat < 2 ^ 99) : v.extractLsb' 99 29 = 0 := by
  apply BitVec.eq_of_toNat_eq
  rw [BitVec.extractLsb'_toNat, Nat.shiftRight_eq_div_pow, Nat.div_eq_of_lt h]
  rfl

/-- Settles O26: quotient and remainder of X, which bound each other. -/
theorem div1e9WritesQuotientAndRemainder : Obligations.Div1e9WritesQuotientAndRemainder := by
  refine ⟨decode_encode .div1e9, fun s => ⟨_, exec_div1e9 s, ?_⟩⟩
  have quotient := y_toNat_of_exec_div1e9 (exec_div1e9 s)
  have remainder := aux_toNat_of_exec_div1e9 (exec_div1e9 s)
  have limit := s.x.isLt
  refine ⟨?_, ?_, topBits_eq_zero_of_lt ?_, succeeded_complete rfl, ?_⟩
  · rw [quotient, remainder]
    exact Nat.div_add_mod' _ _
  · rw [remainder]
    exact Nat.mod_lt _ (by decide)
  · rw [quotient]
    exact Nat.div_lt_of_lt_mul (limit.trans (by decide))
  · exact sameBut_complete (sameBut_setAux (sameBut_setY (sameBut_refl s _) _ (by decide)) _ (by decide)) (by decide)

/-- Settles O27: the quotients of the limbs of X make Y, so they are its words. -/
theorem div1e9ByLongDivision : Obligations.Div1e9ByLongDivision := by
  intro s t h cur0 cur1 cur2 cur3
  obtain ⟨quotient, remainder⟩ := div_by_limbs s.x3.toNat s.x2.toNat s.x1.toNat s.x0.toNat
  rw [← x_toNat, ← y_toNat_of_exec_div1e9 h, y_toNat] at quotient
  rw [← x_toNat, ← aux_toNat_of_exec_div1e9 h] at remainder
  obtain ⟨y3, y2, y1, y0⟩ := words_eq_of_sum_eq (div_limb_lt cur0 s.x2) (div_limb_lt cur1 s.x1)
    (div_limb_lt cur2 s.x0) quotient
  exact ⟨y3, y2, y1, y0, remainder⟩

/-! ## LTU64 -/

/-- R181: the high words decide, and the low words where the high words are equal. -/
theorem opa_lt_opb_iff (s : State) :
    s.opa.toNat < s.opb.toNat ↔
      s.opaHi.toNat < s.opbHi.toNat ∨ (s.opaHi = s.opbHi ∧ s.opaLo.toNat < s.opbLo.toNat) := by
  have aLo := s.opaLo.isLt
  have bLo := s.opbLo.isLt
  rw [opa_toNat, opb_toNat, ← BitVec.toNat_inj]
  omega

/-- Settles O29: AUX is the comparison, which the words of the operands decide from the high one down. -/
theorem ltu64ComparesUnsigned : Obligations.Ltu64ComparesUnsigned :=
  ⟨decode_encode .ltu64, fun s => ⟨_, exec_ltu64 s, rfl, opa_lt_opb_iff s, succeeded_complete rfl,
    sameBut_complete (sameBut_setAux (sameBut_refl s _) _ (by decide)) (by decide)⟩⟩

end Sys2Proof.Machine

/-! R107, R190 to R197: the words FROMSTR and ENCODE write to X. Each is a special pattern or packs a coefficient of at most
MAXCOEF, so it is canonical; and a canonical word is never of the large form, whose coefficients all exceed MAXCOEF. -/

namespace Sys2Proof.Machine

/-! ## Canonical words -/

section
variable {w : QWord}

/-- Every word of the large form is non-canonical: its coefficient is 2^113 or more (R104, R107). -/
theorem unpack_cls_of_large (hinf : combination w ≠ 0b11110) (hnan : combination w ≠ 0b11111)
    (htop : w.extractLsb' 125 2 = 0b11) : (unpack w).cls = .noncanon := by
  have above : ¬ 2 ^ 113 + (w.extractLsb' 0 111).toNat ≤ Config.maxCoef := by
    have bound : Config.maxCoef < 2 ^ 113 := by decide
    omega
  rw [unpack, if_neg hinf, if_neg hnan, if_pos htop]
  exact if_neg above

/-- Bits 124..123 are bits 2..1 of the combination field (R101). -/
theorem extractLsb'_combination (w : QWord) : (combination w).extractLsb' 1 2 = w.extractLsb' 123 2 := by
  apply BitVec.eq_of_getLsbD_eq
  intro i hi
  rw [combination, BitVec.getLsbD_extractLsb', BitVec.getLsbD_extractLsb', BitVec.getLsbD_extractLsb', ← Nat.add_assoc]
  simp only [hi, decide_true, Bool.true_and, show 1 + i < 5 by omega]

/-- A word that is canonical or special has `W[126:125] = 11` only where it is special (R195). -/
theorem special_of_topBits (hw : (unpack w).cls ≠ .noncanon) (htop : w.extractLsb' 125 2 = 3) :
    w.extractLsb' 123 2 = 3 := by
  rw [← extractLsb'_combination]
  by_cases hinf : combination w = 0b11110
  · rw [hinf]; rfl
  · by_cases hnan : combination w = 0b11111
    · rw [hnan]; rfl
    · exact absurd (unpack_cls_of_large hinf hnan htop) hw

end

/-- The word of a coefficient and an exponent in range is canonical (R198). -/
theorem packFinite_canonical (neg : Bool) {c : Nat} {e : Int} (hc : c ≤ 10 ^ 34 - 1) (h1 : -6176 ≤ e) (h2 : e ≤ 6111) :
    (unpack (packFinite neg c e)).cls ≠ .noncanon := by
  simp [unpack_packFinite hc h1 h2]

theorem packInfinity_special (neg : Bool) : (unpack (packInfinity neg)).cls ≠ .noncanon := by
  simp [unpack_packInfinity, unpackSpecial]

theorem packNan_special : (unpack packNan).cls ≠ .noncanon := by
  simp [unpack_packNan, unpackSpecial]

/-! ## What ENC.FIN and FROMSTR pack -/

/-- A word ENC.FIN packs has passed its range checks (R190, R194). -/
theorem encodeFinite_canonical {neg : Bool} {c : Nat} {e : Int} {w : QWord} (h : encodeFinite neg c e = some w) :
    (unpack w).cls ≠ .noncanon := by
  by_cases hrange : 10 ^ 34 - 1 < c ∨ (c ≠ 0 ∧ (e < -6176 ∨ 6111 < e))
  · rw [encodeFinite_range hrange] at h
    cases h
  · have clamp := clampExponent_eq e
    rw [encodeFinite_ok (by omega) (by omega)] at h
    cases h
    exact packFinite_canonical neg (by omega) (by omega) (by omega)

/-- The mantissa of a parsed text is a run of digits (R128). -/
theorem parse_digits_lt {text : List Byte} {neg : Bool} {D : List Nat} {r : Nat} {E : Int}
    (h : parse text = .num neg D r E) : ∀ d ∈ D, d < 10 := by
  have numeral : parseNumeral (splitSign text).1 (splitSign text).2 = .num neg D r E := by
    simp only [parse] at h
    split at h
    · cases h
    · split at h
      · cases h
      · exact h
  obtain ⟨-, -, m, scan, rfl, -, -⟩ := parseNumeral_num numeral
  obtain ⟨digits, -, -⟩ := scanMantissa_false_ok scan
  exact digits

/-- A word packed from a normalized digit run packs a value in range, or is an Infinity (R120, R142). -/
theorem packNormalized_canonical {neg : Bool} {D : List Nat} {r : Nat} {E : Int} {w : QWord} (hD : ∀ d ∈ D, d < 10)
    (h : packNormalized (normalize neg D r E) = .word w) : (unpack w).cls ≠ .noncanon := by
  cases hn : normalize neg D r E with
  | fin neg' c e =>
    obtain ⟨hc, h1, h2, -⟩ := normalizedValuesInRange neg neg' D r E c e hD hn
    rw [hn] at h
    cases h
    exact packFinite_canonical neg' hc h1 h2
  | inf neg' =>
    rw [hn] at h
    cases h
    exact packInfinity_special neg'
  | overflow =>
    rw [hn] at h
    cases h

/-- A word FROMSTR converts a text to is one of the special patterns or a numeral's (R120). -/
theorem convertText_canonical {text : List Byte} {w : QWord} (h : convertText text = .word w) :
    (unpack w).cls ≠ .noncanon := by
  cases hp : parse text with
  | err sub =>
    rw [convertText, hp] at h
    cases h
  | inf neg =>
    rw [convertText, hp] at h
    cases h
    exact packInfinity_special neg
  | nan =>
    rw [convertText, hp] at h
    cases h
    exact packNan_special
  | num neg D r E =>
    rw [convertText, hp] at h
    exact packNormalized_canonical (parse_digits_lt hp) h

/-! ## How the commands end -/

/-- The command completed with a word in X that is canonical or special, or it raised an error. -/
inductive EndsCanonical (s : State) : State → Prop
  | word {w : QWord} (canonical : (unpack w).cls ≠ .noncanon) : EndsCanonical s (complete (s.setX w))
  | error (code : ErrorCode) (sub : SubCode) : EndsCanonical s (raiseError s code sub)

section
variable {s t : State} {sgn : Bool}

theorem exec_encInf (sgn : Bool) (s : State) : exec (.encInf sgn) s = .next (complete (s.setX (packInfinity sgn))) := rfl

theorem exec_encNan (sgn : Bool) (s : State) : exec (.encNan sgn) s = .next (complete (s.setX packNan)) := rfl

theorem endsCanonical_fromstr (h : exec .fromstr s = .next t) : EndsCanonical s t := by
  rcases execFromstr_cases s with ⟨-, hs⟩ | ⟨-, k, -, hs⟩ | ⟨-, text, -, hs⟩ <;> rw [hs] at h <;> cases h
  · exact .error _ _
  · cases hc : convertText text with
    | word w => exact .word (convertText_canonical hc)
    | error code sub => exact .error code sub

theorem endsCanonical_encFin (h : exec (.encFin sgn) s = .next t) : EndsCanonical s t := by
  rw [execEncFin_eq rfl] at h
  cases h
  cases hw : encodeFinite sgn (s.opa.toNat * 10 ^ 17 + s.opb.toNat) s.expIn.toInt with
  | none => exact .error _ _
  | some w => exact .word (encodeFinite_canonical hw)

theorem endsCanonical_encInf (h : exec (.encInf sgn) s = .next t) : EndsCanonical s t := by
  rw [exec_encInf] at h
  cases h
  exact .word (packInfinity_special sgn)

theorem endsCanonical_encNan (h : exec (.encNan sgn) s = .next t) : EndsCanonical s t := by
  rw [exec_encNan] at h
  cases h
  exact .word packNan_special

/-- An end without ERR is no error, so X holds the word. -/
theorem EndsCanonical.x_canonical (h : EndsCanonical s t) (hok : errBit t.status = false) :
    (unpack t.x).cls ≠ .noncanon := by
  cases h with
  | word canonical => rwa [complete_x, setX_x]
  | error code sub => simp at hok

end

/-- Settles O35: the word is canonical or special by the command that wrote it, and so never of the large form. -/
theorem writtenWordsAreCanonical : Obligations.WrittenWordsAreCanonical := by
  intro i s t hi _ ht hok
  have ends : EndsCanonical s t := by
    rcases hi with rfl | ⟨sgn, rfl⟩ | ⟨sgn, rfl⟩ | ⟨sgn, rfl⟩
    · exact endsCanonical_fromstr ht
    · exact endsCanonical_encFin ht
    · exact endsCanonical_encInf ht
    · exact endsCanonical_encNan ht
  have canonical := ends.x_canonical hok
  exact ⟨canonical, special_of_topBits canonical⟩

/-- Settles O32: the words encode the command, which completes with its pattern. -/
theorem encInfWritesInfinity : Obligations.EncInfWritesInfinity :=
  ⟨decode_encode (.encInf false), decode_encode (.encInf true), fun s sgn =>
    ⟨_, exec_encInf sgn s, by rw [complete_x, setX_x, packInfinity], succeeded_completeX s _, sameBut_completeX s _⟩⟩

/-- Settles O33: the words encode the command, which completes with the one pattern. -/
theorem encNanWritesNan : Obligations.EncNanWritesNan :=
  ⟨decode_encode (.encNan false), decode_encode (.encNan true), fun s sgn =>
    ⟨_, exec_encNan sgn s, by rw [complete_x, setX_x, packNan], succeeded_completeX s _, sameBut_completeX s _⟩⟩

end Sys2Proof.Machine

/-! R210 to R232: DECODE and TOSTR. `Unpack` by the form of the word; what DECODE reports of each form; which words TOSTR
rejects and what it writes for the others; and that FROMSTR reads the written text back to the same word. -/

namespace Sys2Proof.Machine

/-! ## `Unpack` by the form of the word (R211, R212) -/

section
variable {w : QWord}

theorem unpack_of_infinity (h : combination w = 0b11110) : unpack w = unpackSpecial (signBit w) .inf := if_pos h

theorem unpack_of_nan (h : combination w = 0b11111) : unpack w = unpackSpecial (signBit w) .nan := by
  rw [unpack, if_neg (by rw [h]; decide), if_pos h]

theorem unpack_of_large (hinf : combination w ≠ 0b11110) (hnan : combination w ≠ 0b11111)
    (htop : w.extractLsb' 125 2 = 0b11) :
    unpack w = unpackFinite (signBit w) true (w.extractLsb' 111 14) (2 ^ 113 + (w.extractLsb' 0 111).toNat) := by
  rw [unpack, if_neg hinf, if_neg hnan, if_pos htop]

theorem unpack_of_small (hinf : combination w ≠ 0b11110) (hnan : combination w ≠ 0b11111)
    (htop : w.extractLsb' 125 2 ≠ 0b11) :
    unpack w = unpackFinite (signBit w) false (w.extractLsb' 113 14) (w.extractLsb' 0 113).toNat := by
  rw [unpack, if_neg hinf, if_neg hnan, if_neg htop]

theorem finiteClass_cases (c : Nat) : finiteClass c = .finite ∨ finiteClass c = .noncanon := by
  rw [finiteClass]
  split
  · exact .inl rfl
  · exact .inr rfl

theorem finiteClass_eq_noncanon_iff (c : Nat) : finiteClass c = .noncanon ↔ 10 ^ 34 ≤ c := by
  rw [finiteClass, Config.maxCoef]
  split
  · simp only [reduceCtorEq, false_iff]; omega
  · simp only [true_iff]; omega

/-- R212 in raw bits: the large form always, and the small form from 10^34 on. -/
theorem unpack_cls_noncanon_iff : (unpack w).cls = .noncanon ↔ combination w ≠ 0b11110 ∧ combination w ≠ 0b11111 ∧
    (w.extractLsb' 125 2 = 0b11 ∨ 10 ^ 34 ≤ (w.extractLsb' 0 113).toNat) := by
  by_cases hinf : combination w = 0b11110
  · rw [unpack_of_infinity hinf]
    exact iff_of_false nofun fun h => h.1 hinf
  by_cases hnan : combination w = 0b11111
  · rw [unpack_of_nan hnan]
    exact iff_of_false nofun fun h => h.2.1 hnan
  by_cases htop : w.extractLsb' 125 2 = 0b11
  · exact iff_of_true (unpack_cls_of_large hinf hnan htop) ⟨hinf, hnan, .inl htop⟩
  · rw [unpack_of_small hinf hnan htop]
    exact (finiteClass_eq_noncanon_iff _).trans
      ⟨fun h => ⟨hinf, hnan, .inr h⟩, fun ⟨_, _, h⟩ => h.resolve_left htop⟩

end

/-! ## DECODE (R210) -/

theorem exec_decode (s : State) : exec .decode s = .next (complete
    ((s.setDecoded (decInfoWord (unpack s.x)) (decExpWord (unpack s.x))).setY (coefficientWord (unpack s.x)))) := rfl

theorem sameBut_decoded (s : State) (info exp : Word) (v : QWord) :
    SameBut s (complete ((s.setDecoded info exp).setY v)) [.status, .y0, .y1, .y2, .y3, .decInfo, .decExp] :=
  sameBut_complete (sameBut_setY (sameBut_setDecoded (sameBut_refl s _) info exp (by decide)) v (by decide)) (by decide)

/-- The class of a finite record, in the codes of DEC_INFO. -/
theorem classCode_finiteClass (c : Nat) : (classCode (finiteClass c)).toNat = if c ≤ 10 ^ 34 - 1 then 0 else 3 := by
  rw [finiteClass, Config.maxCoef]
  split <;> rfl

section
variable {sign large : Bool} {bexp : BitVec 14} {coef : Nat}

/-- A biased exponent has 14 bits, so DEC_EXP holds the unbiased one. -/
theorem decExpWord_unpackFinite :
    (decExpWord (unpackFinite sign large bexp coef)).toInt = (bexp.toNat : Int) - 6176 := by
  have word : decExpWord (unpackFinite sign large bexp coef) = BitVec.ofInt 32 ((bexp.toNat : Int) - 6176) := by
    rcases finiteClass_cases coef with h | h <;> simp only [decExpWord, unpackFinite, h, Config.bias]
  have bound := bexp.isLt
  rw [word, BitVec.toInt_ofInt]
  exact Int.bmod_eq_of_le (by omega) (by omega)

theorem coefficientWord_unpackFinite (h : coef < 2 ^ 128) :
    (coefficientWord (unpackFinite sign large bexp coef)).toNat = coef := by
  have word : coefficientWord (unpackFinite sign large bexp coef) = BitVec.ofNat 128 coef := by
    rcases finiteClass_cases coef with h | h <;> simp only [coefficientWord, unpackFinite, h]
  rw [word, BitVec.toNat_ofNat, Nat.mod_eq_of_lt h]

end

/-- Settles O36: the fields of DEC_INFO are the record's, which the form of the word gives. -/
theorem decodeReportsTheFields : Obligations.DecodeReportsTheFields := by
  refine ⟨decode_encode .decode, fun s => ⟨_, exec_decode s, succeeded_complete rfl, sameBut_decoded s _ _ _, ?_⟩⟩
  obtain ⟨sign, cls, large, low, bexp, high⟩ := decInfo_fields (unpack s.x)
  simp only [complete_decInfo, complete_decExp, complete_y, setY_decInfo, setY_decExp, setY_y, setDecoded_decInfo,
    setDecoded_decExp]
  refine ⟨sign.trans (unpack_sign s.x), low, high, ?_⟩
  rw [cls, large, bexp]
  by_cases hinf : s.x.extractLsb' 122 5 = 0b11110
  · rw [if_pos (.inl hinf), if_pos hinf, unpack_of_infinity hinf]
    exact ⟨rfl, rfl, rfl, rfl, rfl⟩
  by_cases hnan : s.x.extractLsb' 122 5 = 0b11111
  · rw [if_pos (.inr hnan), if_neg hinf, unpack_of_nan hnan]
    exact ⟨rfl, rfl, rfl, rfl, rfl⟩
  rw [if_neg (not_or.mpr ⟨hinf, hnan⟩)]
  by_cases htop : s.x.extractLsb' 125 2 = 0b11
  · rw [unpack_of_large hinf hnan htop]
    have bound := (s.x.extractLsb' 0 111).isLt
    simp only [htop, decide_true, if_true]
    exact ⟨classCode_finiteClass _, rfl, rfl, decExpWord_unpackFinite, coefficientWord_unpackFinite (by omega)⟩
  · rw [unpack_of_small hinf hnan htop]
    have bound := (s.x.extractLsb' 0 113).isLt
    simp only [htop, decide_false, Bool.false_eq_true, if_false]
    exact ⟨classCode_finiteClass _, rfl, rfl, decExpWord_unpackFinite, coefficientWord_unpackFinite (by omega)⟩

/-! ## The text of a word (R220, R221, R229, R230) -/

theorem render_of_noncanon {u : Unpacked} (h : u.cls = .noncanon) : render u = none := by simp only [render, h]

theorem render_of_finite {u : Unpacked} (h : u.cls = .finite) :
    render u = some (signText u.sign ++ formatFinite u.coef u.exp) := by simp only [render, h]

theorem render_infinity (neg : Bool) : render (unpackSpecial neg .inf) = some (signText neg ++ textInfinity) := rfl

theorem render_nan (neg : Bool) : render (unpackSpecial neg .nan) = some textNan := rfl

/-- A formatted value begins with a digit, so only the sign bit puts a '-' before it. -/
theorem head?_signText_formatFinite (neg : Bool) (c : Nat) (e : Int) :
    (signText neg ++ formatFinite c e).head? = some byteMinus ↔ neg = true := by
  cases neg with
  | true => simp [signText]
  | false =>
    obtain ⟨d, rest, hd, hf⟩ := formatFinite_head c e
    simp [signText, hf, digitByte_ne_minus hd]

/-- TOSTR raises NONCANON on the words of class NONCANON only: every other word has a text, and the completion leaves ERR
as acceptance did. -/
theorem exec_tostr_error_iff {s : State} (hs : s.status = 0x1#32) :
    exec .tostr s = .next (afterError s 6 0) ↔ (unpack s.x).cls = .noncanon := by
  constructor
  · intro hexec
    by_contra hcls
    obtain ⟨text, hr, -, -⟩ := render_some hcls
    rw [execTostr_some hr, Host.Outcome.next.injEq] at hexec
    have status := congrArg State.status hexec
    rw [complete_status, writeOut_status, hs] at status
    exact absurd status (by decide : statusCompleted 0x1#32 ≠ 0x66#32)
  · intro hcls
    rw [execTostr_none (render_of_noncanon hcls), raiseError_eq]
    rfl

/-- Settles O37: NONCANON is raised by the class, which the raw bits give. -/
theorem tostrRejectsNoncanonicalWords : Obligations.TostrRejectsNoncanonicalWords :=
  fun _ hs => (exec_tostr_error_iff hs).trans unpack_cls_noncanon_iff

/-- Settles O39: the text of each class, by the word's combination field and sign bit. -/
theorem specialAndSignedTexts : Obligations.SpecialAndSignedTexts := by
  refine ⟨fun w h => ?_, fun w h => ?_, fun w h => ⟨_, render_of_finite h, ?_⟩⟩
  · rw [unpack_of_infinity h]
    exact render_infinity _
  · rw [unpack_of_nan h]
    exact render_nan _
  · rw [← unpack_sign w]
    exact head?_signText_formatFinite _ _ _

/-! ## Round trip (R232) -/

/-- A buffer that shows a text of at most 64 bytes shows no other. -/
theorem State.ShowsText.unique {t : State} {a b : List Byte} (ha : t.ShowsText a) (hb : t.ShowsText b)
    (h : a.length ≤ 64) : b = a := by
  obtain ⟨lenA, bytesA⟩ := ha
  obtain ⟨lenB, bytesB⟩ := hb
  refine List.ext_getElem (by omega) fun k hkb hka => ?_
  have same := (bytesB k (by omega)).symm.trans (bytesA k (by omega))
  simpa [List.getD_eq_getElem, hka, hkb] using same

/-- Nothing is rounded of a digit run that denotes a coefficient of at most 34 digits at an exponent in range (R133,
R136). -/
theorem normalize_of_canonical {neg : Bool} {D : List Nat} {r c : Nat} {E e : Int} (hc : c < 10 ^ 34) (h1 : -6176 ≤ e)
    (h2 : e ≤ 6111) (hD : significant D = significant (decDigits c)) (he : E - r = e) :
    normalize neg D r E = .fin neg c e := by
  rw [significant_decDigits] at hD
  by_cases h0 : c = 0
  · rw [if_pos h0] at hD
    rw [normalize_zero hD, he, clampExponent_of_mem h1 h2, h0]
  · rw [if_neg h0] at hD
    have short : (significant D).length ≤ 34 := by
      rw [hD]
      exact decDigits_length_le (by decide) hc
    rw [normalize_nonzero (by rw [hD]; exact decDigits_ne_nil c), he, normalizeNonzero_exact h1 h2 neg short, hD,
      intOf_decDigits]

theorem signText_cases (neg : Bool) : signText neg = [] ∨ signText neg = [bytePlus] ∨ signText neg = [byteMinus] := by
  cases neg
  · exact .inl rfl
  · exact .inr (.inr rfl)

theorem signText_eq_minus (neg : Bool) : decide (signText neg = [byteMinus]) = neg := by cases neg <;> rfl

/-- FROMSTR's conversion of a formatted value is the value packed. -/
theorem convertText_formatFinite (neg : Bool) {c : Nat} {e : Int} (hc : c < 10 ^ 34) (h1 : -6176 ≤ e) (h2 : e ≤ 6111) :
    convertText (signText neg ++ formatFinite c e) = .word (packFinite neg c e) := by
  obtain ⟨D, r, E, hparse, -, hD, -, he⟩ := parse_formatFinite (signText_cases neg) c e
  rw [signText_eq_minus] at hparse
  rw [convertText, hparse]
  simp only [normalize_of_canonical hc h1 h2 hD he, packNormalized]

theorem convertText_infinity (neg : Bool) : convertText (signText neg ++ textInfinity) = .word (packInfinity neg) := by
  cases neg <;> rfl

theorem convertText_nan : convertText textNan = .word packNan := rfl

/-- The conversion of the word's text is the word. -/
def ReadsBack (w : QWord) : Prop := ∃ text, render (unpack w) = some text ∧ convertText text = .word w

theorem readsBack_of_finite {w : QWord} (h : (unpack w).cls = .finite) : ReadsBack w := by
  obtain ⟨h1, h2, -⟩ := unpack_range w
  refine ⟨_, render_of_finite h, ?_⟩
  rw [convertText_formatFinite _ (unpack_coef_lt h) h1 h2, packFinite_unpack h]

theorem readsBack_infinity (neg : Bool) : ReadsBack (packInfinity neg) :=
  ⟨_, by rw [unpack_packInfinity, render_infinity], convertText_infinity neg⟩

theorem readsBack_nan : ReadsBack packNan := ⟨_, by rw [unpack_packNan, render_nan], convertText_nan⟩

/-- Through the machine: TOSTR shows the word's text, and FROMSTR holds that text. -/
theorem ReadsBack.fromstr_of_tostr {s t u : State} {text : List Byte} (hw : ReadsBack s.x)
    (htostr : exec .tostr s = .next t) (hshow : t.ShowsText text) (hhold : u.HoldsText text) :
    exec .fromstr u = .next (complete (u.setX s.x)) := by
  obtain ⟨text', hrender, hconvert⟩ := hw
  have canonical : (unpack s.x).cls ≠ .noncanon := fun h => by simp [render_of_noncanon h] at hrender
  obtain ⟨_, hrender', -, short⟩ := render_some canonical
  cases hrender.symm.trans hrender'
  rw [execTostr_some hrender, Host.Outcome.next.injEq] at htostr
  have same : text = text' := (htostr ▸ showsText_writeOut s (by omega)).unique hshow (by omega)
  rw [same] at hhold
  rw [execFromstr_of_holds (by omega) hhold, hconvert, finishConversion_word]

/-- Settles O42: each of the four kinds of word reads back. -/
theorem tostrFromstrRoundTrip : Obligations.TostrFromstrRoundTrip := by
  intro s t u text hword htostr hshow hhold
  have hw : ReadsBack s.x := by
    rcases hword with h | h | h | h
    · exact readsBack_of_finite h
    · rw [h]; exact readsBack_infinity false
    · rw [h]; exact readsBack_infinity true
    · rw [h]; exact readsBack_nan
  exact ⟨_, hw.fromstr_of_tostr htostr hshow hhold, by rw [complete_x, setX_x], succeeded_completeX u _⟩

end Sys2Proof.Machine

/-! R270, R273: reset. The reset state register by register, and the reset input as a turn of the host: whatever command is
in progress, the turn leaves the block as it is right after reset. -/

namespace Sys2Proof.Machine

/-! ## The reset state -/

@[simp] theorem reset_reg (r : RegName) : State.reset.reg r = 0 := by cases r <;> rfl
@[simp] theorem reset_mem : State.reset.mem = [] := rfl
@[simp] theorem reset_inputByte (k : Nat) : State.reset.inputByte k = none := Memory.read_nil _
@[simp] theorem reset_outputByte (k : Nat) : State.reset.outputByte k = none := Memory.read_nil _

/-- Settles O20: the registers and the buffers of the reset state by their lemmas, the rest by definition. -/
theorem resetValues : Obligations.ResetValues :=
  ⟨reset_reg, reset_inputByte, reset_outputByte, rfl, rfl⟩

/-! ## The reset input -/

section
variable (s : State)

@[simp] theorem resetInput_reg (r : RegName) : s.resetInput.reg r = State.reset.reg r := by cases r <;> rfl
@[simp] theorem resetInput_mem : s.resetInput.mem = State.reset.mem := rfl
@[simp] theorem resetInput_fault : s.resetInput.fault = none := rfl
@[simp] theorem resetInput_turns : s.resetInput.turns = 0 := rfl

end

section
variable {s : State}

/-- With a command in progress that is not due to complete, the step is a turn of the host (R290, log 2). -/
theorem step_of_pending (hf : s.fault = none) (hb : busyBit s.status = true) (ht : s.turns ≠ 0) :
    step s = .next (hostTurnBusy s) := by
  simp [step, hf, hb, ht]

/-- The turn count that `hostTurnBusy` lowers is lost in the reset. -/
theorem hostTurnBusy_of_resetInput {more : List HostOp} (hops : s.host.ops = .resetInput :: more) :
    hostTurnBusy s = s.resetInput.withOps more := by
  simp only [hostTurnBusy, hostTurn, hops, runOp]
  rfl

end

/-- Settles O21: the step is the reset input's turn, which leaves the registers, the buffers, the mark and the turns of the
reset state. -/
theorem resetAbandonsTheCommand : Obligations.ResetAbandonsTheCommand := by
  intro s more hf hb ht hops
  have turn : step s = .next (s.resetInput.withOps more) := by
    rw [step_of_pending hf hb ht, hostTurnBusy_of_resetInput hops]
  refine ⟨_, turn, fun r => ?_, fun a => ?_, ?_, ?_⟩
  · rw [withOps_reg, resetInput_reg]
  · rw [withOps_mem, resetInput_mem, reset_mem, Memory.read_nil]
  · rw [withOps_fault, resetInput_fault]
  · rw [withOps_turns, resetInput_turns]

end Sys2Proof.Machine

/-! R90 to R93: the decoder inverts the encoder. A word with no reserved bit set is rebuilt from its three fields, and each
branch of the decoder accepts only the fields of the encoding of what it answers. -/

namespace Sys2Proof.Machine

/-- A word whose reserved bits are 0 is made of its fields (R91). -/
theorem commandWord_fields {w : Word} (hr : resField w = 0) :
    commandWord (opField w) (sgnField w) (clsField w) = w := by
  apply BitVec.eq_of_getLsbD_eq
  intro i hi
  have reserved : 11 ≤ i → w.getLsbD i = false := fun h => by
    have bit : (resField w).getLsbD (i - 11) = false := by rw [hr]; simp
    rw [resField, BitVec.getLsbD_extractLsb', show 11 + (i - 11) = i by omega] at bit
    simpa [show i - 11 < 21 by omega] using bit
  simp only [commandWord, opField, sgnField, clsField, BitVec.getLsbD_append, BitVec.getLsbD_extractLsb',
    BitVec.getLsbD_ofBool, BitVec.getLsbD_zero]
  by_cases hop : i < 8
  · simp [hop]
  by_cases hsgn : i = 8
  · subst hsgn; simp
  by_cases hcls : i < 11
  · simp [hop, show ¬ i - 8 < 1 by omega, show i - 8 - 1 < 2 by omega, show 9 + (i - 8 - 1) = i by omega]
  · simp [hop, show ¬ i - 8 < 1 by omega, show ¬ i - 8 - 1 < 2 by omega, reserved (by omega)]

/-- The classes of ENCODE are those of its three encodings (R93). -/
theorem encode_of_encodeCommand {cls : BitVec 2} {sgn : Bool} {i : Instr} (h : encodeCommand cls sgn = .ok i) :
    encode i = commandWord 5 sgn cls := by
  have class_cases : ∀ c : BitVec 2, c = 0 ∨ c = 1 ∨ c = 2 ∨ c = 3 := by decide
  obtain rfl | rfl | rfl | rfl := class_cases cls <;> cases h <;> rfl

/-- The opcodes of R92 are those of the encodings. -/
theorem encode_of_plainCommand {op : BitVec 8} {i : Instr} (h : plainCommand op = some i) :
    encode i = commandWord op false 0 := by
  have number : BitVec.ofNat 8 op.toNat = op := by simp
  unfold plainCommand at h
  split at h
  case h_7 => cases h
  all_goals
    next hop =>
      cases h
      rw [← number, hop]
      rfl

/-- An accepted word is the encoding of the command it decodes to. -/
theorem encode_of_decode {w : Word} {i : Instr} (h : decode w = .ok i) : encode i = w := by
  by_cases hr : resField w = 0
  · by_cases ho : opField w = 5
    · rw [decode_of_encodeOpcode hr ho] at h
      rw [encode_of_encodeCommand h, ← ho, commandWord_fields hr]
    · cases hp : plainCommand (opField w) with
      | none =>
        rw [decode_of_reservedOpcode hr ho hp] at h
        cases h
      | some j =>
        rw [decode_of_plainCommand hr ho hp] at h
        split at h
        · cases h
        · next hclear =>
          cases h
          obtain ⟨hsgn, hcls⟩ := not_or.mp hclear
          rw [encode_of_plainCommand hp, ← Bool.eq_false_iff.mpr hsgn, ← not_not.mp hcls, commandWord_fields hr]
  · rw [decode_of_resField_ne hr] at h
    cases h

/-- Settles O2: the encoding decodes to its command, and an accepted word is the encoding of what it decodes to. -/
theorem decodeInvertsEncode : Obligations.DecodeInvertsEncode :=
  fun i _ _ => ⟨fun h => (encode_of_decode h).symm, fun h => h ▸ decode_encode i⟩

end Sys2Proof.Machine

/-! R44, R240 to R244: how each command can end. One inversion lemma says every state a command leaves when it does not
fault; its frame, its error codes and the constancy of errors are read off the cases. -/

namespace Sys2Proof.Machine

/-! ## The ends of each command -/

/-- Every state a command issued on `s` leaves when it does not fault: its errors, and the results it writes. -/
inductive CommandEnd (s : State) : Instr → State → Prop
  | fromstrTooLong : CommandEnd s .fromstr (raiseError s .tooLong .none)
  | fromstrMalformed (sub : SubCode) (hsub : sub ≠ .none) : CommandEnd s .fromstr (raiseError s .malformed sub)
  | fromstrOverflow : CommandEnd s .fromstr (raiseError s .overflow .none)
  | fromstr (w : QWord) : CommandEnd s .fromstr (complete (s.setX w))
  | mul64 (v : QWord) : CommandEnd s .mul64 (complete (s.setY v))
  | div1e9 (v : QWord) (r : Word) (hr : r.toNat < 1000000000) :
    CommandEnd s .div1e9 (complete ((s.setY v).setAux r))
  | ltu64 (r : Word) (hr : r.toNat ≤ 1) : CommandEnd s .ltu64 (complete (s.setAux r))
  | encFinRange (sgn : Bool) : CommandEnd s (.encFin sgn) (raiseError s .range .none)
  | encFin (sgn : Bool) (w : QWord) : CommandEnd s (.encFin sgn) (complete (s.setX w))
  | encInf (sgn : Bool) (w : QWord) : CommandEnd s (.encInf sgn) (complete (s.setX w))
  | encNan (sgn : Bool) (w : QWord) : CommandEnd s (.encNan sgn) (complete (s.setX w))
  | decode (u : Unpacked) (exp : Word) (v : QWord) :
    CommandEnd s .decode (complete ((s.setDecoded (decInfoWord u) exp).setY v))
  | tostrNoncanon : CommandEnd s .tostr (raiseError s .noncanon .none)
  | tostr (text : List Byte) (hpos : 1 ≤ text.length) (hle : text.length ≤ 42) :
    CommandEnd s .tostr (complete (s.writeOut text))

section
variable {s t : State} {i : Instr}

theorem lessThanUnsigned_le (a b : DWord) : (lessThanUnsigned a b).toNat ≤ 1 := by
  rw [lessThanUnsigned]
  split <;> decide

theorem commandEnd_of_fromstr (h : exec .fromstr s = .next t) : CommandEnd s .fromstr t := by
  rcases execFromstr_cases s with ⟨-, hs⟩ | ⟨-, k, -, hs⟩ | ⟨-, text, -, hs⟩ <;> rw [hs] at h <;> cases h
  · exact .fromstrTooLong
  · cases hc : convertText text with
    | word w => exact .fromstr w
    | error code sub =>
      obtain ⟨rfl, hparse⟩ | ⟨rfl, rfl⟩ := convertText_error hc
      · exact .fromstrMalformed sub (parse_err_ne_none hparse)
      · exact .fromstrOverflow

theorem commandEnd_of_encFin {sgn : Bool} (h : exec (.encFin sgn) s = .next t) : CommandEnd s (.encFin sgn) t := by
  rw [execEncFin_eq rfl] at h
  cases h
  cases encodeFinite sgn (s.opa.toNat * 10 ^ 17 + s.opb.toNat) s.expIn.toInt with
  | none => exact .encFinRange sgn
  | some w => exact .encFin sgn w

theorem commandEnd_of_tostr (h : exec .tostr s = .next t) : CommandEnd s .tostr t := by
  by_cases hcls : (unpack s.x).cls = .noncanon
  · rw [execTostr_none (render_of_noncanon hcls)] at h
    cases h
    exact .tostrNoncanon
  · obtain ⟨text, hrender, hpos, hle⟩ := render_some hcls
    rw [execTostr_some hrender] at h
    cases h
    exact .tostr text hpos hle

/-- A command that does not fault has one of the ends of its row. -/
theorem commandEnd_of_exec (h : exec i s = .next t) : CommandEnd s i t := by
  cases i with
  | fromstr => exact commandEnd_of_fromstr h
  | mul64 => rw [exec_mul64] at h; cases h; exact .mul64 _
  | div1e9 =>
    rw [exec_div1e9] at h; cases h
    exact .div1e9 _ _ (by rw [modBillion_toNat]; exact Nat.mod_lt _ (by decide))
  | ltu64 => rw [exec_ltu64] at h; cases h; exact .ltu64 _ (lessThanUnsigned_le _ _)
  | encFin sgn => exact commandEnd_of_encFin h
  | encInf sgn => rw [exec_encInf] at h; cases h; exact .encInf sgn _
  | encNan sgn => rw [exec_encNan] at h; cases h; exact .encNan sgn _
  | decode => rw [exec_decode] at h; cases h; exact .decode _ _ _
  | tostr => exact commandEnd_of_tostr h

/-! ## The frame (R44) -/

/-- The frame of a command: no register but those of its row, and of the buffers no byte but TOSTR's of TXT_OUT. -/
structure KeepsFrame (i : Instr) (s t : State) : Prop where
  regs : ∀ r, r ∉ resultRegs i → t.reg r = s.reg r
  bytes : ∀ a, a < 0x100 ∨ 0x13F < a → t.mem.read a = s.mem.read a
  buffers : i ≠ .tostr → ∀ a, t.mem.read a = s.mem.read a
  fault : t.fault = s.fault
  host : t.host = s.host
  turns : t.turns = s.turns
  draws : t.draws = s.draws

theorem KeepsFrame.of_sameBut (h : SameBut s t (resultRegs i)) : KeepsFrame i s t := by
  obtain ⟨regs, bytes, fault, host, turns, draws⟩ := h
  exact ⟨regs, fun a _ => bytes a, fun _ => bytes, fault, host, turns, draws⟩

theorem status_mem_resultRegs (i : Instr) : .status ∈ resultRegs i := by cases i <;> exact List.mem_cons_self

/-- An error stays within any command's row (R242). -/
theorem keepsFrame_raiseError (i : Instr) (s : State) (code : ErrorCode) (sub : SubCode) :
    KeepsFrame i s (raiseError s code sub) := by
  obtain ⟨regs, others⟩ := sameBut_raiseError s code sub
  refine .of_sameBut ⟨fun r hr => regs r fun hst => hr ?_, others⟩
  rw [List.mem_singleton.mp hst]
  exact status_mem_resultRegs i

/-- `complete()` changes STATUS only (R26). -/
theorem complete_reg (s : State) {r : RegName} (h : r ≠ .status) : (complete s).reg r = s.reg r := by
  cases r <;> first | rfl | exact absurd rfl h

/-- TOSTR writes OUT_LEN and TXT_OUT (R222). -/
theorem keepsFrame_writeOut (s : State) (text : List Byte) : KeepsFrame .tostr s (complete (s.writeOut text)) where
  regs r hr := by
    obtain ⟨hstatus, hlen⟩ : r ≠ .status ∧ r ≠ .outLen := by simpa [resultRegs] using hr
    rw [complete_reg _ hstatus, writeOut_reg s text hlen]
  bytes a ha := by rw [complete_mem, writeOut_read_other s text ha]
  buffers h := absurd rfl h
  fault := by rw [complete_fault, writeOut_fault]
  host := by rw [complete_host, writeOut_host]
  turns := by rw [complete_turns, writeOut_turns]
  draws := by rw [complete_draws, writeOut_draws]

theorem CommandEnd.keepsFrame (h : CommandEnd s i t) : KeepsFrame i s t := by
  cases h with
  | fromstr w | encFin sgn w | encInf sgn w | encNan sgn w => exact .of_sameBut (sameBut_completeX s w)
  | mul64 v => exact .of_sameBut (sameBut_complete (sameBut_setY (sameBut_refl s _) v (by decide)) (by decide))
  | div1e9 v r =>
    exact .of_sameBut
      (sameBut_complete (sameBut_setAux (sameBut_setY (sameBut_refl s _) v (by decide)) r (by decide)) (by decide))
  | ltu64 r => exact .of_sameBut (sameBut_complete (sameBut_setAux (sameBut_refl s _) r (by decide)) (by decide))
  | decode u exp v => exact .of_sameBut (sameBut_decoded s _ exp v)
  | tostr text => exact keepsFrame_writeOut s text
  | fromstrTooLong | fromstrMalformed | fromstrOverflow | encFinRange | tostrNoncanon =>
    exact keepsFrame_raiseError _ s _ _

/-! ## Errors (R240 to R243) -/

/-- The errors each command can raise (R240). -/
def errorCodes : Instr → List ErrorCode
  | .fromstr => [.tooLong, .malformed, .overflow]
  | .encFin _ => [.range]
  | .tostr => [.noncanon]
  | .mul64 | .div1e9 | .ltu64 | .encInf _ | .encNan _ | .decode => []

/-- A command completes from STATUS as it was, or raises an error of its row, with a sub-code exactly if MALFORMED. -/
theorem CommandEnd.complete_or_error (h : CommandEnd s i t) :
    t.status = statusCompleted s.status ∨
      ∃ code ∈ errorCodes i, ∃ sub, (sub ≠ .none ↔ code = .malformed) ∧ t = raiseError s code sub := by
  cases h with
  | fromstr | mul64 | div1e9 | ltu64 | encFin | encInf | encNan | decode | tostr => exact .inl rfl
  | fromstrMalformed sub hsub => exact .inr ⟨.malformed, by decide, sub, iff_of_true hsub rfl, rfl⟩
  | fromstrTooLong => exact .inr ⟨.tooLong, by decide, .none, by decide, rfl⟩
  | fromstrOverflow => exact .inr ⟨.overflow, by decide, .none, by decide, rfl⟩
  | encFinRange => exact .inr ⟨.range, List.mem_singleton_self _, .none, by decide, rfl⟩
  | tostrNoncanon => exact .inr ⟨.noncanon, by decide, .none, by decide, rfl⟩

/-- With STATUS as acceptance left it, ERR is set only by an error. -/
theorem CommandEnd.eq_raiseError (h : CommandEnd s i t) (hst : s.status = 0x1#32) (herr : errBit t.status = true) :
    ∃ code sub, t = raiseError s code sub := by
  obtain hcomplete | ⟨code, -, sub, -, rfl⟩ := h.complete_or_error
  · rw [hcomplete, hst] at herr
    exact absurd herr (by decide)
  · exact ⟨code, sub, rfl⟩

theorem subNumber_ne_zero_iff (sub : SubCode) : (subNumber sub).toNat ≠ 0 ↔ sub ≠ .none := by cases sub <;> decide

theorem subNumber_le (sub : SubCode) : (subNumber sub).toNat ≤ 5 := by cases sub <;> decide

theorem errorNumber_eq_three_iff (code : ErrorCode) : (errorNumber code).toNat = 3 ↔ code = .malformed := by
  cases code <;> decide

theorem errorNumber_ne_zero (code : ErrorCode) : (errorNumber code).toNat ≠ 0 := by cases code <;> decide

end

/-! ## The statements -/

/-- Settles O55: the frame of each of the command's ends. -/
theorem commandsWriteOnlyTheirRow : Obligations.CommandsWriteOnlyTheirRow := by
  intro i s t h
  obtain ⟨regs, bytes, buffers, fault, host, turns, draws⟩ := (commandEnd_of_exec h).keepsFrame
  exact ⟨regs, fun k => bytes _ (.inr (by simp only [Config.txtInBase]; omega)), buffers, bytes, fault, host, turns, draws⟩

/-- Settles O57: an end with ERR is `raiseError` of the state at acceptance, which putting STATUS back restores. -/
theorem errorsChangeOnlyStatus : Obligations.ErrorsChangeOnlyStatus := by
  intro i s t hst h herr
  obtain ⟨code, sub, rfl⟩ := (commandEnd_of_exec h).eq_raiseError hst herr
  have restored : { raiseError s code sub with status := 0x1#32 } = s := by rw [← hst]; rfl
  exact ⟨rfl, doneBit_statusFailed code sub, busyBit_statusFailed code sub, by rw [restored, h]⟩

/-- Settles O58: a completion leaves the error fields 0; an error puts its own number and sub-code there. -/
theorem errorsByCommand : Obligations.ErrorsByCommand := by
  intro i s t hst h
  obtain hcomplete | ⟨code, hcode, sub, hsub, rfl⟩ := (commandEnd_of_exec h).complete_or_error
  · rw [hcomplete, hst, show ecodeField (statusCompleted 0x1#32) = 0 by decide,
      show esubField (statusCompleted 0x1#32) = 0 by decide]
    exact ⟨by cases i <;> simp, by decide, by decide, by decide⟩
  · rw [raiseError_status, ecodeField_statusFailed, esubField_statusFailed, errBit_statusFailed,
      subNumber_ne_zero_iff, errorNumber_eq_three_iff]
    refine ⟨?_, hsub, subNumber_le sub, by simp [errorNumber_ne_zero]⟩
    cases i with
    | fromstr =>
      obtain rfl | rfl | rfl : code = .tooLong ∨ code = .malformed ∨ code = .overflow := by
        simpa [errorCodes] using hcode
      all_goals decide
    | encFin sgn =>
      change (errorNumber code).toNat ∈ [0, 5]
      rw [List.mem_singleton.mp hcode]
      decide
    | tostr => rw [List.mem_singleton.mp hcode]; decide
    | mul64 | div1e9 | ltu64 | encInf | encNan | decode => exact absurd hcode List.not_mem_nil

end Sys2Proof.Machine

/-! R26, R250, R259, R290: the step. The completion of a command, the fault mark, the idle block, and the completion that
a command in progress comes to when the host is done. -/

namespace Sys2Proof.Machine

section
variable {s t : State} {i : Instr}

/-- The unit runs the command that CMD decodes to (R90). -/
theorem completeCommand_of_decode (h : decode s.cmd = .ok i) : completeCommand s = markFault s (exec i s) := by
  simp [completeCommand, fetchCommand, h]

theorem step_of_next (hf : s.fault = none) (hb : busyBit s.status = true) (ht : s.turns = 0)
    (hd : decode s.cmd = .ok i) (hx : exec i s = .next t) : step s = .next t := by
  rw [step_of_due hf hb ht, completeCommand_of_decode hd, hx]
  rfl

theorem step_of_fault {f : Fault} (hf : s.fault = none) (hb : busyBit s.status = true) (ht : s.turns = 0)
    (hd : decode s.cmd = .ok i) (hx : exec i s = .fault f) : step s = .next (s.mark f) := by
  rw [step_of_due hf hb ht, completeCommand_of_decode hd, hx]
  rfl

/-- With no command in progress the host moves. -/
theorem step_of_idle (hf : s.fault = none) (hb : busyBit s.status = false) : step s = .next (hostTurn s) := by
  simp [step, hf, hb]

/-- A finished host's turn does nothing (log 9). -/
theorem hostTurn_of_done (hops : s.host.ops = []) (hrest : s.host.rest = []) : hostTurn s = s := by
  simp [hostTurn, beginStatement, hops, hrest]

/-- While a command is in progress, a finished host only uses up a turn (R290, log 2). -/
theorem step_of_pending_done (hf : s.fault = none) (hb : busyBit s.status = true) (ht : s.turns ≠ 0)
    (hops : s.host.ops = []) (hrest : s.host.rest = []) : step s = .next { s with turns := s.turns - 1 } := by
  rw [step_of_pending hf hb ht]
  exact congrArg Host.Outcome.next (hostTurn_of_done (s := { s with turns := s.turns - 1 }) hops hrest)

/-- A run whose first step answers `v` goes on from `v`. -/
theorem run_succ_of_step {M : Host.Core} {u v : M.State} (k : Nat) (h : M.step u = .next v) :
    M.run (k + 1) u = M.run k v := by
  rw [Host.Core.run, h]

/-- With a finished host, a command completes after its turns are used up: by induction on the turns left. -/
theorem run_completes (n : Nat) (hn : s.turns = n) (hf : s.fault = none) (hb : busyBit s.status = true)
    (hops : s.host.ops = []) (hrest : s.host.rest = []) (hd : decode s.cmd = .ok i)
    (hx : exec i { s with turns := 0 } = .next t) : Host.Core.run Sys2Proof.core (n + 1) s = .next t := by
  induction n generalizing s with
  | zero =>
    have due : { s with turns := 0 } = s := by rw [← hn]
    rw [due] at hx
    exact run_succ_of_step (M := Sys2Proof.core) 0 (step_of_next hf hb hn hd hx)
  | succ n ih =>
    have turn := step_of_pending_done hf hb (by omega) hops hrest
    rw [hn, Nat.add_sub_cancel] at turn
    exact (run_succ_of_step (M := Sys2Proof.core) (n + 1) turn).trans (ih rfl hf hb hops hrest hd hx)

end

/-- Settles O4: a state `exec` answers is the next one, a fault is the mark. -/
theorem stepRunsTheDecodedCommand : Obligations.StepRunsTheDecodedCommand :=
  fun _ _ hf hb ht hd _ => ⟨fun _ => step_of_next hf hb ht hd, fun _ => step_of_fault hf hb ht hd⟩

/-- Settles O5: the mark answers the step, and a settled state has none. -/
theorem markedStateTakesNoStep : Obligations.MarkedStateTakesNoStep := by
  intro s f hf
  refine ⟨by rw [step, hf], fun ⟨hnone, _⟩ => ?_⟩
  rw [hf] at hnone
  cases hnone

/-- Settles O7: by induction on the turns left. -/
theorem commandCompletesInBoundedTime : Obligations.CommandCompletesInBoundedTime :=
  fun s _ _ hf hb hops hrest hd hx => run_completes s.turns rfl hf hb hops hrest hd hx

/-- Settles O8: the host moves and has nothing to do. -/
theorem idleBlockKeepsItsState : Obligations.IdleBlockKeepsItsState := by
  intro s ⟨hf, hb, hops, hrest⟩
  rw [step_of_idle hf hb, hostTurn_of_done hops hrest]

end Sys2Proof.Machine

/-! The invariant of the machine (`State.Inv`). It speaks of the buffers with OUT_LEN, of STATUS with the turns, of AUX and
of DEC_INFO; a command's end and a turn of the host each change few of these. -/

namespace Sys2Proof.Machine

section
variable {s t : State} {i : Instr}

/-! ## STATUS -/

/-- In progress, a legal STATUS is the one acceptance sets. -/
theorem LegalStatus.eq_of_busy {st : Word} (h : LegalStatus st) (hb : busyBit st = true) : st = 0x1#32 := by
  obtain rfl | rfl | rfl | ⟨code, hcode, rfl⟩ | ⟨sub, h1, h5, rfl⟩ := h
  · exact absurd hb (by decide)
  · rfl
  · exact absurd hb (by decide)
  · obtain rfl | rfl | rfl | rfl | rfl := hcode <;> exact absurd hb (by decide)
  · interval_cases sub <;> exact absurd hb (by decide)

theorem legalStatus_accepted : LegalStatus statusAccepted := .inr (.inl statusAccepted_eq)

theorem legalStatus_completed : LegalStatus (statusCompleted 0x1#32) := .inr (.inr (.inl (by decide)))

/-- An error with a sub-code exactly if MALFORMED leaves a legal STATUS (R240, R241). -/
theorem legalStatus_failed {code : ErrorCode} {sub : SubCode} (h : sub ≠ .none ↔ code = .malformed) :
    LegalStatus (statusFailed code sub) := by
  rw [statusFailed_eq]
  by_cases hm : code = .malformed
  · have hsub := (subNumber_ne_zero_iff sub).mpr (h.mpr hm)
    rw [hm]
    exact .inr (.inr (.inr (.inr ⟨_, Nat.one_le_iff_ne_zero.mpr hsub, subNumber_le sub, rfl⟩)))
  · have hsub : sub = .none := not_not.mp (mt h.mp hm)
    subst hsub
    refine .inr (.inr (.inr (.inl ⟨(errorNumber code).toNat, ?_, rfl⟩)))
    cases code <;> first | exact absurd rfl hm | decide

/-- Every end of a command accepted leaves a legal STATUS with BUSY clear (R26). -/
theorem CommandEnd.legalStatus (h : CommandEnd s i t) (hst : s.status = 0x1#32) : LegalStatus t.status := by
  obtain hcomplete | ⟨code, -, sub, hsub, rfl⟩ := h.complete_or_error
  · rw [hcomplete, hst]
    exact legalStatus_completed
  · exact legalStatus_failed hsub

/-! ## AUX and DEC_INFO -/

/-- The reserved bits of DEC_INFO are 0 in every record (R36). -/
theorem decInfoWord_reserved (u : Unpacked) : decInfoWord u &&& 0xC000FFF0#32 = 0 := by
  apply BitVec.eq_of_getLsbD_eq
  intro j hj
  simp only [decInfoWord, BitVec.getLsbD_and, BitVec.getLsbD_append]
  interval_cases j <;> simp

/-- AUX stays below 10^9: a command writes a remainder or a truth value there (R35). -/
theorem CommandEnd.aux_lt (h : CommandEnd s i t) (haux : s.aux.toNat < 1000000000) : t.aux.toNat < 1000000000 := by
  cases h with
  | div1e9 v r hr => exact hr
  | ltu64 r hr => rw [complete_aux, setAux_aux]; omega
  | fromstr | mul64 | encFin | encInf | encNan | decode | tostr => exact haux
  | fromstrTooLong | fromstrMalformed | fromstrOverflow | encFinRange | tostrNoncanon => exact haux

/-- Only DECODE writes DEC_INFO. -/
theorem CommandEnd.decInfo_reserved (h : CommandEnd s i t) (hinfo : s.decInfo &&& 0xC000FFF0#32 = 0) :
    t.decInfo &&& 0xC000FFF0#32 = 0 := by
  cases h with
  | decode u exp v => exact decInfoWord_reserved u
  | fromstr | mul64 | div1e9 | ltu64 | encFin | encInf | encNan | tostr => exact hinfo
  | fromstrTooLong | fromstrMalformed | fromstrOverflow | encFinRange | tostrNoncanon => exact hinfo

/-! ## The buffers -/

/-- The part of the invariant that speaks of the buffers and OUT_LEN. -/
structure BuffersInv (m : Memory) (outLen : Word) : Prop where
  canonical : m.wf = true
  inBuffers : ∀ a, m.read a ≠ none → (0x100 ≤ a ∧ a ≤ 0x13F) ∨ (0x2000 ≤ a ∧ a ≤ 0x3B57)
  outWhole : ∀ k, k < 64 → (m.read (0x100 + k)).isSome = (m.read 0x100).isSome
  outLength : outLen.toNat ≤ 42 ∧ ((m.read 0x100).isSome ↔ outLen ≠ 0)
  inWords : ∀ k, k < 7000 → (m.read (0x2000 + k)).isSome = (m.read (0x2000 + 4 * (k / 4))).isSome

theorem State.Inv.buffers (h : s.Inv) : BuffersInv s.mem s.outLen :=
  ⟨h.canonical, h.inBuffers, h.outWhole, h.outLength, h.inWords⟩

theorem BuffersInv.inv (h : BuffersInv s.mem s.outLen) (status : LegalStatus s.status)
    (idle : busyBit s.status = false → s.turns = 0) (aux : s.aux.toNat < 1000000000)
    (decInfo : s.decInfo &&& 0xC000FFF0#32 = 0) : s.Inv where
  canonical := h.canonical
  inBuffers := h.inBuffers
  outWhole := h.outWhole
  outLength := h.outLength
  inWords := h.inWords
  status := status
  idle := idle
  aux := aux
  decInfo := decInfo

theorem buffersInv_reset : BuffersInv [] 0 :=
  ⟨rfl, fun _ h => absurd rfl h, fun _ _ => rfl, by decide, fun _ _ => rfl⟩

section
variable {m : Memory} {outLen : Word}

/-- `WriteOut` of a text of 1 to 42 bytes writes TXT_OUT whole and OUT_LEN with it (R222, R231). -/
theorem BuffersInv.writeOut (h : BuffersInv m outLen) {text : List Byte} (hpos : 1 ≤ text.length)
    (hle : text.length ≤ 42) :
    BuffersInv (m.writeBytes 0x100 (outputBytes text)) (BitVec.ofNat 32 text.length) := by
  have inside : ∀ k, k < 64 → (m.writeBytes 0x100 (outputBytes text)).read (0x100 + k) = some (text.getD k 0) :=
    fun k hk => by
      rw [Memory.read_writeBytes, outputBytes_length, if_pos (by omega), Nat.add_sub_cancel_left,
        outputBytes_getElem? _ _ hk]
  have outside : ∀ a, 0x140 ≤ a → (m.writeBytes 0x100 (outputBytes text)).read a = m.read a := fun a ha => by
    rw [Memory.read_writeBytes, outputBytes_length, if_neg (by omega)]
  have first := inside 0 (by decide)
  have length : (BitVec.ofNat 32 text.length).toNat = text.length := by rw [BitVec.toNat_ofNat]; omega
  refine ⟨Memory.wf_writeBytes _ h.canonical _, fun a ha => ?_, fun k hk => ?_, ⟨by omega, ?_⟩, fun k hk => ?_⟩
  · rw [Memory.read_writeBytes, outputBytes_length] at ha
    split at ha
    · omega
    · exact h.inBuffers a ha
  · rw [inside k hk, first]; rfl
  · rw [first]
    refine iff_of_true rfl fun h0 => ?_
    rw [h0] at length
    have zero : (0 : Word).toNat = 0 := rfl
    omega
  · rw [outside _ (by omega), outside _ (by omega)]
    exact h.inWords k hk

/-- A host write of a TXT_IN word writes its four bytes (R63, R272). -/
theorem BuffersInv.writeWord (h : BuffersInv m outLen) {w : Nat} (hw : w < 1750) (v : Word) :
    BuffersInv (m.writeWord (0x2000 + 4 * w) v) outLen := by
  have below : ∀ a, a < 0x2000 → (m.writeWord (0x2000 + 4 * w) v).read a = m.read a := fun a ha => by
    rw [Memory.read_writeWord, if_neg (by omega)]
  refine ⟨Memory.wf_writeWord h.canonical _ v, fun a ha => ?_, fun k hk => ?_, ?_, fun k hk => ?_⟩
  · rw [Memory.read_writeWord] at ha
    split at ha
    · omega
    · exact h.inBuffers a ha
  · rw [below _ (by omega), below _ (by omega)]
    exact h.outWhole k hk
  · rw [below _ (by omega)]
    exact h.outLength
  · rw [Memory.read_writeWord, Memory.read_writeWord]
    by_cases hk4 : k / 4 = w
    · rw [if_pos (by omega), if_pos (by omega)]; rfl
    · rw [if_neg (by omega), if_neg (by omega)]
      exact h.inWords k hk

end

/-- Only TOSTR writes the buffers or OUT_LEN. -/
theorem CommandEnd.buffersInv (h : CommandEnd s i t) (hbuf : BuffersInv s.mem s.outLen) :
    BuffersInv t.mem t.outLen := by
  cases h with
  | tostr text hpos hle =>
    rw [complete_mem, complete_outLen, writeOut_mem, writeOut_outLen]
    exact hbuf.writeOut hpos hle
  | fromstr | mul64 | div1e9 | ltu64 | encFin | encInf | encNan | decode => exact hbuf
  | fromstrTooLong | fromstrMalformed | fromstrOverflow | encFinRange | tostrNoncanon => exact hbuf

/-! ## The unit -/

/-- The end of a command whose turns are used up. -/
theorem CommandEnd.inv (h : CommandEnd s i t) (hs : s.Inv) (hb : busyBit s.status = true) (ht : s.turns = 0) : t.Inv :=
  have accepted := hs.status.eq_of_busy hb
  (h.buffersInv hs.buffers).inv (h.legalStatus accepted) (fun _ => h.keepsFrame.turns.trans ht) (h.aux_lt hs.aux)
    (h.decInfo_reserved hs.decInfo)

theorem State.Inv.completeIllegal (hs : s.Inv) (ht : s.turns = 0) : (completeIllegal s).Inv :=
  BuffersInv.inv (s := raiseError s .illegalCmd .none) hs.buffers (legalStatus_failed (by decide)) (fun _ => ht) hs.aux
    hs.decInfo

/-! ## The host -/

/-- A write of a register: CMD is accepted, an RW register is none the invariant speaks of, an RO register stays. -/
theorem State.Inv.writeReg (hs : s.Inv) (r : RegName) (v : Word) : (s.writeReg r v).Inv := by
  by_cases hc : r = .cmd
  · subst hc
    exact BuffersInv.inv (s := s.accept v) hs.buffers legalStatus_accepted
      (fun h => absurd busyBit_statusAccepted (ne_true_of_eq_false h)) hs.aux hs.decInfo
  by_cases hw : r.writable = true
  · obtain ⟨hmem, -, -, hturns, -, hstatus⟩ := writeReg_frame (s := s) hc v
    obtain ⟨hregs, -⟩ := sameBut_writeReg (s := s) hw hc v
    have readOnly : ∀ q : RegName, q.writable = false → (s.writeReg r v).reg q = s.reg q := fun q hq =>
      hregs q fun hmem => by rw [List.mem_singleton.mp hmem, hw] at hq; cases hq
    have houtLen : (s.writeReg r v).outLen = s.outLen := readOnly .outLen rfl
    have haux : (s.writeReg r v).aux = s.aux := readOnly .aux rfl
    have hinfo : (s.writeReg r v).decInfo = s.decInfo := readOnly .decInfo rfl
    refine BuffersInv.inv ?_ ?_ ?_ ?_ ?_
    · rw [hmem, houtLen]; exact hs.buffers
    · rw [hstatus]; exact hs.status
    · rw [hstatus, hturns]; exact hs.idle
    · rw [haux]; exact hs.aux
    · rw [hinfo]; exact hs.decInfo
  · rw [writeReg_readOnly (Bool.eq_false_iff.mpr hw)]
    exact hs

/-- A write of a legal word. -/
theorem State.Inv.poke (hs : s.Inv) {offset width : Nat} {p : Place} (hp : legalPlace offset width = some p)
    (v : Word) : (s.poke p v).Inv := by
  obtain ⟨-, -, -, ⟨r, rfl⟩ | ⟨m, rfl, -⟩ | ⟨m, rfl, hm⟩⟩ := legalPlace_cases hp
  · exact hs.writeReg r v
  · exact hs
  · exact BuffersInv.inv (s := s.poke (.txtIn (4 * m)) v) (hs.buffers.writeWord hm v) hs.status hs.idle hs.aux hs.decInfo

/-- Neither the host agent, nor the draws, nor the fault mark is in the invariant. -/
theorem State.Inv.with_host (hs : s.Inv) (host : HostAgent) : State.Inv { s with host := host } :=
  BuffersInv.inv (s := { s with host := host }) hs.buffers hs.status hs.idle hs.aux hs.decInfo

theorem State.Inv.mark (hs : s.Inv) (f : Fault) : (s.mark f).Inv :=
  BuffersInv.inv (s := s.mark f) hs.buffers hs.status hs.idle hs.aux hs.decInfo

theorem State.Inv.afterRead (hs : s.Inv) : s.afterRead.Inv := by
  unfold State.afterRead
  split
  · exact BuffersInv.inv (s := { s with draws := s.draws + 1 }) hs.buffers hs.status hs.idle hs.aux hs.decInfo
  · exact hs

theorem inv_reset : State.reset.Inv :=
  BuffersInv.inv buffersInv_reset (.inl rfl) (fun _ => rfl) (by decide) (by decide)

theorem inv_resetInput (s : State) : s.resetInput.Inv :=
  BuffersInv.inv (s := s.resetInput) buffersInv_reset (.inl rfl) (fun _ => rfl) inv_reset.aux inv_reset.decInfo

/-- Whatever a turn of the host does to the block, the invariant stands. -/
theorem State.Inv.hostTurn (hs : s.Inv) : (hostTurn s).Inv := by
  obtain ⟨b, host, effect, hturn⟩ := hostTurn_effect s
  rw [hturn]
  apply State.Inv.with_host
  cases effect with
  | none => exact hs
  | read => exact hs.afterRead
  | write offset width p v hp hb => exact hs.poke hp v
  | reset => exact inv_resetInput s
  | fault f => exact hs.mark f

/-- While a command is in progress the turns may be any number. -/
theorem State.Inv.with_turns (hs : s.Inv) (hb : busyBit s.status = true) (n : Nat) :
    State.Inv { s with turns := n } :=
  BuffersInv.inv (s := { s with turns := n }) hs.buffers hs.status (fun h => absurd hb (ne_true_of_eq_false h)) hs.aux
    hs.decInfo

end

/-- Settles O59. -/
theorem resetMeetsInvariant : Obligations.ResetMeetsInvariant := inv_reset

/-- Settles O60: by the cases of a step, a command's end or a turn of the host. -/
theorem everyStepKeepsInvariant : Obligations.EveryStepKeepsInvariant := by
  intro s t hs h
  obtain ⟨-, ⟨hb, ht, completion⟩ | ⟨hb, -, rfl⟩ | ⟨-, rfl⟩⟩ := step_cases h
  · obtain ⟨i, -, hx⟩ | ⟨i, f, -, -, rfl⟩ | ⟨e, -, rfl⟩ := completion
    · exact (commandEnd_of_exec hx).inv hs hb ht
    · exact hs.mark f
    · exact hs.completeIllegal ht
  · exact (hs.with_turns hb _).hostTurn
  · exact hs.hostTurn

end Sys2Proof.Machine

/-! R43, R62, R65, R251, R280, R281: what a host access answers. A word's place decides whether the access is legal; on an
idle block its write is carried out, while a command is in progress it is a hazard, and its read is of a word in flux only
if the command's row names the word. -/

namespace Sys2Proof.Machine

section
variable {s : State}

/-! ## Places -/

/-- A legal access of the window reaches a word (R65). -/
theorem exists_place {offset width : Nat} (hw : offset < 0x4000) (h : ¬ IllegalAccess offset width) :
    ∃ p, legalPlace offset width = some p :=
  Option.ne_none_iff_exists'.mp (mt (legalPlace_eq_none_iff hw).mp h)

/-- Of the words, only RW registers and TXT_IN take a write on an idle block (R43). -/
theorem poke_of_readOnly {offset width : Nat} {p : Place} (hp : legalPlace offset width = some p)
    (h : offset = 0x004 ∨ (0x030 ≤ offset ∧ offset ≤ 0x04C) ∨ (0x100 ≤ offset ∧ offset ≤ 0x13C)) (v : Word) :
    s.poke p v = s := by
  obtain ⟨-, -, rfl, ⟨r, rfl⟩ | ⟨m, rfl, -⟩ | ⟨m, rfl, -⟩⟩ := legalPlace_cases hp
  · refine writeReg_readOnly ?_ v
    cases r <;> first | rfl | (simp only [Place.offset, RegName.offset] at h; omega)
  · rfl
  · simp only [Place.offset, Config.txtInBase] at h
    omega

theorem poke_fault (p : Place) (v : Word) : (s.poke p v).fault = s.fault := by
  cases p with
  | reg r => cases r <;> rfl
  | txtOut k | txtIn k => rfl

/-! ## Accesses at a bus address -/

/-- The window begins at CODEC_BASE (R60, R70). -/
theorem windowOffset_base {offset : Nat} (h : offset < 0x4000) :
    windowOffset (Config.codecBase + offset) = some offset := by
  rw [windowOffset, Config.windowSize, if_pos (by omega), Nat.add_sub_cancel_left]

theorem hostRead_of_illegal {offset width : Nat} (h : legalPlace offset width = none) :
    hostRead s offset width = .error (.busError offset width .read) := by simp [hostRead, h]

theorem hostWrite_of_illegal {offset width : Nat} (h : legalPlace offset width = none) (v : Word) :
    hostWrite s offset width v = .error (.busError offset width .write) := by simp [hostWrite, h]

/-- An access without a place marks its BusError, in either direction (R251). -/
theorem hostTurn_bus_illegal {dir : Dir} {offset width : Nat} {v : Word} {more : List HostOp} (hw : offset < 0x4000)
    (hops : s.host.ops = .bus dir (Config.codecBase + offset) width v :: more) (h : legalPlace offset width = none) :
    hostTurn s = s.mark (.busError offset width dir) := by
  cases dir with
  | read => simp [hostTurn, hops, runOp, busTurn, windowOffset_base hw, observedRead, hostRead_of_illegal h]
  | write => simp [hostTurn, hops, runOp, busTurn, windowOffset_base hw, hostWrite_of_illegal h]

/-- An access with a place marks no BusError: a read and an idle write mark nothing, a write while BUSY is a hazard. -/
theorem hostTurn_bus_legal {dir : Dir} {offset width : Nat} {v : Word} {more : List HostOp} {p : Place}
    (hw : offset < 0x4000) (hops : s.host.ops = .bus dir (Config.codecBase + offset) width v :: more)
    (hp : legalPlace offset width = some p) :
    (hostTurn s).fault = s.fault ∨ (hostTurn s).fault = some (.hostHazard offset) := by
  cases dir with
  | read =>
    left
    simp [hostTurn, hops, runOp, busTurn, windowOffset_base hw, observedRead, hostRead_of_place hp]
  | write =>
    cases hb : busyBit s.status with
    | true =>
      right
      simp [hostTurn, hops, runOp, busTurn, windowOffset_base hw, hostWrite_of_busy hp hb]
    | false =>
      left
      simp [hostTurn, hops, runOp, busTurn, windowOffset_base hw, hostWrite_of_place hp hb, poke_fault]

/-- The host's turn, whether a command is in progress or not. -/
theorem step_of_turn (hf : s.fault = none) (h : busyBit s.status = true → s.turns ≠ 0) :
    ∃ n, step s = .next (hostTurn { s with turns := n }) := by
  cases hb : busyBit s.status with
  | true => exact ⟨_, step_of_pending hf hb (h hb)⟩
  | false => exact ⟨s.turns, step_of_idle hf hb⟩

/-! ## Words in flux -/

/-- A command's row names what it may be writing, and never STATUS nor a word of TXT_IN (R44, R281). -/
theorem mem_resultRegs_of_writesOnSuccess {i : Instr} {r : RegName} (h : writesOnSuccess i (.reg r) = true) :
    r ∈ resultRegs i ∧ r ≠ .status := by
  suffices row : ∀ q ∈ allRegs, writesOnSuccess i (.reg q) = true → q ∈ resultRegs i ∧ q ≠ .status from
    row r (mem_allRegs r) h
  clear h
  cases i with
  | fromstr | mul64 | div1e9 | ltu64 | decode | tostr => decide
  | encFin sgn | encInf sgn | encNan sgn => revert sgn; decide

theorem writesOnSuccess_txtIn (i : Instr) (k : Nat) : writesOnSuccess i (.txtIn k) = false := by cases i <;> rfl

theorem writesOnSuccess_txtOut {i : Instr} (h : i ≠ .tostr) (k : Nat) : writesOnSuccess i (.txtOut k) = false := by
  cases i <;> first | rfl | exact absurd rfl h

/-- A word no command decoded from CMD writes is not in flux. -/
theorem inFlux_eq_false {p : Place} (h : ∀ i, decode s.cmd = .ok i → writesOnSuccess i p = false) :
    s.inFlux p = false := by
  rw [State.inFlux, fetchCommand]
  cases hd : decode s.cmd with
  | ok i => simp [h i hd]
  | error e => simp

theorem inFlux_reg_eq_false {r : RegName}
    (h : r = .status ∨ (∃ i, decode s.cmd = .ok i ∧ r ∉ resultRegs i) ∨ ∃ e, decode s.cmd = .error e) :
    s.inFlux (.reg r) = false := by
  refine inFlux_eq_false fun i hi => Bool.eq_false_iff.mpr fun hw => ?_
  obtain ⟨hmem, hne⟩ := mem_resultRegs_of_writesOnSuccess hw
  obtain rfl | ⟨j, hj, hnot⟩ | ⟨e, he⟩ := h
  · exact hne rfl
  · rw [hi] at hj
    cases hj
    exact hnot hmem
  · rw [hi] at he
    cases he

/-- Reading a legal word that is not in flux answers what it holds (R281). -/
theorem hostRead_of_stable {offset width : Nat} {p : Place} (hp : legalPlace offset width = some p)
    (h : s.inFlux p = false) : hostRead s offset width = .ok (s.held p, s.afterRead) := by
  rw [hostRead_of_place hp, peek_of_not_inFlux h]

/-- Four written bytes, packed (R61). -/
theorem bufferWord_of_bytes {offset : Nat} {b0 b1 b2 b3 : Byte} (h0 : s.mem.read offset = some b0)
    (h1 : s.mem.read (offset + 1) = some b1) (h2 : s.mem.read (offset + 2) = some b2)
    (h3 : s.mem.read (offset + 3) = some b3) : s.bufferWord offset = b3 ++ b2 ++ b1 ++ b0 := by
  simp [State.bufferWord, packBytes, h0, h1, h2, h3]

/-! ## The bytes of X (R62) -/

/-- Byte `k` of a 128-bit value is byte `k % 4` of its word `k / 4`. -/
theorem extractLsb'_quadWord (v : QWord) (k : Nat) :
    (quadWord v (k / 4)).extractLsb' (8 * (k % 4)) 8 = v.extractLsb' (8 * k) 8 := by
  apply BitVec.eq_of_getLsbD_eq
  intro i hi
  simp only [quadWord, BitVec.getLsbD_extractLsb', hi, decide_true, Bool.true_and,
    show 8 * (k % 4) + i < 32 by omega, show 32 * (k / 4) + (8 * (k % 4) + i) = 8 * k + i by omega]

/-- The words of four words joined, most significant first (R22). -/
theorem quadWord_quad (a b c d : Word) :
    quadWord (a ++ b ++ c ++ d) 3 = a ∧ quadWord (a ++ b ++ c ++ d) 2 = b ∧ quadWord (a ++ b ++ c ++ d) 1 = c ∧
      quadWord (a ++ b ++ c ++ d) 0 = d := by
  simp only [← BitVec.toNat_inj]
  apply words_eq_of_sum_eq b.isLt c.isLt d.isLt
  rw [← quad_toNat, ← quad_toNat, quadWord_join]

/-- The registers of X are its words, at rising offsets (R22, R23). -/
theorem exists_xWord (s : State) {j : Nat} (hj : j < 4) :
    ∃ r : RegName, r.offset = 0x020 + 4 * j ∧ s.reg r = quadWord s.x j := by
  obtain ⟨h3, h2, h1, h0⟩ := quadWord_quad s.x3 s.x2 s.x1 s.x0
  obtain rfl | rfl | rfl | rfl : j = 0 ∨ j = 1 ∨ j = 2 ∨ j = 3 := by omega
  · exact ⟨.x0, rfl, h0.symm⟩
  · exact ⟨.x1, rfl, h1.symm⟩
  · exact ⟨.x2, rfl, h2.symm⟩
  · exact ⟨.x3, rfl, h3.symm⟩

/-! ## Polling (R115) -/

/-- A turn of polling reads BUSY, which is never in flux. -/
theorem hostTurn_poll {more : List HostOp} (hops : s.host.ops = .poll :: more) :
    hostTurn s = s.afterRead.withOps (if busyBit s.status then .poll :: more else more) := by
  have read : hostRead s RegName.status.offset 32 = .ok (s.status, s.afterRead) :=
    hostRead_of_stable (legalPlace_reg .status) (inFlux_reg_eq_false (.inl rfl))
  simp [hostTurn, hops, runOp, read]

end

/-! ## The statements -/

/-- Settles O6: the write of CMD is the acceptance of the word. -/
theorem commandAcceptance : Obligations.CommandAcceptance := by
  intro s w hb
  refine ⟨s.accept w, hostWrite_of_place (legalPlace_reg .cmd) hb, rfl, statusAccepted_eq, fun r hc hs => ?_,
    fun _ => rfl, rfl, rfl⟩
  cases r <;> first | rfl | exact absurd rfl hc | exact absurd rfl hs

/-- Settles O9: the access has a place or it has none. -/
theorem illegalAccessIsBusError : Obligations.IllegalAccessIsBusError := by
  intro s dir offset width v more hw hf hturn hops
  obtain ⟨n, hstep⟩ := step_of_turn hf hturn
  refine ⟨_, hstep, ?_⟩
  rw [← legalPlace_eq_none_iff hw]
  cases hp : legalPlace offset width with
  | none => simp [hostTurn_bus_illegal (s := { s with turns := n }) hw hops hp]
  | some p =>
    have legal := hostTurn_bus_legal (s := { s with turns := n }) hw hops hp
    refine iff_of_false (fun h => ?_) (by simp)
    rw [h] at legal
    simp [hf] at legal

/-- Settles O10: the turn marks the hazard and does nothing else to the block. -/
theorem writeWhileBusyIsHazard : Obligations.WriteWhileBusyIsHazard := by
  intro s offset v more hw hlegal hf hb ht hops
  obtain ⟨p, hp⟩ := exists_place hw hlegal
  have hazard : hostTurnBusy s = State.mark { s with turns := s.turns - 1 } (.hostHazard offset) := by
    have write := hostWrite_of_busy (s := { s with turns := s.turns - 1 }) (v := v) hp hb
    simp only [hostTurnBusy, hostTurn, hops, runOp, write]
  refine ⟨_, step_of_pending hf hb ht, ?_⟩
  rw [hazard]
  exact ⟨rfl, fun r => by cases r <;> rfl, fun _ => rfl⟩

/-- Settles O11: the word is an RO register or of TXT_OUT, by its offset. -/
theorem readOnlyWritesAreIgnored : Obligations.ReadOnlyWritesAreIgnored := by
  intro s offset v hb h4 h
  obtain ⟨p, hp⟩ := exists_place (offset := offset) (width := 32) (by omega) (by unfold IllegalAccess Unmapped; omega)
  rw [hostWrite_of_place hp hb, poke_of_readOnly hp h]

/-- Settles O14: the byte of the word read is the byte of X. -/
theorem interchangeBytesInOrder : Obligations.InterchangeBytesInOrder := by
  intro s k hb hk
  obtain ⟨r, hoffset, hword⟩ := exists_xWord s (j := k / 4) (by omega)
  refine ⟨s.reg r, ?_, ?_⟩
  · rw [← hoffset]
    exact hostRead_of_idle (legalPlace_reg r) hb
  · rw [hword, extractLsb'_quadWord]

/-- Settles O15: the words that the command in progress does not write are not in flux. -/
theorem readsWhileBusyOfStableState : Obligations.ReadsWhileBusyOfStableState := by
  intro s _
  refine ⟨fun offset hw hlegal => ?_, fun r hr => ?_, fun m b0 b1 b2 b3 hm h0 h1 h2 h3 => ?_,
    fun hcmd m b0 b1 b2 b3 hm h0 h1 h2 h3 => ?_⟩
  · obtain ⟨p, hp⟩ := exists_place hw hlegal
    exact ⟨_, _, hostRead_of_place hp⟩
  · exact ⟨_, hostRead_of_stable (legalPlace_reg r) (inFlux_reg_eq_false hr)⟩
  · refine ⟨s.afterRead, ?_⟩
    rw [hostRead_of_stable (legalPlace_txtIn hm) (inFlux_eq_false fun i _ => writesOnSuccess_txtIn i _), State.held,
      bufferWord_of_bytes h0 h1 h2 h3]
  · refine ⟨s.afterRead, ?_⟩
    have stable : s.inFlux (.txtOut (4 * m)) = false :=
      inFlux_eq_false fun i hi => writesOnSuccess_txtOut (fun h => hcmd (h ▸ hi)) _
    rw [hostRead_of_stable (legalPlace_txtOut hm) stable, State.held, bufferWord_of_bytes h0 h1 h2 h3]

/-- Settles O16: the turn reads BUSY and goes on or polls again. -/
theorem waitPollsUntilIdle : Obligations.WaitPollsUntilIdle := by
  intro s more hops
  refine ⟨fun hb => ?_, fun hb => ?_⟩ <;> rw [hostTurn_poll hops, hb]
  · rw [afterRead_idle s hb]; rfl
  · rw [afterRead_busy s hb, if_pos rfl, ← hops]; rfl

end Sys2Proof.Machine

/-! R115: the statements `wrtext`, `mov128` and `bnz128` on an idle block, as runs of the host's turns. Each run of like
accesses is followed by induction on its length. -/

namespace Sys2Proof.Machine

section
variable {s : State}

/-! ## Turns on an idle block -/

/-- The state with another host agent. -/
def State.withHost (s : State) (host : HostAgent) : State := { s with host := host }

@[simp] theorem withHost_reg (host : HostAgent) (r : RegName) : (s.withHost host).reg r = s.reg r := by
  cases r <;> rfl

theorem withHost_regs (host : HostAgent) : (s.withHost host).reg = s.reg := funext (withHost_reg host)

/-- The host begins the statement at the head of its program. -/
theorem hostTurn_begin {stmt : HostStmt} {rest : List HostStmt} (hops : s.host.ops = [])
    (hrest : s.host.rest = stmt :: rest) :
    hostTurn s = s.withHost { s.host with rest := rest, ops := stmt.expand } := by
  simp [hostTurn, beginStatement, hops, hrest, State.withHost]

theorem hostTurn_write_idle {offset : Nat} {p : Place} {v : Word} {more : List HostOp} (hb : busyBit s.status = false)
    (hp : legalPlace offset 32 = some p) (hops : s.host.ops = .write offset v :: more) :
    hostTurn s = (s.poke p v).withOps more := by
  simp [hostTurn, hops, runOp, hostWrite_of_place hp hb]

theorem hostTurn_readPrivate_idle {r : RegName} {more : List HostOp} (hb : busyBit s.status = false)
    (hops : s.host.ops = .readPrivate r.offset :: more) :
    hostTurn s = s.withHost { s.host with ops := more, got := s.host.got ++ [s.reg r] } := by
  simp [hostTurn, hops, runOp, hostRead_of_idle (legalPlace_reg r) hb, State.held, State.keep, State.withOps,
    State.withHost]

theorem hostTurn_writePrivate_idle {r : RegName} {v : Word} {vs : List Word} {more : List HostOp}
    (hb : busyBit s.status = false) (hgot : s.host.got = v :: vs)
    (hops : s.host.ops = .writePrivate r.offset :: more) :
    hostTurn s = (s.writeReg r v).withHost { s.host with ops := more, got := vs } := by
  have host : (s.writeReg r v).host = s.host := by cases r <;> rfl
  simp [hostTurn, hops, runOp, hostWrite_of_place (legalPlace_reg r) hb, State.poke, State.dropKept, State.withOps,
    State.withHost, host, hgot]

theorem hostTurn_branchNonzero {l : Nat} {more : List HostOp} (hops : s.host.ops = .branchNonzero l :: more) :
    hostTurn s = (s.withOps more).branch l := by
  simp [hostTurn, hops, runOp]

/-! ## Runs of unobserved accesses -/

/-- Unobserved reads of registers keep their values in order. -/
theorem iterate_readPrivate (rs : List RegName) {more : List HostOp} (hb : busyBit s.status = false)
    (hops : s.host.ops = rs.map (fun r => .readPrivate r.offset) ++ more) :
    hostTurn^[rs.length] s = s.withHost { s.host with ops := more, got := s.host.got ++ rs.map s.reg } := by
  induction rs generalizing s with
  | nil =>
    rw [List.map_nil, List.nil_append] at hops
    rw [List.length_nil, Function.iterate_zero_apply, State.withHost, List.map_nil, List.append_nil, ← hops]
  | cons r rs ih =>
    have kept : s.host.got ++ (r :: rs).map s.reg = s.host.got ++ [s.reg r] ++ rs.map s.reg := by simp
    rw [List.length_cons, Function.iterate_succ_apply, hostTurn_readPrivate_idle hb hops, kept]
    have others := ih (s := s.withHost { s.host with
      ops := rs.map (fun r => .readPrivate r.offset) ++ more, got := s.host.got ++ [s.reg r] }) hb rfl
    rw [withHost_regs] at others
    exact others

/-- Registers written one after the other. -/
def State.writeRegs (s : State) : List (RegName × Word) → State
  | [] => s
  | (r, v) :: ps => (s.writeReg r v).writeRegs ps

/-- The block's writes do not see the host agent. -/
theorem writeRegs_withHost (host : HostAgent) (ps : List (RegName × Word)) :
    (s.withHost host).writeRegs ps = (s.writeRegs ps).withHost host := by
  induction ps generalizing s with
  | nil => rfl
  | cons p ps ih =>
    have first : (s.withHost host).writeReg p.1 p.2 = (s.writeReg p.1 p.2).withHost host := by
      cases p.1 <;> rfl
    rw [State.writeRegs, State.writeRegs, first, ih]

/-- Writes of kept values to registers other than CMD take them oldest first. -/
theorem iterate_writePrivate (ps : List (RegName × Word)) {more : List HostOp} (hcmd : ∀ p ∈ ps, p.1 ≠ .cmd)
    (hb : busyBit s.status = false) (hgot : s.host.got = ps.map Prod.snd)
    (hops : s.host.ops = ps.map (fun p => .writePrivate p.1.offset) ++ more) :
    hostTurn^[ps.length] s = (s.writeRegs ps).withHost { s.host with ops := more, got := [] } := by
  induction ps generalizing s with
  | nil =>
    rw [List.map_nil, List.nil_append] at hops
    rw [List.map_nil] at hgot
    rw [List.length_nil, Function.iterate_zero_apply, State.withHost, State.writeRegs, ← hops, ← hgot]
  | cons p ps ih =>
    obtain ⟨hne, hcmd'⟩ := List.forall_mem_cons.mp hcmd
    obtain ⟨-, -, -, -, -, hstatus⟩ := writeReg_frame (s := s) hne p.2
    have idle : busyBit (s.writeReg p.1 p.2).status = false := by rw [hstatus, hb]
    rw [List.length_cons, Function.iterate_succ_apply, hostTurn_writePrivate_idle hb hgot hops]
    have others := ih (s := (s.writeReg p.1 p.2).withHost { s.host with
      ops := ps.map (fun p => .writePrivate p.1.offset) ++ more, got := ps.map Prod.snd }) hcmd' idle rfl rfl
    rw [writeRegs_withHost] at others
    exact others

/-- The words of a 128-bit value, written to the four registers of X. -/
theorem writeRegs_x (s u : State) :
    s.writeRegs [(.x0, u.y0), (.x1, u.y1), (.x2, u.y2), (.x3, u.y3)] = s.setX u.y := by
  obtain ⟨h3, h2, h1, h0⟩ := quadWord_quad u.y3 u.y2 u.y1 u.y0
  rw [State.setX, State.y, h3, h2, h1, h0]
  rfl

/-- The five turns that begin `mov128` and `bnz128`: the start of the statement and the reads of Y. -/
theorem iterate_readY {stmt : HostStmt} {rest : List HostStmt} {more : List HostOp} (hb : busyBit s.status = false)
    (hops : s.host.ops = []) (hgot : s.host.got = []) (hrest : s.host.rest = stmt :: rest)
    (hexpand : stmt.expand = QuadName.y.words.map (fun n => .readPrivate n.offset) ++ more) :
    hostTurn^[5] s =
      s.withHost { s.host with rest := rest, ops := more, got := [s.y0, s.y1, s.y2, s.y3] } := by
  rw [Function.iterate_succ_apply, hostTurn_begin hops hrest, hexpand]
  have reads := iterate_readPrivate (s := s.withHost { s.host with
    rest := rest, ops := QuadName.y.words.map (fun n => .readPrivate n.offset) ++ more }) QuadName.y.words hb rfl
  rw [withHost_regs] at reads
  refine reads.trans ?_
  change s.withHost { s.host with rest := rest, ops := more, got := s.host.got ++ [s.y0, s.y1, s.y2, s.y3] } = _
  rw [hgot]
  rfl

/-! ## `bnz128` -/

/-- A word of Y is not 0 exactly when Y is not. -/
theorem any_yWord_ne_zero_iff : [s.y0, s.y1, s.y2, s.y3].any (· != 0) = true ↔ s.y ≠ 0 := by
  have number := y_toNat s
  have zero : ∀ w : Word, w = 0 ↔ w.toNat = 0 := fun w => (BitVec.toNat_inj (y := 0)).symm
  have whole : s.y = 0 ↔ s.y.toNat = 0 := (BitVec.toNat_inj (y := 0)).symm
  simp only [List.any_cons, List.any_nil, Bool.or_false, Bool.or_eq_true, bne_iff_ne, ne_eq, whole, zero]
  omega

/-! ## `wrtext` -/

/-- Byte `j` of four bytes packed (R61). -/
theorem unpackByte_packBytes (b : Nat → Byte) {j : Nat} (hj : j < 4) : unpackByte (packBytes b) j = b j := by
  apply BitVec.eq_of_getLsbD_eq
  intro i hi
  simp only [unpackByte, packBytes, BitVec.getLsbD_extractLsb', BitVec.getLsbD_append, hi, decide_true, Bool.true_and]
  obtain rfl | rfl | rfl | rfl : j = 0 ∨ j = 1 ∨ j = 2 ∨ j = 3 := by omega
  · simp [hi]
  · simp [hi]
  · simp [hi, show ¬ 16 + i < 8 by omega, show 16 + i - 8 = 8 + i by omega]
  · simp [hi, show ¬ 24 + i < 8 by omega, show 24 + i - 8 = 16 + i by omega, show ¬ 16 + i < 8 by omega,
      show 16 + i - 8 = 8 + i by omega]

/-- The word at `m` of a text packs the text's bytes `4m` to `4m + 3`. -/
theorem unpackByte_textWord (text : List Byte) (m : Nat) {j : Nat} (hj : j < 4) :
    unpackByte (textWord text m) j = text.getD (4 * m + j) 0 :=
  unpackByte_packBytes _ hj

/-- The first `n` words of the text stand in TXT_IN. -/
def State.HasWords (s : State) (text : List Byte) (n : Nat) : Prop :=
  ∀ k, k < 4 * n → s.inputByte k = some (text.getD k 0)

/-- Writing the next word of the text. -/
theorem hasWords_succ {text : List Byte} {n : Nat} (h : s.HasWords text n) :
    (s.poke (.txtIn (4 * n)) (textWord text n)).HasWords text (n + 1) := by
  intro k hk
  by_cases hlast : 4 * n ≤ k
  · obtain ⟨j, rfl⟩ := Nat.exists_eq_add_of_le hlast
    rw [poke_txtIn_inputByte _ _ (by omega), unpackByte_textWord text n (by omega)]
  · rw [State.inputByte, Config.txtInBase, poke_txtIn_read, if_neg (by omega)]
    exact h k (by omega)

/-- The state after the first `n` word writes of `wrtext`. -/
structure WroteWords (s t : State) (text : List Byte) (n : Nat) (more : List HostOp) : Prop where
  words : t.HasWords text n
  regs : ∀ r, t.reg r = s.reg r
  fault : t.fault = s.fault
  host : t.host = { s.host with ops := more }

/-- The word writes of `wrtext`, by induction on their number. -/
theorem iterate_writeWords (text : List Byte) {n : Nat} (hn : n ≤ 1750) {more : List HostOp}
    (hb : busyBit s.status = false)
    (hops : s.host.ops =
      (List.range n).map (fun m => .write (Config.txtInBase + 4 * m) (textWord text m)) ++ more) :
    WroteWords s (hostTurn^[n] s) text n more := by
  induction n generalizing more with
  | zero => exact ⟨fun k hk => absurd hk (by omega), fun _ => rfl, rfl, by rw [show more = s.host.ops from hops.symm]; rfl⟩
  | succ n ih =>
    rw [List.range_succ, List.map_append, List.append_assoc] at hops
    obtain ⟨words, regs, fault, host⟩ := ih (by omega) hops
    have status : (hostTurn^[n] s).status = s.status := regs .status
    have turn := hostTurn_write_idle (s := hostTurn^[n] s) (by rw [status, hb])
      (legalPlace_txtIn (m := n) (by omega)) (by rw [host]; rfl)
    rw [Function.iterate_succ_apply', turn]
    refine ⟨hasWords_succ words, fun r => ?_, ?_, ?_⟩
    · rw [withOps_reg, poke_txtIn_reg, regs]
    · rw [withOps_fault, poke_fault, fault]
    · exact congrArg (fun h : HostAgent => { h with ops := more }) host

end

/-! ## The statements -/

/-- Settles O17: the start of the statement, the words of the text, and its length. -/
theorem writeTextPlacesTheText : Obligations.WriteTextPlacesTheText := by
  intro s text rest hb hlen hops hrest
  have begun := hostTurn_begin hops hrest
  obtain ⟨words, regs, fault, host⟩ := iterate_writeWords (s := hostTurn s) text
    (n := (text.length + 3) / 4) (more := [.write RegName.txtLen.offset (BitVec.ofNat 32 text.length)]) (by omega)
    (by rw [begun]; exact hb) (by rw [begun]; rfl)
  generalize ht : hostTurn^[(text.length + 3) / 4] (hostTurn s) = t at words regs fault host
  have regs' : ∀ r, t.reg r = s.reg r := fun r => by rw [regs, begun, withHost_reg]
  have status : t.status = s.status := regs' .status
  have last := hostTurn_write_idle (s := t) (by rw [status, hb]) (legalPlace_reg .txtLen) (by rw [host])
  refine ⟨(text.length + 3) / 4 + 1 + 1, ?_⟩
  rw [Function.iterate_succ_apply, Function.iterate_succ_apply', ht, last]
  refine ⟨⟨?_, fun k hk => ?_⟩, rfl, ?_, fun r hr => ?_, ?_⟩
  · change (BitVec.ofNat 32 text.length).toNat = text.length
    rw [BitVec.toNat_ofNat]
    omega
  · refine (words k (by omega)).trans ?_
    rw [List.getD_eq_getElem _ _ hk, List.getElem?_eq_getElem hk]
  · change t.host.rest = rest
    rw [host, begun]
    rfl
  · rw [withOps_reg, State.poke, writeReg_reg rfl (by decide), if_neg hr, regs']
  · rw [withOps_fault, poke_fault, fault, begun]
    rfl

/-- Settles O18: four reads of Y keep its words, four writes put them into X. -/
theorem moveCopiesResultToOperand : Obligations.MoveCopiesResultToOperand := by
  intro s rest hb hops hgot hrest
  have reads := iterate_readY hb hops hgot hrest rfl
  have moved : hostTurn^[9] s = (s.setX s.y).withHost { s.host with rest := rest } := by
    rw [show 9 = 4 + 5 from rfl, Function.iterate_add_apply, reads]
    have writes := iterate_writePrivate (s := s.withHost { s.host with
      rest := rest, ops := QuadName.x.words.map (fun n => .writePrivate n.offset), got := [s.y0, s.y1, s.y2, s.y3] })
      [(.x0, s.y0), (.x1, s.y1), (.x2, s.y2), (.x3, s.y3)] (more := []) (by simp) hb rfl rfl
    rw [writeRegs_withHost, writeRegs_x] at writes
    refine writes.trans ?_
    rw [← hops, ← hgot]
    rfl
  rw [moved]
  refine ⟨setX_x s s.y, fun r hr => ?_, rfl, rfl⟩
  rw [withHost_reg]
  cases r <;> first | rfl | exact absurd (by decide) hr

/-- Settles O19: the four words of Y are kept, and any of them not 0 takes the branch. -/
theorem branchIfResultNonzero : Obligations.BranchIfResultNonzero := by
  intro s l rest hb hops hgot hrest
  have reads := iterate_readY hb hops hgot hrest rfl
  have branched := hostTurn_branchNonzero (s := hostTurn^[5] s) (by rw [reads]; rfl)
  rw [Function.iterate_succ_apply', branched, reads]
  refine ⟨?_, fun r => ?_, rfl⟩
  · change ({ s.host with
      rest := if [s.y0, s.y1, s.y2, s.y3].any (· != 0) = true then fromLabel l s.host.program else rest,
      ops := [], got := [] } : HostAgent) = _
    simp only [any_yWord_ne_zero_iff, ite_not]
    rw [← hops, ← hgot]
  · rw [branch_reg, withOps_reg, withHost_reg]

end Sys2Proof.Machine

/-! R175, R177, R190 to R198: DIV1E9 issued again on its quotient, ENC.FIN by its range checks, and DECODE of what ENC.FIN
wrote. -/

namespace Sys2Proof.Machine

/-- Settles O28: four divisions by 10^9 are one by their product. -/
theorem fourDivisionsDivideByTenTo36 : Obligations.FourDivisionsDivideByTenTo36 := by
  intro s1 s2 s3 s4 t1 t2 t3 t4 h1 e2 h2 e3 h3 e4 h4
  have quotient : t4.y.toNat = s1.x.toNat / 10 ^ 36 := by
    rw [y_toNat_of_exec_div1e9 h4, e4, y_toNat_of_exec_div1e9 h3, e3, y_toNat_of_exec_div1e9 h2, e2,
      y_toNat_of_exec_div1e9 h1, Nat.div_div_eq_div_mul, Nat.div_div_eq_div_mul, Nat.div_div_eq_div_mul]
    norm_num
  have zero : t4.y = 0 ↔ t4.y.toNat = 0 := (BitVec.toNat_inj (y := 0)).symm
  refine ⟨quotient, ?_⟩
  rw [zero, quotient, Nat.div_eq_zero_iff]
  simp

/-- Settles O30: the fields of the word packed, at the clamped exponent. -/
theorem encFinPacksTheValue : Obligations.EncFinPacksTheValue := by
  intro s sgn c e hc he
  have clamp := clampExponent_eq e
  have low : -6176 ≤ clampExponent e := by omega
  have high : clampExponent e ≤ 6111 := by omega
  refine ⟨_, execEncFin_ok rfl hc he, ?_, ?_, ?_, succeeded_completeX s _, sameBut_completeX s _⟩
  all_goals rw [complete_x, setX_x]
  · exact packFinite_sign sgn c _
  · exact (packFinite_exponent sgn c low high).trans (by rw [clamp])
  · exact packFinite_coefficient sgn _ hc

/-- Settles O31. -/
theorem encFinRangeErrors : Obligations.EncFinRangeErrors := by
  intro s sgn c e h
  rw [execEncFin_range rfl h, raiseError_eq]
  rfl

/-- What DECODE reports of a word that packs a value in range (R198, third law). -/
theorem decode_of_packFinite {u v : State} {sgn : Bool} {c : Nat} {e : Int} (hc : c ≤ 10 ^ 34 - 1) (h1 : -6176 ≤ e)
    (h2 : e ≤ 6111) (hx : u.x = packFinite sgn c e) (h : exec .decode u = .next v) :
    v.decInfo.getLsbD 0 = sgn ∧ v.decInfo.extractLsb' 1 2 = 0 ∧ v.decExp = BitVec.ofInt 32 e ∧ v.y.toNat = c := by
  have fields := unpack_packFinite (neg := sgn) hc h1 h2
  rw [← hx] at fields
  rw [exec_decode] at h
  cases h
  simp only [complete_decInfo, complete_decExp, complete_y, setY_decInfo, setY_decExp, setY_y, setDecoded_decInfo,
    setDecoded_decExp]
  obtain ⟨sign, cls, -⟩ := decInfo_fields (unpack u.x)
  rw [fields] at sign cls ⊢
  refine ⟨sign, cls, rfl, ?_⟩
  simp only [coefficientWord, BitVec.toNat_ofNat]
  omega

/-- Settles O34: ENC.FIN packs the operands as they are, and DECODE reports the fields packed. -/
theorem decodeInvertsEncFin : Obligations.DecodeInvertsEncFin := by
  intro s t u v sgn c hc h1 h2 henc hux hdec
  rw [execEncFin_ok rfl hc (.inr ⟨h1, h2⟩), clampExponent_of_mem h1 h2] at henc
  cases henc
  rw [complete_x, setX_x] at hux
  have report := decode_of_packFinite hc h1 h2 hux hdec
  rwa [BitVec.ofInt_toInt] at report

end Sys2Proof.Machine

/-! R223 to R231, R271: the texts TOSTR writes. `dec` is the digit string of base 10, so that it splits at any power of ten;
`Format` is `FormattedAs`, form by form. -/

namespace Sys2Proof.Machine

/-! ## `dec` (R223) -/

/-- The division loop puts out Mathlib's digits, most significant first. -/
theorem digitsInto_eq_digits (f : Nat) {n : Nat} (acc : List Nat) (h0 : n ≠ 0) (h : n < 2 ^ f) :
    digitsInto f n acc = (Nat.digits 10 n).reverse ++ acc := by
  induction f generalizing n acc with
  | zero => exact absurd h (by omega)
  | succ f ih =>
    rw [digitsInto]
    split
    · next hlt => rw [Nat.digits_of_lt 10 n h0 hlt]; rfl
    · next hge =>
      rw [ih _ (by omega) (by rw [pow_succ] at h; omega), Nat.digits_def' (by decide : 1 < 10) (show 0 < n by omega)]
      simp

theorem decDigits_eq_digits {n : Nat} (h : n ≠ 0) : decDigits n = (Nat.digits 10 n).reverse := by
  rw [decDigits, digitsInto_eq_digits _ _ h Nat.lt_log2_self, List.append_nil]

/-- A number below `10^k`, padded with zeros to `k` digits. -/
def paddedDigits (k n : Nat) : List Nat := List.replicate (k - (decDigits n).length) 0 ++ decDigits n

theorem paddedDigits_eq_digits {k n : Nat} (hk : 0 < k) (h : n < 10 ^ k) :
    paddedDigits k n = (Nat.digits 10 n ++ List.replicate (k - (Nat.digits 10 n).length) 0).reverse := by
  rw [paddedDigits, List.reverse_append, List.reverse_replicate]
  by_cases h0 : n = 0
  · subst h0
    obtain ⟨j, rfl⟩ := Nat.exists_eq_succ_of_ne_zero hk.ne'
    rw [show decDigits 0 = [0] from rfl]
    simp [List.replicate_succ']
  · rw [decDigits_eq_digits h0, List.length_reverse]

/-- The digits of `m * 10^k + r` are those of `m`, then those of `r` padded to `k` digits. -/
theorem decDigits_mul_add {m k r : Nat} (hm : 0 < m) (hk : 0 < k) (hr : r < 10 ^ k) :
    decDigits (m * 10 ^ k + r) = decDigits m ++ paddedDigits k r := by
  have short : (Nat.digits 10 r).length ≤ k := (Nat.digits_length_le_iff (by decide) r).mpr hr
  have split := Nat.digits_append_zeroes_append_digits (b := 10) (k := k - (Nat.digits 10 r).length) (n := r)
    (by decide) hm
  rw [Nat.add_sub_cancel' short] at split
  have pos : 0 < m * 10 ^ k := Nat.mul_pos hm (by positivity)
  rw [decDigits_eq_digits (by omega), decDigits_eq_digits hm.ne', paddedDigits_eq_digits hk hr, ← List.reverse_append,
    split, Nat.add_comm, Nat.mul_comm]

/-- Settles O40: a number of 10^9 or more is its quotient by 10^9, nonzero, and its remainder. -/
theorem digitsByBillions : Obligations.DigitsByBillions := by
  intro n hn
  have split := decDigits_mul_add (m := n / 1000000000) (k := 9) (r := n % 1000000000) (by omega) (by decide)
    (Nat.mod_lt _ (by decide))
  rw [show (10 : Nat) ^ 9 = 1000000000 from rfl, Nat.div_add_mod'] at split
  rw [List.append_assoc]
  exact split

/-! ## `Format` (R224 to R227) -/

theorem digitText_take (k : Nat) (ds : List Nat) : (digitText ds).take k = digitText (ds.take k) :=
  (List.map_take ..).symm

theorem digitText_drop (k : Nat) (ds : List Nat) : (digitText ds).drop k = digitText (ds.drop k) :=
  (List.map_drop ..).symm

/-- The text rendered is the text of the rules, form by form. -/
theorem formattedAs_formatFinite (c : Nat) (e : Int) : FormattedAs c e (formatFinite c e) := by
  refine ⟨digitText (decDigits c), decimalText_decDigits c, ?_⟩
  simp only [digitText_length, digitText_take, digitText_drop, formatFinite]
  by_cases hsci : 34 ≤ ((decDigits c).length : Int) - 1 + e ∨ ((decDigits c).length : Int) - 1 + e ≤ -7 ∨ 0 < e
  · rw [if_pos hsci, if_pos ((isScientific_iff _ _).mpr hsci)]
    exact ⟨_, decimalText_decDigits _, rfl⟩
  · rw [if_neg hsci, if_neg (mt (isScientific_iff _ _).mp hsci)]
    by_cases he : e = 0
    · rw [if_pos he, if_pos he]
    · rw [if_neg he, if_neg he, pointText]
      split
      · rfl
      · rfl

/-! ## TOSTR (R220, R222, R229 to R231) -/

/-- The sign of a rendered text. -/
theorem signText_unpack (w : QWord) : signText (unpack w).sign = if w.getLsbD 127 then [0x2D] else [] := by
  rw [unpack_sign]
  rfl

/-- Settles O38: the text rendered is the class's, and `WriteOut` of it completes the command. -/
theorem tostrWritesTheText : Obligations.TostrWritesTheText := by
  intro s hcls
  obtain ⟨text, hrender, hpos, hle⟩ := render_some hcls
  obtain ⟨regs, bytes, -, fault, host, -⟩ := keepsFrame_writeOut s text
  refine ⟨_, text, execTostr_some hrender, hrender, ?_, hpos, hle, showsText_writeOut s (by omega),
    succeeded_complete rfl, fun r hstatus hlen => regs r (by simp [resultRegs, hstatus, hlen]), fun k => ?_, fault, host⟩
  · rw [← signText_unpack]
    cases hc : (unpack s.x).cls with
    | finite =>
      cases (render_of_finite hc).symm.trans hrender
      exact ⟨_, rfl, formattedAs_formatFinite _ _⟩
    | inf | nan =>
      rw [render, hc] at hrender
      cases hrender
      rfl
    | noncanon => exact absurd hc hcls
  · exact bytes _ (.inr (by simp only [Config.txtInBase]; omega))

/-- Settles O41: the rules' own examples, evaluated. -/
theorem formatExamples : Obligations.FormatExamples := by
  unfold Obligations.FormatExamples
  decide +kernel

/-- Settles O22: at reset X is the word 0, of coefficient 0 and exponent -6176. -/
theorem resetWordIsZero : Obligations.ResetWordIsZero := by
  have text : render (unpack State.reset.x) = some [0x30, 0x45, 0x2D, 0x36, 0x31, 0x37, 0x36] := by decide +kernel
  refine ⟨⟨_, exec_decode _, ?_, ?_⟩, _, execTostr_some text, showsText_writeOut _ (by decide)⟩
  · decide +kernel
  · rw [complete_y, setY_y]
    decide +kernel

end Sys2Proof.Machine

/-! R120 to R128, R272: FROMSTR's texts. The grammar of R123 and the checks of R124 are restated in the parser's terms; a text
is cut into sign, longest run of digits and radix points, and rest, and each part is scanned by itself. -/

namespace Sys2Proof.Machine

/-! ## The bytes of the rules and of the parser -/

theorem digitByte_iff {b : Byte} : DigitByte b ↔ isDigit b = true := by
  rw [isDigit, decide_eq_true_eq]
  rfl

theorem markerByte_iff {b : Byte} : MarkerByte b ↔ isMarker b = true := by
  simp [MarkerByte, isMarker, byteE, byteSmallE]

theorem signByte_iff {b : Byte} : SignByte b ↔ isSign b = true := by
  simp [SignByte, isSign, bytePlus, byteMinus]

theorem not_ledBy_iff {p : Byte → Prop} {t : List Byte} : ¬ LedBy p t ↔ ∀ b ∈ t.head?, ¬ p b := by
  cases t with
  | nil => simp [LedBy]
  | cons b t => simp [LedBy]

theorem not_ledBy_digit_iff {t : List Byte} : ¬ LedBy DigitByte t ↔ NoDigit t := by
  simp only [not_ledBy_iff, digitByte_iff, Bool.not_eq_true, NoDigit]

theorem not_ledBy_marker_iff {t : List Byte} : ¬ LedBy MarkerByte t ↔ ∀ b ∈ t.head?, isMarker b = false := by
  simp only [not_ledBy_iff, markerByte_iff, Bool.not_eq_true]

theorem not_ledBy_sign_iff {t : List Byte} : ¬ LedBy SignByte t ↔ ∀ b ∈ t.head?, isSign b = false := by
  simp only [not_ledBy_iff, signByte_iff, Bool.not_eq_true]

theorem not_ledBy_mantissa_iff {t : List Byte} : ¬ LedBy (fun b => DigitByte b ∨ b = 0x2E) t ↔ NoMantissa t := by
  simp only [not_ledBy_iff, digitByte_iff, not_or, Bool.not_eq_true, NoMantissa, byteRadix]

/-- A run of digit bytes is the text of digits. -/
theorem Digits.exists_digitText {t : List Byte} (h : Digits t) : ∃ ds, t = digitText ds ∧ ∀ d ∈ ds, d < 10 :=
  Sys2Proof.Machine.exists_digitText (List.all_eq_true.mpr fun b hb => digitByte_iff.mp (h b hb))

theorem digits_digitText {ds : List Nat} (h : ∀ d ∈ ds, d < 10) : Digits (digitText ds) := by
  intro b hb
  obtain ⟨d, hd, rfl⟩ := List.mem_map.mp hb
  exact digitByte_iff.mpr (isDigit_digitByte (h d hd))

/-- The values of the bytes of digits. -/
theorem map_digitText {ds : List Nat} (h : ∀ d ∈ ds, d < 10) :
    (digitText ds).map (fun b => b.toNat - 0x30) = ds := by
  rw [digitText, List.map_map]
  exact (List.map_congr_left fun d hd => digitValue_digitByte (h d hd)).trans (List.map_id ds)

/-! ## Cutting a text -/

/-- Every text is an optional sign and a rest; without a sign, the rest begins with none. -/
theorem exists_sign (t : List Byte) : ∃ sg rest, SignText sg ∧ t = sg ++ rest ∧ (sg = [] → ¬ LedBy SignByte rest) := by
  by_cases h : LedBy SignByte t
  · obtain ⟨b, rest, rfl, rfl | rfl⟩ := h
    · exact ⟨[0x2B], rest, .inr (.inl rfl), rfl, by simp⟩
    · exact ⟨[0x2D], rest, .inr (.inr rfl), rfl, by simp⟩
  · exact ⟨[], t, .inl rfl, rfl, fun _ => h⟩

/-- Every text is a run of digits and a rest that goes on with none. -/
theorem exists_digitRun (t : List Byte) :
    ∃ ds rest, t = digitText ds ++ rest ∧ (∀ d ∈ ds, d < 10) ∧ NoDigit rest := by
  induction t with
  | nil => exact ⟨[], [], rfl, by simp, noDigit_nil⟩
  | cons b t ih =>
    by_cases hb : isDigit b = true
    · obtain ⟨ds, rest, rfl, hds, hrest⟩ := ih
      exact ⟨digitValue b :: ds, rest, by simp [digitByte_digitValue hb], by simpa [digitValue_lt hb] using hds, hrest⟩
    · exact ⟨[], b :: t, rfl, by simp, by simpa [NoDigit] using hb⟩

/-- The sign scan takes the sign, also before a second one. -/
theorem splitSign_append {sg t : List Byte} (hs : SignText sg) (h : sg = [] → ¬ LedBy SignByte t) :
    splitSign (sg ++ t) = (decide (sg = [byteMinus]), t) := by
  obtain rfl | rfl | rfl := hs
  · exact splitSign_text (.inl rfl) (not_ledBy_sign_iff.mp (h rfl))
  · rfl
  · rfl

/-! ## Special words (R125) -/

/-- A special word begins with a letter. -/
theorem SpecialText.not_ledBy_sign {t : List Byte} (h : SpecialText t) : ¬ LedBy SignByte t := by
  rintro ⟨b, rest, rfl, rfl | rfl⟩ <;>
    obtain h | h | h := h <;> exact absurd (List.cons.inj h).1 (by decide)

theorem SpecialText.length_le {t : List Byte} (h : SpecialText t) : t.length ≤ 8 := by
  obtain h | h | h := h <;> (have := congrArg List.length h; simp at this; omega)

section
variable {text t : List Byte} {neg : Bool}

theorem parse_of_special (hs : splitSign text = (neg, t)) (h : SpecialText t) :
    parse text = if t.map foldByte = foldedNan then .nan else .inf neg := by
  obtain h | h | h := h <;> simp [parse, hs, h, foldedInfinity, foldedInf, foldedNan]

theorem parse_of_not_special (hs : splitSign text = (neg, t)) (h : ¬ SpecialText t) :
    parse text = parseNumeral neg t := by
  obtain ⟨hinfinity, hrest⟩ := not_or.mp h
  obtain ⟨hinf, hnan⟩ := not_or.mp hrest
  simp only [parse, hs]
  exact (if_neg (not_or.mpr ⟨hinfinity, hinf⟩)).trans (if_neg hnan)

/-! ## Numerals (R123, R128) -/

theorem mantissaText_head {m rest : List Byte} (h : MantissaText m) :
    ∃ b, (m ++ rest).head? = some b ∧ (isDigit b = true ∨ b = byteRadix) := by
  obtain ⟨a, b, ha, -, ⟨hne, hm⟩ | ⟨-, rfl⟩⟩ := h
  · cases a with
    | nil => exact absurd rfl hne
    | cons c a =>
      refine ⟨c, ?_, .inl (digitByte_iff.mp (ha c (by simp)))⟩
      obtain rfl | rfl := hm <;> rfl
  · exact ⟨_, rfl, .inr rfl⟩

/-- Every mantissa of the grammar is scanned whole and has a digit. -/
theorem MantissaText.scan {m : List Byte} (h : MantissaText m) : ∃ digits r, digits ≠ [] ∧
    ∀ rest, NoMantissa rest → scanMantissa false (m ++ rest) = .ok ⟨digits, r, rest⟩ := by
  obtain ⟨ta, tb, hta, htb, hm⟩ := h
  obtain ⟨a, rfl, ha⟩ := hta.exists_digitText
  obtain ⟨b, rfl, hb⟩ := htb.exists_digitText
  have point : ∀ rest, NoMantissa rest →
      scanMantissa false (digitText a ++ 0x2E :: digitText b ++ rest) = .ok ⟨a ++ b, b.length, rest⟩ := fun rest hr => by
    rw [List.append_assoc]
    exact scanMantissa_point ha hb hr
  obtain ⟨hne, rfl | rfl⟩ | ⟨hne, rfl⟩ := hm
  · exact ⟨a, 0, by simpa [digitText] using hne, fun rest hr => scanMantissa_integer ha hr⟩
  · exact ⟨a ++ b, b.length, by simp_all [digitText], point⟩
  · exact ⟨b, b.length, by simpa [digitText] using hne, fun rest hr => scanMantissa_point (a := []) (by simp) hb hr⟩

theorem noMantissa_of_marker {m : Byte} (hm : isMarker m = true) (t : List Byte) : NoMantissa (m :: t) := by
  intro b hb
  cases hb
  exact isDigit_of_isMarker hm

/-- The exponent of the grammar, scanned whole. -/
theorem scanExponent_marker {digits ds : List Nat} (hdig : digits ≠ []) (hd : ∀ d ∈ ds, d < 10) (hn : ds ≠ []) {m : Byte}
    (hm : isMarker m = true) {sg : List Byte} (hs : SignText sg) :
    scanExponent digits (m :: (sg ++ digitText ds)) = .ok (signedExponent (decide (sg = [byteMinus])) ds, []) := by
  have scan := scanExponent_some hdig hd hn hm hs noDigit_nil
  rwa [List.append_nil] at scan

theorem ExponentText.scan {e : List Byte} (h : ExponentText e) :
    NoMantissa e ∧ ∀ digits : List Nat, digits ≠ [] → ∃ E, scanExponent digits e = .ok (E, []) := by
  obtain rfl | ⟨m, sg, tds, hm, hs, htds, hne, rfl⟩ := h
  · exact ⟨noMantissa_nil, fun _ _ => ⟨0, rfl⟩⟩
  · have marker : isMarker m = true := markerByte_iff.mp hm
    obtain ⟨ds, rfl, hd⟩ := htds.exists_digitText
    exact ⟨noMantissa_of_marker marker _, fun digits hdig =>
      ⟨_, scanExponent_marker hdig hd (by simpa [digitText] using hne) marker hs⟩⟩

/-- The parse of a numeral after its sign either fails or reads a tuple. -/
theorem parseNumeral_cases (neg : Bool) (t : List Byte) :
    (∃ k, parseNumeral neg t = .err k) ∨ ∃ D r E, parseNumeral neg t = .num neg D r E := by
  rw [parseNumeral]
  split
  · exact .inl ⟨_, rfl⟩
  · split
    · exact .inl ⟨_, rfl⟩
    · split
      · exact .inl ⟨_, rfl⟩
      · split
        · exact .inl ⟨_, rfl⟩
        · exact .inr ⟨_, _, _, rfl⟩

/-- A text that is scanned as a mantissa with a digit is one of the grammar. -/
theorem mantissaText_of_scan {m : Mantissa} (h : scanMantissa false t = .ok m) (hne : m.digits ≠ []) :
    ∃ mant, MantissaText mant ∧ t = mant ++ m.rest := by
  obtain ⟨hlt, -, ⟨ht, -⟩ | ⟨a, b, hab, -, ht⟩⟩ := scanMantissa_false_ok h
  · exact ⟨_, ⟨digitText m.digits, [], digits_digitText hlt, by simp [Digits],
      .inl ⟨by simpa [digitText] using hne, .inl rfl⟩⟩, ht⟩
  · rw [hab] at hlt hne
    have ha : Digits (digitText a) := digits_digitText fun d hd => hlt d (by simp [hd])
    have hb : Digits (digitText b) := digits_digitText fun d hd => hlt d (by simp [hd])
    refine ⟨digitText a ++ 0x2E :: digitText b, ⟨digitText a, digitText b, ha, hb, ?_⟩, ?_⟩
    · cases a with
      | nil => exact .inr ⟨by simpa [digitText] using hne, rfl⟩
      | cons d a => exact .inl ⟨by simp, .inr rfl⟩
    · rw [List.append_assoc]
      exact ht

theorem exponentText_of_scan {digits : List Nat} {e : List Byte} {E : Int} (h : scanExponent digits e = .ok (E, [])) :
    ExponentText e := by
  obtain ⟨-, rfl, -⟩ | ⟨m, sg, ds, hm, hs, hd, hne, -, rfl⟩ := scanExponent_ok h
  · exact .inl rfl
  · exact .inr ⟨m, sg, digitText ds, markerByte_iff.mpr hm, hs, digits_digitText hd, by simpa [digitText] using hne,
      by rw [List.append_nil]⟩

/-- R123 and R124 accept the same texts: the grammar's are those the parser does not refuse. -/
theorem acceptedText_iff : AcceptedText text ↔ ∀ k, parse text ≠ .err k := by
  constructor
  · rintro ⟨sg, body, hs, rfl, hspecial | ⟨m, e, hm, he, rfl⟩⟩ k
    · rw [parse_of_special (splitSign_append hs fun _ => hspecial.not_ledBy_sign) hspecial]
      split <;> simp
    · obtain ⟨b, hhead, hb⟩ := mantissaText_head (rest := e) hm
      obtain ⟨digits, r, hne, mantissa⟩ := hm.scan
      obtain ⟨hrest, exponent⟩ := he.scan
      obtain ⟨E, hE⟩ := exponent digits hne
      rw [parse_numeral hs hhead hb, parseNumeral_of_scans (mantissa e hrest) hE hne]
      simp
  · intro h
    obtain ⟨sg, t, hs, rfl, hsign⟩ := exists_sign text
    refine ⟨sg, t, hs, rfl, ?_⟩
    by_cases hspecial : SpecialText t
    · exact .inl hspecial
    · rw [parse_of_not_special (splitSign_append hs hsign) hspecial] at h
      obtain ⟨k, hk⟩ | ⟨D, r, E, hnum⟩ := parseNumeral_cases (decide (sg = [byteMinus])) t
      · exact absurd hk (h k)
      · obtain ⟨-, hne, m, hm, rfl, -, hE⟩ := parseNumeral_num hnum
        obtain ⟨mant, hmant, ht⟩ := mantissaText_of_scan hm hne
        exact .inr ⟨mant, m.rest, hmant, exponentText_of_scan hE, ht⟩

/-! ## The first failing check (R124) -/

theorem parseNumeral_of_mantissa_error {k : SubCode} (h : scanMantissa false t = .error k) :
    parseNumeral neg t = .err k := by simp [parseNumeral, h]

section
variable {D : List Nat} {r : Nat} {rest after : List Byte} {E : Int}

theorem parseNumeral_of_exponent_error {k : SubCode} (hm : scanMantissa false t = .ok ⟨D, r, rest⟩)
    (he : scanExponent D rest = .error k) : parseNumeral neg t = .err k := by simp [parseNumeral, hm, he]

theorem parseNumeral_of_trailing (hm : scanMantissa false t = .ok ⟨D, r, rest⟩)
    (he : scanExponent D rest = .ok (E, after)) (h : after ≠ []) : parseNumeral neg t = .err .trailingChars := by
  simp [parseNumeral, hm, he, h]

theorem parseNumeral_of_no_digits (hm : scanMantissa false t = .ok ⟨[], r, rest⟩)
    (he : scanExponent [] rest = .ok (E, [])) : parseNumeral neg t = .err .noDigits := by
  simp [parseNumeral, hm, he]

end

/-- The digits of a run of digits and radix points. -/
def runDigits (run : List Byte) : List Nat := (run.filter isDigit).map digitValue

theorem runDigits_eq_nil_iff (run : List Byte) : runDigits run = [] ↔ ∀ b ∈ run, ¬ DigitByte b := by
  simp [runDigits, digitByte_iff]

theorem runDigits_ne_nil_iff (run : List Byte) : runDigits run ≠ [] ↔ ∃ b ∈ run, DigitByte b := by
  rw [ne_eq, runDigits_eq_nil_iff]
  push Not
  rfl

section
variable {run tail : List Byte}

/-- The check after a second radix point was ruled out: a marker without a digit before it. -/
theorem firstFailure_missingBase (hcount : ¬ 2 ≤ run.count 0x2E) (hmark : LedBy MarkerByte tail)
    (hnone : ∀ b ∈ run, ¬ DigitByte b) : FirstFailure run tail 4 := by
  rw [FirstFailure, if_neg hcount]
  exact .inl ⟨hmark, hnone, rfl⟩

/-- A byte after the mantissa that is no marker. -/
theorem firstFailure_trailing (hcount : ¬ 2 ≤ run.count 0x2E) (hne : tail ≠ []) (hmark : ¬ LedBy MarkerByte tail) :
    FirstFailure run tail 5 := by
  rw [FirstFailure, if_neg hcount]
  exact .inr (.inr (.inl ⟨hne, hmark, rfl⟩))

/-- No digit at all. -/
theorem firstFailure_noDigits (hcount : ¬ 2 ≤ run.count 0x2E) (hnil : tail = []) (hnone : ∀ b ∈ run, ¬ DigitByte b) :
    FirstFailure run tail 1 := by
  rw [FirstFailure, if_neg hcount]
  exact .inr (.inr (.inr ⟨hnil, hnone, rfl⟩))

/-- Each failing check, in the order of R124, is what the parser reports of the run and the text after it. -/
theorem parseNumeral_of_firstFailure (neg : Bool) (hrun : ∀ b ∈ run, isDigit b = true ∨ b = byteRadix)
    (htail : NoMantissa tail) {sub : Nat} (h : FirstFailure run tail sub) :
    ∃ k, parseNumeral neg (run ++ tail) = .err k ∧ (subNumber k).toNat = sub := by
  obtain ⟨second, single⟩ := scanMantissa_run hrun htail false
  by_cases hcount : 2 ≤ run.count 0x2E
  · rw [FirstFailure, if_pos hcount] at h
    exact ⟨.multipleRadix, parseNumeral_of_mantissa_error (second hcount), h.symm⟩
  · rw [FirstFailure, if_neg hcount] at h
    obtain ⟨r, hm⟩ := single hcount
    obtain ⟨⟨m, rest, rfl, hmark⟩, hnone, rfl⟩ | ⟨m, es, rest, rfl, hmark, hes, hsign, hsome, hcheck⟩ |
      ⟨hne, hmark, rfl⟩ | ⟨rfl, hnone, rfl⟩ := h
    · rw [← runDigits, (runDigits_eq_nil_iff run).mpr hnone] at hm
      exact ⟨.missingExpBase, parseNumeral_of_exponent_error hm
        (scanExponent_missingBase (markerByte_iff.mp hmark) rest), rfl⟩
    · have hdig := (runDigits_ne_nil_iff run).mpr hsome
      have marker := markerByte_iff.mp hmark
      obtain ⟨hnd, rfl⟩ | ⟨tds, after, rfl, htds, hne, hnd, hafter, rfl⟩ := hcheck
      · exact ⟨.missingExpDigits, parseNumeral_of_exponent_error hm (scanExponent_missingDigits hdig marker hes
          (fun h => not_ledBy_sign_iff.mp (hsign h)) (not_ledBy_digit_iff.mp hnd)), rfl⟩
      · obtain ⟨ds, rfl, hd⟩ := htds.exists_digitText
        exact ⟨.trailingChars, parseNumeral_of_trailing hm (scanExponent_some hdig hd (by simpa [digitText] using hne)
          marker hes (not_ledBy_digit_iff.mp hnd)) hafter, rfl⟩
    · exact ⟨.trailingChars, parseNumeral_of_trailing hm (scanExponent_none (not_ledBy_marker_iff.mp hmark) _) hne, rfl⟩
    · rw [← runDigits, (runDigits_eq_nil_iff run).mpr hnone] at hm
      exact ⟨.noDigits, parseNumeral_of_no_digits hm rfl, rfl⟩

/-- After a marker and a digit: a failing check, or the exponent is read whole. -/
theorem exponent_failure_or_read (hdig : runDigits run ≠ []) {m : Byte} (hm : isMarker m = true) (bs : List Byte)
    (hcount : ¬ 2 ≤ run.count 0x2E) :
    (∃ sub, FirstFailure run (m :: bs) sub) ∨ ∃ E, scanExponent (runDigits run) (m :: bs) = .ok (E, []) := by
  have hsome := (runDigits_ne_nil_iff run).mp hdig
  have marker := markerByte_iff.mpr hm
  obtain ⟨es, rest, hes, rfl, hsign⟩ := exists_sign bs
  obtain ⟨ds, after, rfl, hd, hafter⟩ := exists_digitRun rest
  by_cases hds : ds = []
  · subst hds
    refine .inl ⟨3, ?_⟩
    rw [FirstFailure, if_neg hcount]
    exact .inr (.inl ⟨m, es, _, rfl, marker, hes, hsign, hsome, .inl ⟨not_ledBy_digit_iff.mpr hafter, rfl⟩⟩)
  · by_cases hnil : after = []
    · subst hnil
      exact .inr ⟨_, scanExponent_some hdig hd hds hm hes noDigit_nil⟩
    · refine .inl ⟨5, ?_⟩
      rw [FirstFailure, if_neg hcount]
      exact .inr (.inl ⟨m, es, _, rfl, marker, hes, hsign, hsome, .inr ⟨digitText ds, after, rfl, digits_digitText hd,
        by simpa [digitText] using hds, not_ledBy_digit_iff.mpr hafter, hnil, rfl⟩⟩)

/-- A text after its sign fails one of the checks, or the parser reads its tuple. -/
theorem firstFailure_or_num (neg : Bool) (hrun : ∀ b ∈ run, isDigit b = true ∨ b = byteRadix) (htail : NoMantissa tail) :
    (∃ sub, FirstFailure run tail sub) ∨ ∃ D r E, parseNumeral neg (run ++ tail) = .num neg D r E := by
  by_cases hcount : 2 ≤ run.count 0x2E
  · exact .inl ⟨2, by rw [FirstFailure, if_pos hcount]⟩
  obtain ⟨r, hscan⟩ := (scanMantissa_run hrun htail false).2 hcount
  rw [← runDigits] at hscan
  by_cases hdig : runDigits run = []
  · have hnone := (runDigits_eq_nil_iff run).mp hdig
    by_cases hnil : tail = []
    · exact .inl ⟨1, firstFailure_noDigits hcount hnil hnone⟩
    by_cases hmark : LedBy MarkerByte tail
    · exact .inl ⟨4, firstFailure_missingBase hcount hmark hnone⟩
    · exact .inl ⟨5, firstFailure_trailing hcount hnil hmark⟩
  · by_cases hmark : LedBy MarkerByte tail
    · obtain ⟨m, bs, rfl, hm⟩ := hmark
      obtain failure | ⟨E, hE⟩ := exponent_failure_or_read hdig (markerByte_iff.mp hm) bs hcount
      · exact .inl failure
      · exact .inr ⟨_, _, _, parseNumeral_of_scans hscan hE hdig⟩
    · by_cases hnil : tail = []
      · subst hnil
        exact .inr ⟨_, _, _, parseNumeral_of_scans hscan rfl hdig⟩
      · exact .inl ⟨5, firstFailure_trailing hcount hnil hmark⟩

end

/-- The sub-codes of R124's checks are those the parser reports. -/
theorem malformedAs_iff {sub : Nat} :
    MalformedAs text sub ↔ ∃ k, parse text = .err k ∧ (subNumber k).toNat = sub := by
  constructor
  · rintro ⟨sg, run, tail, hs, rfl, hsign, hspecial, hrun, htail, hfail⟩
    rw [parse_of_not_special (splitSign_append hs hsign) hspecial]
    exact parseNumeral_of_firstFailure _ (fun b hb => (hrun b hb).imp_left digitByte_iff.mp)
      (not_ledBy_mantissa_iff.mp htail) hfail
  · rintro ⟨k, hk, rfl⟩
    obtain ⟨sg, t, hs, rfl, hsign⟩ := exists_sign text
    have hspecial : ¬ SpecialText t := fun h => by
      rw [parse_of_special (splitSign_append hs hsign) h] at hk
      split at hk <;> cases hk
    rw [parse_of_not_special (splitSign_append hs hsign) hspecial] at hk
    obtain ⟨run, tail, rfl, hrun, htail⟩ := exists_mantissaRun t
    obtain ⟨sub, hfail⟩ | ⟨D, r, E, hnum⟩ := firstFailure_or_num (decide (sg = [byteMinus])) hrun htail
    · obtain ⟨k', hk', hsub⟩ := parseNumeral_of_firstFailure (decide (sg = [byteMinus])) hrun htail hfail
      rw [hk] at hk'
      cases hk'
      rw [hsub]
      exact ⟨sg, run, tail, hs, rfl, hsign, hspecial, fun b hb => (hrun b hb).imp_left digitByte_iff.mpr,
        not_ledBy_mantissa_iff.mpr htail, hfail⟩
    · rw [hk] at hnum
      cases hnum

end

/-! ## The statements -/

/-- Two error ends of one state are equal only with equal codes. -/
theorem afterError_inj {s : State} {c c' k k' : Nat} (hc : c < 16) (hc' : c' < 16) (hk : k < 16) (hk' : k' < 16)
    (h : afterError s c k = afterError s c' k') : c = c' ∧ k = k' := by
  have status := congrArg (fun t : State => t.status.toNat) h
  simp only [afterError, BitVec.toNat_ofNat] at status
  omega

/-- FROMSTR raises MALFORMED with the sub-code of the parser, and on no other text (R124, R242). -/
theorem exec_fromstr_malformed_iff {s : State} {text : List Byte} (hlen : text.length < 7000) (hst : s.status = 0x1#32)
    (hh : s.HoldsText text) {sub : Nat} (hsub : sub ≤ 5) :
    exec .fromstr s = .next (afterError s 3 sub) ↔ ∃ k, parse text = .err k ∧ (subNumber k).toNat = sub := by
  rw [execFromstr_of_holds hlen hh, Host.Outcome.next.injEq]
  constructor
  · intro h
    cases hc : convertText text with
    | word w =>
      rw [hc] at h
      have status := congrArg State.status h
      rw [finishConversion_word, complete_status, setX_status, hst] at status
      have number := congrArg BitVec.toNat status
      rw [show (statusCompleted 0x1#32).toNat = 2 by decide, afterError, BitVec.toNat_ofNat] at number
      omega
    | error code k =>
      rw [hc] at h
      change raiseError s code k = _ at h
      have bound := subNumber_le k
      rw [raiseError_eq] at h
      obtain ⟨rfl, hparse⟩ | ⟨rfl, rfl⟩ := convertText_error hc
      · exact ⟨k, hparse, (afterError_inj (by decide) (by decide) (by omega) (by omega) h).2⟩
      · exact absurd (afterError_inj (by decide) (by decide) (by omega) (by omega) h).1 (by decide)
  · rintro ⟨k, hk, rfl⟩
    rw [convertText, hk]
    exact raiseError_eq s .malformed k

/-- Settles O44: gathering stops, at an unwritten byte before which none is. -/
theorem unwrittenInputFaults : Obligations.UnwrittenInputFaults := by
  intro s k hlen hk hnone hbefore
  cases hg : gatherInput s 0 s.textLength with
  | ok text =>
    obtain ⟨hl, hbytes⟩ := gatherInput_ok hg
    have byte := hbytes k hk
    have hklen : k < text.length := hl ▸ hk
    rw [Nat.zero_add, hnone, List.getElem?_eq_getElem hklen] at byte
    cases byte
  | error j =>
    obtain ⟨-, -, hj, hfirst⟩ := gatherInput_error hg
    obtain hlt | rfl | hgt := Nat.lt_trichotomy j k
    · exact absurd hj (hbefore j hlt)
    · exact execFromstr_unwritten hlen hg
    · exact absurd hnone (hfirst k (Nat.zero_le k) hgt)

/-- Settles O45: MALFORMED is the parser's failure, which the grammar and the checks describe. -/
theorem malformedTextsAreThoseOutsideTheLanguage : Obligations.MalformedTextsAreThoseOutsideTheLanguage := by
  intro s text hlen hst hh
  refine ⟨?_, fun sub hsub => (exec_fromstr_malformed_iff hlen hst hh hsub).trans malformedAs_iff.symm⟩
  rw [acceptedText_iff]
  push Not
  constructor
  · rintro ⟨sub, -, hsub, h⟩
    obtain ⟨k, hk, -⟩ := (exec_fromstr_malformed_iff hlen hst hh hsub).mp h
    exact ⟨k, hk⟩
  · rintro ⟨k, hk⟩
    have positive := (subNumber_ne_zero_iff k).mpr (parse_err_ne_none hk)
    exact ⟨_, Nat.one_le_iff_ne_zero.mpr positive, subNumber_le k,
      (exec_fromstr_malformed_iff hlen hst hh (subNumber_le k)).mpr ⟨k, hk, rfl⟩⟩

/-- The word of a special text (R120, R125). -/
theorem convertText_special {sg body : List Byte} (hs : SignText sg) (hb : SpecialText body) :
    convertText (sg ++ body) =
      .word (if body.map foldByte = foldedNan then packNan else packInfinity (decide (sg = [byteMinus]))) := by
  have parsed := parse_of_special (splitSign_append hs fun _ => hb.not_ledBy_sign) hb
  rw [convertText]
  by_cases hnan : body.map foldByte = foldedNan
  · rw [if_pos hnan] at parsed ⊢
    rw [parsed]
  · rw [if_neg hnan] at parsed ⊢
    rw [parsed]

/-- Settles O46: the conversion of the text is its pattern. -/
theorem specialWordsComplete : Obligations.SpecialWordsComplete := by
  intro s sg body hs hb hh
  have bound := hb.length_le
  have short : (sg ++ body).length < 7000 := by
    rw [List.length_append]
    obtain rfl | rfl | rfl := hs <;> simp <;> omega
  have nan_iff : (body.length = 3 ∧ body.map foldByte = [0x6E, 0x61, 0x6E]) ↔ body.map foldByte = foldedNan :=
    ⟨fun h => h.2, fun h => ⟨by simpa [foldedNan] using congrArg List.length h, h⟩⟩
  rw [execFromstr_of_holds short hh, convertText_special hs hb, finishConversion_word]
  refine ⟨_, rfl, succeeded_completeX s _, sameBut_completeX s _, ?_⟩
  rw [complete_x, setX_x]
  simp only [nan_iff, packNan, packInfinity, decide_eq_true_eq]
  rfl

/-- A numeral after an optional sign, from its two scans. -/
theorem parse_of_scans {sg t rest : List Byte} {digits : List Nat} {r : Nat} {E : Int} (hs : SignText sg) {b : Byte}
    (hb : t.head? = some b) (hd : isDigit b = true ∨ b = byteRadix)
    (hm : scanMantissa false t = .ok ⟨digits, r, rest⟩) (he : scanExponent digits rest = .ok (E, []))
    (hne : digits ≠ []) : parse (sg ++ t) = .num (decide (sg = [byteMinus])) digits r E := by
  rw [parse_numeral hs hb hd, parseNumeral_of_scans hm he hne]

/-- The head of integer digits, or of the radix point after none. -/
theorem head?_digitText_point {a : List Nat} (ha : ∀ d ∈ a, d < 10) (rest : List Byte) :
    ∃ b, (digitText a ++ byteRadix :: rest).head? = some b ∧ (isDigit b = true ∨ b = byteRadix) := by
  cases a with
  | nil => exact ⟨_, rfl, .inr rfl⟩
  | cons d a => exact ⟨_, rfl, .inl (isDigit_digitByte (ha d (by simp)))⟩

/-- A numeral with a radix point: every digit around it, and as many after it (R128). -/
theorem parse_point {sg rest : List Byte} {a b : List Nat} {E : Int} (hs : SignText sg) (ha : ∀ d ∈ a, d < 10)
    (hb : ∀ d ∈ b, d < 10) (hne : a ++ b ≠ []) (hr : NoMantissa rest) (he : scanExponent (a ++ b) rest = .ok (E, [])) :
    parse (sg ++ (digitText a ++ byteRadix :: (digitText b ++ rest))) =
      .num (decide (sg = [byteMinus])) (a ++ b) b.length E := by
  obtain ⟨c, hc, hd⟩ := head?_digitText_point ha (digitText b ++ rest)
  exact parse_of_scans hs hc hd (scanMantissa_point ha hb hr) he hne

/-- A numeral without a radix point (R128). -/
theorem parse_integer {sg rest : List Byte} {a : List Nat} {E : Int} (hs : SignText sg) (ha : ∀ d ∈ a, d < 10)
    (hne : a ≠ []) (hr : NoMantissa rest) (he : scanExponent a rest = .ok (E, [])) :
    parse (sg ++ (digitText a ++ rest)) = .num (decide (sg = [byteMinus])) a 0 E := by
  obtain ⟨d, a', rfl⟩ := List.exists_cons_of_ne_nil hne
  exact parse_of_scans hs rfl (.inl (isDigit_digitByte (ha d (by simp)))) (scanMantissa_integer ha hr) he hne

theorem signedExponent_eq (neg : Bool) (ds : List Nat) :
    signedExponent neg ds = (if neg then -1 else 1) * (intOf ds : Int) := by
  cases neg <;> simp [signedExponent]

/-- Settles O47: the two forms of mantissa, each without and with an exponent. -/
theorem numeralTuple : Obligations.NumeralTuple := by
  intro sg ta tb es tds m hs hta htb hne hes htds hdsne hm mant e
  obtain ⟨a, rfl, ha⟩ := hta.exists_digitText
  obtain ⟨b, rfl, hb⟩ := htb.exists_digitText
  obtain ⟨ds, rfl, hd⟩ := htds.exists_digitText
  have marker : isMarker m = true := markerByte_iff.mp hm
  have digits : ∀ d ∈ a ++ b, d < 10 := fun d h => (List.mem_append.mp h).elim (ha d) (hb d)
  have nonempty : a ++ b ≠ [] := fun h => hne (by rw [← digitText_append, h, digitText_nil])
  have mantissa : mant = a ++ b := by
    simp only [mant, ← digitText_append]
    exact map_digitText digits
  have exponent : scanExponent (a ++ b) (m :: (es ++ digitText ds)) = .ok (e, []) := by
    rw [scanExponent_marker nonempty hd (fun h => hdsne (by rw [h, digitText_nil])) marker hes, signedExponent_eq]
    simp only [e, map_digitText hd, decide_eq_true_eq]
    rfl
  have rest := noMantissa_of_marker marker (es ++ digitText ds)
  rw [mantissa, digitText_length]
  refine ⟨?_, ?_, ?_⟩
  · have plain := parse_point hs ha hb nonempty noMantissa_nil (rest := []) rfl
    rw [List.append_nil, ← List.append_assoc] at plain
    exact plain
  · rw [List.append_assoc]
    exact parse_point hs ha hb nonempty rest exponent
  · intro hbnil
    have hb0 : b = [] := List.map_eq_nil_iff.mp hbnil
    subst hb0
    rw [List.append_nil] at nonempty exponent ⊢
    have plain := parse_integer hs ha nonempty noMantissa_nil (rest := []) rfl
    rw [List.append_nil] at plain
    refine ⟨plain, ?_⟩
    rw [List.append_assoc]
    exact parse_integer hs ha nonempty rest exponent

/-- Settles O48: the rules' own examples, evaluated. -/
theorem subCodesOfTheExamples : Obligations.SubCodesOfTheExamples := by
  unfold Obligations.SubCodesOfTheExamples
  decide

end Sys2Proof.Machine

/-! R120, R127, R130 to R144: FROMSTR on numerals. Each answer of the normalizer is an end of the command; below and above
the range the initial exponent no longer counts, which is why a saturating one is enough. -/

namespace Sys2Proof.Machine

section
variable {s : State} {text : List Byte} {neg neg' : Bool} {D : List Nat} {r c : Nat} {E e : Int}

/-- A command completed with a word in X, and changed nothing else but STATUS. -/
def CompletesWith (i : Instr) (s : State) (w : QWord) : Prop :=
  ∃ t, exec i s = .next t ∧ t.x = w ∧ Succeeded s t ∧ SameBut s t [.status, .x0, .x1, .x2, .x3]

theorem completesWith_of_exec {i : Instr} {w : QWord} (h : exec i s = .next (complete (s.setX w))) :
    CompletesWith i s w :=
  ⟨_, h, by rw [complete_x, setX_x], succeeded_completeX s w, sameBut_completeX s w⟩

/-! ## FROMSTR by the normalizer's answer (R120) -/

theorem fromstr_completesWith_finite (hlen : text.length < 7000) (hh : s.HoldsText text)
    (hp : parse text = .num neg D r E) (hn : normalize neg D r E = .fin neg' c e) :
    CompletesWith .fromstr s (packFinite neg' c e) :=
  completesWith_of_exec (execFromstr_num hlen hh hp hn)

theorem fromstr_completesWith_infinity (hlen : text.length < 7000) (hh : s.HoldsText text)
    (hp : parse text = .num neg D r E) (hn : normalize neg D r E = .inf neg') :
    CompletesWith .fromstr s (packInfinity neg') :=
  completesWith_of_exec (execFromstr_num hlen hh hp hn)

theorem fromstr_overflows (hlen : text.length < 7000) (hh : s.HoldsText text) (hp : parse text = .num neg D r E)
    (hn : normalize neg D r E = .overflow) : exec .fromstr s = .next (afterError s 4 0) :=
  (execFromstr_num hlen hh hp hn).trans (congrArg Host.Outcome.next (raiseError_eq s .overflow .none))

/-! ## Answers of the normalizer -/

theorem significant_ne_nil (h : 0 < (significant D).length) : significant D ≠ [] := List.length_pos_iff.mp h

theorem normalize_exact (hne : 0 < (significant D).length) (hle : (significant D).length ≤ 34) (h1 : -6176 ≤ E - r)
    (h2 : E - r ≤ 6111) : normalize neg D r E = .fin neg (intOf D) (E - r) := by
  rw [normalize_nonzero (significant_ne_nil hne), normalizeNonzero_exact h1 h2 neg hle, intOf_significant]

theorem normalize_padded (hne : 0 < (significant D).length) (h : 6111 < E - r)
    (hle : (significant D).length + (E - r - 6111) ≤ 34) :
    normalize neg D r E = .fin neg (intOf D * 10 ^ (E - r - 6111).toNat) 6111 := by
  rw [normalize_nonzero (significant_ne_nil hne), normalizeNonzero_high h, if_neg (by omega), intOf_significant]

/-- Infinity comes of more than 34 digits that end at exponent 6111 (R141). -/
theorem length_of_normalizeNonzero_inf {C : List Nat} {e0 : Int} (hC : C ≠ []) (h : normalizeNonzero neg C e0 = .inf neg) :
    34 < C.length ∧ e0 + C.length - 34 = 6111 := by
  obtain ⟨-, hover⟩ | ⟨hfits, ⟨k, e, hfin⟩ | ⟨-, hend⟩⟩ := normalizeNonzero_cases neg hC e0
  · rw [hover] at h; cases h
  · rw [hfin] at h; cases h
  · refine ⟨?_, hend⟩
    by_contra hshort
    by_cases hhigh : 6111 < e0
    · rw [normalizeNonzero_high hhigh] at h
      split at h <;> cases h
    · rw [normalizeNonzero_exact (by omega) (by omega) neg (by omega)] at h
      cases h

theorem packInfinity_sign (neg : Bool) : (packInfinity neg).getLsbD 127 = neg := by cases neg <;> decide

/-! ## Far outside the range (R127) -/

/-- From exponent 6146 on, a nonzero run overflows and a run of zeros is clamped, whatever the exponent is. -/
theorem normalize_of_huge (h : 6146 ≤ E - r) :
    normalize neg D r E = if significant D = [] then .fin neg 0 6111 else .overflow := by
  split
  · next hz => rw [normalize_zero hz, clampExponent_eq, show max (-6176) (min 6111 (E - r)) = 6111 by omega]
  · next hz => rw [normalize_nonzero hz, normalizeNonzero_high (by omega), if_pos (by omega)]

/-- Where all the digits lie below half of 10^-6176, the result is 0, whatever the exponent is. -/
theorem normalize_of_tiny (h : E - r + D.length < -6176) : normalize neg D r E = .fin neg 0 (-6176) := by
  by_cases hz : significant D = []
  · rw [normalize_zero hz, clampExponent_eq, show max (-6176) (min 6111 (E - r)) = -6176 by omega]
  · have hle : (significant D).length ≤ D.length := (List.dropWhile_suffix _).length_le
    have final : finalExponent (E - r) (significant D).length = -6176 := by rw [finalExponent_eq]; omega
    rw [normalize_nonzero hz, normalizeNonzero_trim (by omega) neg (by omega), final, if_neg (by omega),
      if_pos (by omega)]

end

/-! ## The statements -/

/-- Settles O49: zeros are clamped, and no digit is lost in range nor above it. -/
theorem exactNumeralsComplete : Obligations.ExactNumeralsComplete := by
  intro s text neg D r E hlen hh hp _ n e0
  refine ⟨fun hn => ?_, fun hn hle h1 h2 => ?_, fun hn hhigh hle => ?_⟩
  · exact fromstr_completesWith_finite hlen hh hp (normalize_zero (List.eq_nil_of_length_eq_zero hn) neg r E)
  · exact fromstr_completesWith_finite hlen hh hp (normalize_exact hn hle h1 h2)
  · exact fromstr_completesWith_finite hlen hh hp (normalize_padded hn hhigh hle)

/-- The finite end of a numeral: the normalizer's value is in range, so its word is finite. -/
theorem fromstr_finite_end {s : State} {text : List Byte} {neg : Bool} {D : List Nat} {r c : Nat} {E e : Int}
    (hlen : text.length < 7000) (hh : s.HoldsText text) (hp : parse text = .num neg D r E) (hD : ∀ d ∈ D, d < 10)
    (hn : normalize neg D r E = .fin neg c e) :
    ∃ t, exec .fromstr s = .next t ∧ Succeeded s t ∧ SameBut s t [.status, .x0, .x1, .x2, .x3] ∧
      t.x.getLsbD 127 = neg ∧ (unpack t.x).cls = .finite ∧ ∃ c e, normalize neg D r E = .fin neg c e ∧
        c ≤ 10 ^ 34 - 1 ∧ -6176 ≤ e ∧ e ≤ 6111 ∧ t.x = packFinite neg c e := by
  obtain ⟨hc, h1, h2, -⟩ := normalizedValuesInRange neg neg D r E c e hD hn
  obtain ⟨t, ht, hx, succeeded, same⟩ := fromstr_completesWith_finite hlen hh hp hn
  have finite : (unpack t.x).cls = .finite := by rw [hx, unpack_packFinite hc h1 h2]
  exact ⟨t, ht, succeeded, same, by rw [hx, packFinite_sign], finite, c, e, hn, hc, h1, h2, hx⟩

/-- Settles O50: the three answers of the normalizer, each with its condition. -/
theorem numeralsOverflowOrComplete : Obligations.NumeralsOverflowOrComplete := by
  intro s text neg D r E hlen hh hp hD n e0 Overflows RoundsToInfinity
  have hC := significant_lt hD
  by_cases hz : significant D = []
  · have hn : n = 0 := congrArg List.length hz
    refine ⟨fun ⟨h, _⟩ => absurd h (by omega), fun _ => ?_⟩
    obtain ⟨t, ht, succeeded, same, sign, finite⟩ :=
      fromstr_finite_end hlen hh hp hD (normalize_zero hz neg r E)
    exact ⟨t, ht, succeeded, same, sign, fun ⟨h, _⟩ => absurd h (by omega), fun _ => finite⟩
  · have hpos : 0 < n := List.length_pos_iff.mpr hz
    have answer := normalize_nonzero hz neg r E
    obtain ⟨hover, heq⟩ | ⟨hfits, ⟨k, e, heq⟩ | ⟨heq, -⟩⟩ := normalizeNonzero_cases neg hz e0
    · exact ⟨fun _ => fromstr_overflows hlen hh hp (answer.trans heq), fun h => absurd ⟨hpos, hover⟩ h⟩
    · refine ⟨fun ⟨_, h⟩ => absurd h hfits, fun _ => ?_⟩
      obtain ⟨t, ht, succeeded, same, sign, finite⟩ := fromstr_finite_end hlen hh hp hD (answer.trans heq)
      refine ⟨t, ht, succeeded, same, sign, fun ⟨hn, hend, hmid⟩ => ?_, fun _ => finite⟩
      rw [← intOf_significant] at hmid
      rw [(normalizeNonzero_inf_iff hC neg hn hend).mpr hmid] at heq
      cases heq
    · refine ⟨fun ⟨_, h⟩ => absurd h hfits, fun _ => ?_⟩
      obtain ⟨t, ht, hx, succeeded, same⟩ := fromstr_completesWith_infinity hlen hh hp (answer.trans heq)
      obtain ⟨hn, hend⟩ := length_of_normalizeNonzero_inf hz heq
      have hmid := (normalizeNonzero_inf_iff hC neg hn hend).mp heq
      rw [intOf_significant] at hmid
      exact ⟨t, ht, succeeded, same, by rw [hx, packInfinity_sign], fun _ => hx, fun h => absurd ⟨hn, hend, hmid⟩ h⟩

/-- Settles O53: an exponent that saturates lies outside the range before and after. -/
theorem saturatingExponentIsEnough : Obligations.SaturatingExponentIsEnough := by
  intro neg D r E S hS hr hD _
  by_cases hhigh : S < E
  · rw [normalize_of_huge (by omega), normalize_of_huge (by omega)]
  by_cases hlow : E < -S
  · rw [normalize_of_tiny (by omega), normalize_of_tiny (by omega)]
  · rw [show max (-S) (min S E) = E by omega]

/-- Settles O54: both commands pack the normalizer's value, which is in ENC.FIN's range. -/
theorem encFinAgreesWithFromstr : Obligations.EncFinAgreesWithFromstr := by
  intro s t u text neg neg' D r E c e hlen hh hp hD hn ht hhigh hlow hexp
  obtain ⟨hc, h1, h2, -⟩ := normalizedValuesInRange neg neg' D r E c e hD hn
  obtain ⟨t', ht', hx, -⟩ := fromstr_completesWith_finite hlen hh hp hn
  rw [ht] at ht'
  cases ht'
  have halves : u.opa.toNat * 10 ^ 17 + u.opb.toNat = c := by rw [hhigh, hlow, Nat.div_add_mod']
  have packed := execEncFin_ok (sgn := neg') halves hc (.inr (by omega))
  rw [hexp, clampExponent_of_mem h1 h2] at packed
  exact ⟨_, packed, by rw [complete_x, setX_x, hx]⟩

end Sys2Proof.Machine
